-- ==== Sys2Proof/Word.lean ====
section
/-! DEFINITION. The words of BBCODEC: the 8-bit cell of both buffers and the checksum's range. -/

namespace Sys2Proof

/-- A cell of `RAW` or `STR`: 8 bits (20_memory.md R41). Character codes are bytes (R9). -/
abbrev Byte := BitVec 8

/-- The value of register `C`: "an integer in [0,36)" (10_state.md R18). R33 (a) lets the bound be part of
the type, so the values 36 to 63 of the 6-bit register, which no rule produces, are no values here. -/
abbrev Checksum := Fin 36

end Sys2Proof
end

