-- ==== Sys2Proof/Config.lean ====
section
/-! DEFINITION. What an implementation of BBCODEC fixes (00_scope.md R3 to R5) and the free values. -/

namespace Sys2Proof

/-- The legal values of `HYPHEN_SLOT` (00_scope.md R5, U9). -/
inductive HyphenSlot where
  | three
  | four
  | five
  deriving DecidableEq, Repr

/-- The parameters of one block. `kMax` and `lenW` are OPEN (R3, R4): every statement holds for all their legal values. -/
structure Config where
  /-- `K_MAX`, the largest number of pair groups one string may hold (R3). -/
  kMax : Nat
  /-- `LEN_W`, the width of RAW_LEN, STR_LEN, ERR_POS and K (R4). -/
  lenW : Nat
  /-- `HYPHEN_SLOT` (R5); `four` in the hardware the spec describes. -/
  hyphenSlot : HyphenSlot
  deriving DecidableEq, Repr

/-- `RAW_CAP = 2*K_MAX + 1` (R3). -/
def Config.rawCap (c : Config) : Nat := 2 * c.kMax + 1

/-- `STR_CAP = 6*K_MAX + 5` (R3). -/
def Config.strCap (c : Config) : Nat := 6 * c.kMax + 5

/-- The constraint on `LEN_W`: `2^LEN_W > STR_CAP` (R4). -/
abbrev Config.Legal (c : Config) : Prop := c.strCap < 2 ^ c.lenW

/-- The group offset of the hyphen as a number (R5). -/
def HyphenSlot.offset : HyphenSlot → Nat
  | .three => 3
  | .four => 4
  | .five => 5

/-- The block that `State.reset` describes. DESIGN CHOICE (log 1): K_MAX = 5 and LEN_W = 6, unsafe for a claim that rests on
them; no rule does. The hyphen slot is the hardware's own, 4 (R5). -/
def Config.hardware : Config := { kMax := 5, lenW := 6, hyphenSlot := .four }

/-- What a host read during lockout returns (U3): the `n`-th draw. Nothing is known of it (log 8); a reader
takes as many of its low bits as the register or cell has. -/
opaque Config.freeValue : Nat → Nat

/-- What cell `i` of `RAW` reads as to an idle host while it holds no value (20_memory.md R52, U4), since cells last lost their
values for the `n`-th time. Nothing is known of it (log 8). -/
opaque Config.freeRawCell (i n : Nat) : Byte

/-- The same for a cell of `STR`. -/
opaque Config.freeStrCell (i n : Nat) : Byte

end Sys2Proof
end

