-- ==== Sys2Proof/Syntax.lean ====
section
/-! DEFINITION. The one inductive of everything spec/opcode_table.json encodes: four commands, eight step operations,
24 symbols, two data formats, five error codes. BBCODEC fetches no instructions (00_scope.md section 1); what each
row does when it is performed is said where its meaning stands (Machine/<Family>.lean). -/

namespace Sys2Proof

/-- One constructor per row of spec/opcode_table.json. A symbol carries the index of the STR cell it is written to
(log 14); an error code carries the position it records. -/
inductive Instr where
  /-- CMD_NOP, `CMD = 0` (43_host_commands.md R152). -/
  | cmdNop
  /-- CMD_ENCODE, `CMD = 1` (R153). -/
  | cmdEncode
  /-- CMD_DECODE, `CMD = 2` (R154). -/
  | cmdDecode
  /-- CMD_RSVD, `CMD = 3` (R155). -/
  | cmdRsvd
  /-- EOPEN (41_encoder.md R102). -/
  | eopen
  /-- EPAIR (R103). -/
  | epair
  /-- ETAILB (R104). -/
  | etailb
  /-- ETAILC (R105). -/
  | etailc
  /-- ECLOSE (R107). -/
  | eclose
  /-- DFRAME (42_decoder.md R121). -/
  | dframe
  /-- DPAIR (R127). -/
  | dpair
  /-- DTAIL (R128). -/
  | dtail
  /-- Symbol: `VOWEL[0] = 'a'` (R14, R60), to STR cell `i`. -/
  | symV0 (i : Nat)
  /-- Symbol: `VOWEL[1] = 'e'` (R14, R60), to STR cell `i`. -/
  | symV1 (i : Nat)
  /-- Symbol: `VOWEL[2] = 'i'` (R14, R60), to STR cell `i`. -/
  | symV2 (i : Nat)
  /-- Symbol: `VOWEL[3] = 'o'` (R14, R60), to STR cell `i`. -/
  | symV3 (i : Nat)
  /-- Symbol: `VOWEL[4] = 'u'` (R14, R60), to STR cell `i`. -/
  | symV4 (i : Nat)
  /-- Symbol: `VOWEL[5] = 'y'` (R14, R60), to STR cell `i`. -/
  | symV5 (i : Nat)
  /-- Symbol: `CONS[0] = 'b'` (R15, R60), to STR cell `i`. -/
  | symC0 (i : Nat)
  /-- Symbol: `CONS[1] = 'c'` (R15, R60), to STR cell `i`. -/
  | symC1 (i : Nat)
  /-- Symbol: `CONS[2] = 'd'` (R15, R60), to STR cell `i`. -/
  | symC2 (i : Nat)
  /-- Symbol: `CONS[3] = 'f'` (R15, R60), to STR cell `i`. -/
  | symC3 (i : Nat)
  /-- Symbol: `CONS[4] = 'g'` (R15, R60), to STR cell `i`. -/
  | symC4 (i : Nat)
  /-- Symbol: `CONS[5] = 'h'` (R15, R60), to STR cell `i`. -/
  | symC5 (i : Nat)
  /-- Symbol: `CONS[6] = 'k'` (R15, R60), to STR cell `i`. -/
  | symC6 (i : Nat)
  /-- Symbol: `CONS[7] = 'l'` (R15, R60), to STR cell `i`. -/
  | symC7 (i : Nat)
  /-- Symbol: `CONS[8] = 'm'` (R15, R60), to STR cell `i`. -/
  | symC8 (i : Nat)
  /-- Symbol: `CONS[9] = 'n'` (R15, R60), to STR cell `i`. -/
  | symC9 (i : Nat)
  /-- Symbol: `CONS[10] = 'p'` (R15, R60), to STR cell `i`. -/
  | symC10 (i : Nat)
  /-- Symbol: `CONS[11] = 'r'` (R15, R60), to STR cell `i`. -/
  | symC11 (i : Nat)
  /-- Symbol: `CONS[12] = 's'` (R15, R60), to STR cell `i`. -/
  | symC12 (i : Nat)
  /-- Symbol: `CONS[13] = 't'` (R15, R60), to STR cell `i`. -/
  | symC13 (i : Nat)
  /-- Symbol: `CONS[14] = 'v'` (R15, R60), to STR cell `i`. -/
  | symC14 (i : Nat)
  /-- Symbol: `CONS[15] = 'z'` (R15, R60), to STR cell `i`. -/
  | symC15 (i : Nat)
  /-- Symbol: `CONS[16] = 'x'` (R15, R60), to STR cell `i`. -/
  | symC16 (i : Nat)
  /-- Symbol: the hyphen `'-'` (R60), to STR cell `i`. -/
  | symHyphen (i : Nat)
  /-- PAIR: one byte pair `hhmmmmllaaaabbbb` (30_encoding.md R64, R65). -/
  | pair (hi : BitVec 2) (mid : BitVec 4) (lo : BitVec 2) (n1 n0 : BitVec 4)
  /-- BYTE_TAIL: the last byte of an odd-length sequence, `hhmmmmll` (R67). -/
  | byteTail (hi : BitVec 2) (mid : BitVec 4) (lo : BitVec 2)
  /-- ERR_NONE, code 0 (R73, R29). -/
  | errNone
  /-- InvalidFraming, code 1, recording position `pos` (60_exceptions.md R173). -/
  | invalidFraming (pos : Nat)
  /-- InvalidLength, code 2, recording position `pos` (R172). -/
  | invalidLength (pos : Nat)
  /-- InvalidCharacter, code 3, recording position `pos` (R174). -/
  | invalidCharacter (pos : Nat)
  /-- ChecksumMismatch, code 4, recording position `pos` (R175, R176). -/
  | checksumMismatch (pos : Nat)
  deriving DecidableEq, Repr

end Sys2Proof
end

