-- ==== Sys2Proof/WellFormed.lean ====
section
/-! DEFINITION. Which instructions are well formed on a block: a symbol's cell exists, a recorded position fits
ERR_POS. Everything else a field could get wrong its type excludes. -/

namespace Sys2Proof

/-- Well-formedness on a block with parameters `cfg`. A symbol's cell index is below `STR_CAP` (20_memory.md R53); an
error's position fits the `LEN_W` bits of ERR_POS (10_state.md R30). -/
def Instr.wf (cfg : Config) : Instr → Bool
  | .cmdNop | .cmdEncode | .cmdDecode | .cmdRsvd => true
  | .eopen | .epair | .etailb | .etailc | .eclose | .dframe | .dpair | .dtail => true
  | .symV0 i | .symV1 i | .symV2 i | .symV3 i | .symV4 i | .symV5 i
  | .symC0 i | .symC1 i | .symC2 i | .symC3 i | .symC4 i | .symC5 i
  | .symC6 i | .symC7 i | .symC8 i | .symC9 i | .symC10 i | .symC11 i
  | .symC12 i | .symC13 i | .symC14 i | .symC15 i | .symC16 i | .symHyphen i => decide (i < cfg.strCap)
  | .pair _ _ _ _ _ | .byteTail _ _ _ => true
  | .errNone => true
  | .invalidFraming pos | .invalidLength pos | .invalidCharacter pos | .checksumMismatch pos =>
    decide (pos < 2 ^ cfg.lenW)

end Sys2Proof
end

