-- ==== Sys2Proof/Decode.lean ====
section
/-! DEFINITION. The decoder and the encoder. The spec gives five encoding spaces that share no word (30_encoding.md:
CTRL R72, SEL R79, STR cells R60, the data formats R65 and R67, ERR_CODE R73), so a code is a word together with the
space it is found in and the index or position that stands beside it. -/

namespace Sys2Proof

/-- Where a word is found: the space that says how to read it. -/
inductive Space where
  /-- The value a host writes to CTRL (R72). -/
  | ctrl
  /-- The engine's dispatch word `SEL = (PHASE, LAST, ODD)` (R79). -/
  | sel
  /-- The content of a STR cell (R60). -/
  | str
  /-- A byte pair, 16 bits (R65). -/
  | pairWord
  /-- The last byte of an odd-length sequence (R67). -/
  | tailByte
  /-- The 3-bit value of ERR_CODE (R73). -/
  | errCode
  deriving DecidableEq, Repr

/-- A word in its space, with the STR index (symbols) or the position (error codes) that stands beside it; the other
spaces have none and carry 0. -/
structure Code where
  space : Space
  word : Nat
  operand : Nat
  deriving DecidableEq, Repr

/-- Why a code names no instruction. -/
inductive DecodeError where
  /-- `SEL = 000xx`: PHASE is IDLE, no step operation is enabled (R79). -/
  | noStepWhenIdle
  /-- `SEL = 110xx` or `111xx`: PHASE 6 and 7 are unreachable (R79, U7). -/
  | unreachableSelector
  /-- A STR cell content that is none of the 24 symbols (R61). -/
  | notASymbol
  /-- ERR_CODE 5, 6 or 7, which never occur (R73). -/
  | unusedErrorCode
  /-- The word has more bits than its space. -/
  | wordTooWide
  deriving DecidableEq, Repr

/-- One row of a match and mask table. -/
structure Row where
  mask : Nat
  value : Nat
  instr : Instr
  deriving DecidableEq, Repr

/-- The row matches the word: the masked bits are the row's. -/
def Row.matches (r : Row) (w : Nat) : Bool := w &&& r.mask == r.value

/-- The command codes (R72): mask 0x3, bits above bit 1 are ignored. -/
def cmdRows : List Row :=
  [⟨0x3, 0x0, .cmdNop⟩, ⟨0x3, 0x1, .cmdEncode⟩, ⟨0x3, 0x2, .cmdDecode⟩, ⟨0x3, 0x3, .cmdRsvd⟩]

/-- The dispatch table (R79), match and mask as the table has them. -/
def selRows : List Row :=
  [⟨0b11100, 0b00100, .eopen⟩, ⟨0b11110, 0b01000, .epair⟩, ⟨0b11111, 0b01011, .etailb⟩,
   ⟨0b11111, 0b01010, .etailc⟩, ⟨0b11100, 0b01100, .eclose⟩, ⟨0b11100, 0b10000, .dframe⟩,
   ⟨0b11110, 0b10100, .dpair⟩, ⟨0b11110, 0b10110, .dtail⟩]

/-- The vowel symbols (R60), each written to STR cell `i`. -/
def vowelRows (i : Nat) : List Row :=
  [⟨0xFF, 0x61, .symV0 i⟩, ⟨0xFF, 0x65, .symV1 i⟩, ⟨0xFF, 0x69, .symV2 i⟩, ⟨0xFF, 0x6F, .symV3 i⟩,
   ⟨0xFF, 0x75, .symV4 i⟩, ⟨0xFF, 0x79, .symV5 i⟩]

/-- The consonant symbols and the hyphen (R60), each written to STR cell `i`. -/
def consonantRows (i : Nat) : List Row :=
  [⟨0xFF, 0x62, .symC0 i⟩, ⟨0xFF, 0x63, .symC1 i⟩, ⟨0xFF, 0x64, .symC2 i⟩, ⟨0xFF, 0x66, .symC3 i⟩,
   ⟨0xFF, 0x67, .symC4 i⟩, ⟨0xFF, 0x68, .symC5 i⟩, ⟨0xFF, 0x6B, .symC6 i⟩, ⟨0xFF, 0x6C, .symC7 i⟩,
   ⟨0xFF, 0x6D, .symC8 i⟩, ⟨0xFF, 0x6E, .symC9 i⟩, ⟨0xFF, 0x70, .symC10 i⟩, ⟨0xFF, 0x72, .symC11 i⟩,
   ⟨0xFF, 0x73, .symC12 i⟩, ⟨0xFF, 0x74, .symC13 i⟩, ⟨0xFF, 0x76, .symC14 i⟩, ⟨0xFF, 0x7A, .symC15 i⟩,
   ⟨0xFF, 0x78, .symC16 i⟩, ⟨0xFF, 0x2D, .symHyphen i⟩]

/-- The 24 symbols (R60). -/
def symbolRows (i : Nat) : List Row := vowelRows i ++ consonantRows i

/-- The error codes (R73), each recording position `pos`; ERR_NONE records none. -/
def errRows (pos : Nat) : List Row :=
  [⟨0x7, 0x0, .errNone⟩, ⟨0x7, 0x1, .invalidFraming pos⟩, ⟨0x7, 0x2, .invalidLength pos⟩,
   ⟨0x7, 0x3, .invalidCharacter pos⟩, ⟨0x7, 0x4, .checksumMismatch pos⟩]

/-- The instruction of the first row that matches. -/
def matchRow (rows : List Row) (w : Nat) : Option Instr := (rows.find? (·.matches w)).map (·.instr)

/-- A command, from the value written to CTRL; every value is one, bits above bit 1 are ignored (R72). -/
def decodeCtrl (w : Nat) : Except DecodeError Instr :=
  match matchRow cmdRows w with
  | some i => .ok i
  | none => .error .wordTooWide

/-- A step operation, from the 5-bit dispatch word (R79). -/
def decodeSel (w : Nat) : Except DecodeError Instr :=
  if 32 ≤ w then .error .wordTooWide
  else match matchRow selRows w with
    | some i => .ok i
    | none => .error (if w < 4 then .noStepWhenIdle else .unreachableSelector)

/-- A symbol, from the 8-bit content of STR cell `i` (R60, R61: exact match). -/
def decodeSymbol (w i : Nat) : Except DecodeError Instr :=
  if 256 ≤ w then .error .wordTooWide
  else match matchRow (symbolRows i) w with
    | some s => .ok s
    | none => .error .notASymbol

/-- A byte pair, by the field map of R65: bits 15:14, 13:10, 9:8, 7:4, 3:0. -/
def decodePair (w : Nat) : Except DecodeError Instr :=
  if 65536 ≤ w then .error .wordTooWide
  else .ok (.pair (BitVec.ofNat 2 (w >>> 14)) (BitVec.ofNat 4 (w >>> 10)) (BitVec.ofNat 2 (w >>> 8))
    (BitVec.ofNat 4 (w >>> 4)) (BitVec.ofNat 4 w))

/-- The last byte, by the same fields as `b0` (R67): bits 7:6, 5:2, 1:0. -/
def decodeTail (w : Nat) : Except DecodeError Instr :=
  if 256 ≤ w then .error .wordTooWide
  else .ok (.byteTail (BitVec.ofNat 2 (w >>> 6)) (BitVec.ofNat 4 (w >>> 2)) (BitVec.ofNat 2 w))

/-- An error code with the position it records (R73). -/
def decodeErr (w pos : Nat) : Except DecodeError Instr :=
  if 8 ≤ w then .error .wordTooWide
  else match matchRow (errRows pos) w with
    | some i => .ok i
    | none => .error .unusedErrorCode

/-- The decoder: total on every code, rejecting by name. -/
def decode (c : Code) : Except DecodeError Instr :=
  match c.space with
  | .ctrl => decodeCtrl c.word
  | .sel => decodeSel c.word
  | .str => decodeSymbol c.word c.operand
  | .pairWord => decodePair c.word
  | .tailByte => decodeTail c.word
  | .errCode => decodeErr c.word c.operand

/-- The encoder, written from the same tables: R72, R79 (don't-care bits 0), R60, R65, R67, R73. -/
def encode : Instr → Code
  | .cmdNop => ⟨.ctrl, 0, 0⟩
  | .cmdEncode => ⟨.ctrl, 1, 0⟩
  | .cmdDecode => ⟨.ctrl, 2, 0⟩
  | .cmdRsvd => ⟨.ctrl, 3, 0⟩
  | .eopen => ⟨.sel, 0b00100, 0⟩
  | .epair => ⟨.sel, 0b01000, 0⟩
  | .etailb => ⟨.sel, 0b01011, 0⟩
  | .etailc => ⟨.sel, 0b01010, 0⟩
  | .eclose => ⟨.sel, 0b01100, 0⟩
  | .dframe => ⟨.sel, 0b10000, 0⟩
  | .dpair => ⟨.sel, 0b10100, 0⟩
  | .dtail => ⟨.sel, 0b10110, 0⟩
  | .symV0 i => ⟨.str, 97, i⟩
  | .symV1 i => ⟨.str, 101, i⟩
  | .symV2 i => ⟨.str, 105, i⟩
  | .symV3 i => ⟨.str, 111, i⟩
  | .symV4 i => ⟨.str, 117, i⟩
  | .symV5 i => ⟨.str, 121, i⟩
  | .symC0 i => ⟨.str, 98, i⟩
  | .symC1 i => ⟨.str, 99, i⟩
  | .symC2 i => ⟨.str, 100, i⟩
  | .symC3 i => ⟨.str, 102, i⟩
  | .symC4 i => ⟨.str, 103, i⟩
  | .symC5 i => ⟨.str, 104, i⟩
  | .symC6 i => ⟨.str, 107, i⟩
  | .symC7 i => ⟨.str, 108, i⟩
  | .symC8 i => ⟨.str, 109, i⟩
  | .symC9 i => ⟨.str, 110, i⟩
  | .symC10 i => ⟨.str, 112, i⟩
  | .symC11 i => ⟨.str, 114, i⟩
  | .symC12 i => ⟨.str, 115, i⟩
  | .symC13 i => ⟨.str, 116, i⟩
  | .symC14 i => ⟨.str, 118, i⟩
  | .symC15 i => ⟨.str, 122, i⟩
  | .symC16 i => ⟨.str, 120, i⟩
  | .symHyphen i => ⟨.str, 45, i⟩
  | .pair hi mid lo n1 n0 =>
    ⟨.pairWord, hi.toNat * 2 ^ 14 + mid.toNat * 2 ^ 10 + lo.toNat * 2 ^ 8 + n1.toNat * 2 ^ 4 + n0.toNat, 0⟩
  | .byteTail hi mid lo => ⟨.tailByte, hi.toNat * 2 ^ 6 + mid.toNat * 2 ^ 2 + lo.toNat, 0⟩
  | .errNone => ⟨.errCode, 0, 0⟩
  | .invalidFraming pos => ⟨.errCode, 1, pos⟩
  | .invalidLength pos => ⟨.errCode, 2, pos⟩
  | .invalidCharacter pos => ⟨.errCode, 3, pos⟩
  | .checksumMismatch pos => ⟨.errCode, 4, pos⟩

/-- The space in which a word of the opcode table is read when nothing else says it. DESIGN CHOICE (log 13): the table's
spaces overlap as bare words, so a symbol's code (with at most one bit above its 8) is a symbol, another 16-bit word is
a byte pair, a byte from 4 to 31 that the dispatch table has is a dispatch word, and every other byte is a CTRL write. -/
def tableSpace (nbits w : Nat) : Space :=
  match decodeSymbol (w % 256) 0 with
  | .ok _ => if w / 256 = 0 ∨ 2 ^ (w / 256).log2 = w / 256 then .str else if nbits ≤ 16 then .pairWord else .str
  | .error _ =>
    if 8 < nbits then .pairWord
    else match decodeSel w with
      | .ok _ => .sel
      | .error _ => .ctrl

/-- The code of a word of the opcode table: the word in its space; operand words are zeros. -/
def tableCode (nbits w : Nat) : Code :=
  match tableSpace nbits w with
  | .str => ⟨.str, w % 256, 0⟩
  | sp => ⟨sp, w, 0⟩

/-- The instruction the decoder reads from a word of the opcode table. -/
def decodeTableWord (nbits w : Nat) : Option Instr := (decode (tableCode nbits w)).toOption

end Sys2Proof
end

