-- ==== Sys2Proof/Machine/State.lean ====
section
/-! DEFINITION. The state of one block as plain data (10_state.md), the reasons a step stops, and the state after
reset. -/

namespace Sys2Proof.Machine

/-- PHASE with its six legal values (10_state.md R20; R33 (b) lets them be the type). -/
inductive Phase where
  | idle
  | encOpen
  | encBody
  | encClose
  | decFrame
  | decBody
  deriving DecidableEq, Repr

/-- The 3-bit code of PHASE (R20), used by the dispatch word only. -/
def Phase.code : Phase → Nat
  | .idle => 0
  | .encOpen => 1
  | .encBody => 2
  | .encClose => 3
  | .decFrame => 4
  | .decBody => 5

/-- MODE: 0 encode, 1 decode (R21). -/
inductive Mode where
  | encode
  | decode
  deriving DecidableEq, Repr

/-- ERR_CODE with its five legal values (R29, R73; R33 (f) lets them be the type). -/
inductive ErrCode where
  | noError
  | invalidFraming
  | invalidLength
  | invalidCharacter
  | checksumMismatch
  deriving DecidableEq, Repr

/-- The number ERR_CODE holds (R73). -/
def ErrCode.code : ErrCode → Nat
  | .noError => 0
  | .invalidFraming => 1
  | .invalidLength => 2
  | .invalidCharacter => 3
  | .checksumMismatch => 4

/-- The four kinds of decode error (60_exceptions.md R171). -/
inductive ErrorKind where
  | invalidFraming
  | invalidLength
  | invalidCharacter
  | checksumMismatch
  deriving DecidableEq, Repr

/-- The error code that records a kind (R171). -/
def ErrorKind.errCode : ErrorKind → ErrCode
  | .invalidFraming => .invalidFraming
  | .invalidLength => .invalidLength
  | .invalidCharacter => .invalidCharacter
  | .checksumMismatch => .checksumMismatch

/-- The two buffers, as a stop names them (20_memory.md R40). -/
inductive Buffer where
  | raw
  | str
  deriving DecidableEq, Repr

/-- What the outside does next: one of the six host operations (43_host_commands.md R150), the reset signal
(70_reset_and_hazards.md R196), or a turn given to the engine (log 6). -/
inductive Input where
  | engine
  | reset
  | writeRaw (i : Nat) (v : Byte)
  | readRaw (i : Nat)
  | writeStr (i : Nat) (v : Byte)
  | readStr (i : Nat)
  | writeReg (r v : Nat)
  | readReg (r : Nat)
  deriving DecidableEq, Repr

/-- The state of one block: everything 10_state.md lists, its configuration, and the host's side of the port. The
lengths, positions and K are numbers below `2^LEN_W` (log 3). -/
structure State where
  /-- `K_MAX`, `LEN_W`, `HYPHEN_SLOT` (00_scope.md R3 to R5); no step changes it. -/
  cfg : Config
  /-- `RAW` (R16): the cells that hold a value, in rising order of index. -/
  raw : List Host.Cell
  /-- `STR` (R17): the cells that hold a value, in rising order of index. -/
  str : List Host.Cell
  /-- `C`, seen by the host as CSUM (R18, R31). -/
  c : Checksum
  /-- `K`, the number of pair groups done (R19). -/
  k : Nat
  /-- `PHASE` (R20). -/
  phase : Phase
  /-- `MODE` (R21). -/
  mode : Mode
  /-- `BUSY` (R22). -/
  busy : Bool
  /-- `DONE` (R22). -/
  done : Bool
  /-- `ERR` (R22). -/
  err : Bool
  /-- `RAW_LEN` (R27). -/
  rawLen : Nat
  /-- `STR_LEN` (R28). -/
  strLen : Nat
  /-- `ERR_CODE` (R29). -/
  errCode : ErrCode
  /-- `ERR_POS` (R30). -/
  errPos : Nat
  /-- The model's own: what the outside does next, first event first (log 6). -/
  inputs : List Input
  /-- The model's own: the values handed back to the host so far, newest first (log 7). -/
  reads : List Nat
  /-- The model's own: how many free values lockout reads have drawn (log 8). -/
  draws : Nat
  /-- The model's own: how many times cells have lost their values, by reset or an error entry (log 8). -/
  losses : Nat
  deriving DecidableEq, Repr

/-- Why the machine stops with a fault. -/
inductive Fault where
  /-- A step operation forms an index outside a buffer. Raised by the engine's accesses in Machine/Ops.lean. Safe: R49 says
  it never happens, and no state that keeps the invariants of R33 reaches it (log 10). -/
  | engineIndexOutside (b : Buffer) (i : Nat)
  deriving DecidableEq, Repr

/-- Why a step is refused. -/
inductive Refusal where
  /-- An instruction without a meaning yet. Raised by an arm of `exec` only. Safe. -/
  | notModelled (mnemonic : String)
  /-- The engine reads a cell that holds no value (20_memory.md R52, U2). Raised by EPAIR, ETAILB, DFRAME, DPAIR, DTAIL.
  Safe: the spec says the model refuses it (log 9). -/
  | cellHoldsNoValue (b : Buffer) (i : Nat)
  /-- A host access to a cell at or above the capacity (R53, U5). Raised by the host operations on the buffers and
  by the symbols. Safe: the spec says the model refuses it (log 10). -/
  | noSuchCell (b : Buffer) (i : Nat)
  /-- A host access to a register above R6 (R53, U5). Raised by HostReadReg and HostWriteReg. Safe (log 10). -/
  | noSuchRegister (r : Nat)
  /-- A step operation, a data format or an error entry performed where its precondition does not hold: the spec gives it
  no effect there. Raised by their meanings; the sequencer never selects one so (R79). Safe (log 19). -/
  | notEnabled
  /-- The state breaks an invariant of R33, so it is no state of the hardware (U1, U7). Raised by the sequencer. Safe (log 5). -/
  | stateWithoutMeaning
  deriving DecidableEq, Repr

/-- The block right after reset (10_state.md R32, R195), with parameters `cfg` and nothing waiting at the port. -/
def State.resetWith (cfg : Config) : State where
  cfg := cfg
  raw := []
  str := []
  c := 1
  k := 0
  phase := .idle
  mode := .encode
  busy := false
  done := false
  err := false
  rawLen := 0
  strLen := 0
  errCode := .noError
  errPos := 0
  inputs := []
  reads := []
  draws := 0
  losses := 0

/-- The state after reset, for the parameters of `Config.hardware` (log 1). -/
def State.reset : State := State.resetWith Config.hardware

end Sys2Proof.Machine
end

