-- ==== Sys2Proof/Machine/Flags.lean ====
section
/-! DEFINITION. The flags as a host reads them, the register views and widths (10_state.md R22 to R31), and the
invariants that make a state one of the hardware's (R33). -/

namespace Sys2Proof.Machine

/-- STATUS (R26): bit 0 BUSY, bit 1 DONE, bit 2 ERR, bit 3 MODE. -/
def State.status (s : State) : Nat :=
  s.busy.toNat + 2 * s.done.toNat + 4 * s.err.toNat + 8 * (if s.mode = .decode then 1 else 0)

/-- The width in bits of register `r` (R24). -/
def regWidth (cfg : Config) (r : Nat) : Nat :=
  match r with
  | 0 => 2
  | 1 => 4
  | 2 => cfg.lenW
  | 3 => cfg.lenW
  | 4 => 3
  | 5 => cfg.lenW
  | 6 => 6
  | _ => 0

/-- What an idle host reads from register `r` (R25 to R31); CTRL reads 0. -/
def State.regView (s : State) (r : Nat) : Nat :=
  match r with
  | 1 => s.status
  | 2 => s.rawLen
  | 3 => s.strLen
  | 4 => s.errCode.code
  | 5 => s.errPos
  | 6 => s.c.val
  | _ => 0

/-- `KT`, the number of pair groups of the operation (R79): from STR_LEN when decoding, from RAW_LEN otherwise. Where R79 says
don't care the value is the model's (DEDUCED, log 25). With STR_LEN below 5 the spec forms no `STR_LEN - 5` (00_scope.md R6,
40_checksum.md R93); here the subtraction is the natural numbers' and gives 0, in DEC_BODY too (DESIGN CHOICE, log 28). -/
def State.kt (s : State) : Nat :=
  match s.phase with
  | .decFrame | .decBody => (s.strLen - 5) / 6
  | _ => s.rawLen / 2

/-- R33 (c) to (h); (a), (b) and the bound of (f) are in the types. A state that breaks it is no state of the
hardware (U1). In DEC_BODY with STR_LEN below 5, where the spec forms no `KT`, it admits `K = 0` (DESIGN CHOICE, log 28). -/
abbrev State.Coherent (s : State) : Prop :=
  (s.busy = true ↔ s.phase ≠ .idle) ∧
  ¬ (s.busy = true ∧ s.done = true) ∧
  (s.err = true → s.done = true ∧ s.mode = .decode) ∧
  (s.err = true ↔ s.errCode ≠ .noError) ∧
  (s.rawLen ≤ s.cfg.rawCap ∧ s.strLen ≤ s.cfg.strCap) ∧
  ((s.phase = .encBody ∨ s.phase = .decBody) → s.k ≤ s.kt ∧ s.kt ≤ s.cfg.kMax)

end Sys2Proof.Machine
end

