-- ==== Sys2Proof/Machine/Memory.lean ====
section
/-! DEFINITION. A buffer's contents: the cells that hold a value, as (index, byte) pairs in rising order of index. -/

namespace Sys2Proof.Machine

/-- What a cell reads as that is not listed: it holds no value (10_state.md R32, 20_memory.md R52). -/
def Memory.unlisted : Option Byte := none

/-- The content of cell `a`. -/
def Memory.read (m : List Host.Cell) (a : Nat) : Option Byte :=
  match m with
  | [] => Memory.unlisted
  | (b, v) :: rest => if a = b then some v else Memory.read rest a

/-- Store `v` in cell `a`, keeping the order of indices. -/
def Memory.write (m : List Host.Cell) (a : Nat) (v : Byte) : List Host.Cell :=
  match m with
  | [] => [(a, v)]
  | (b, w) :: rest =>
    if a < b then (a, v) :: (b, w) :: rest
    else if a = b then (a, v) :: rest
    else (b, w) :: Memory.write rest a v

/-- Store several cells, first to last. -/
def Memory.writeAll (m : List Host.Cell) (cells : List Host.Cell) : List Host.Cell :=
  cells.foldl (fun acc cell => Memory.write acc cell.1 cell.2) m

/-- The cells below index `n` hold no value from here on (60_exceptions.md R178, U4). -/
def Memory.forgetBelow (m : List Host.Cell) (n : Nat) : List Host.Cell :=
  m.filter fun cell => decide (n ≤ cell.1)

/-- The canonical form: indices strictly rising. (An unlisted cell holds no value, so no entry can equal it.) -/
def Memory.wf : List Host.Cell → Bool
  | [] => true
  | [_] => true
  | (a, _) :: (b, v) :: rest => decide (a < b) && Memory.wf ((b, v) :: rest)

/-- Every listed index is below the buffer's capacity. -/
def Memory.within (cap : Nat) (m : List Host.Cell) : Bool := m.all fun cell => decide (cell.1 < cap)

end Sys2Proof.Machine
end

