-- ==== Sys2Proof/Machine/Alphabet.lean ====
section
/-! DEFINITION. The two constant tables (10_state.md R14, R15) and the lookups by character (30_encoding.md R61). The numeric
codes are R60's, which the spec itself marks as general knowledge (PRESUMED, log 26). -/

namespace Sys2Proof.Machine

/-- `VOWEL` (R14), index 0 to 5, as ASCII codes (R60): a e i o u y. -/
def vowelTable : Vector Byte 6 := #v[0x61, 0x65, 0x69, 0x6F, 0x75, 0x79]

/-- `CONS` (R15), index 0 to 16, as ASCII codes (R60): b c d f g h k l m n p r s t v z x. -/
def consTable : Vector Byte 17 :=
  #v[0x62, 0x63, 0x64, 0x66, 0x67, 0x68, 0x6B, 0x6C, 0x6D, 0x6E, 0x70, 0x72, 0x73, 0x74, 0x76, 0x7A, 0x78]

/-- `VOWEL[i]` (R14). -/
def vowel (i : Fin 6) : Byte := vowelTable[i]

/-- `CONS[i]` (R15); index 16 is the frame delimiter. -/
def cons (i : Fin 17) : Byte := consTable[i]

/-- The frame delimiter `'x'` (R15, R60). -/
def delimiter : Byte := 0x78

/-- The hyphen `'-'` (R60). -/
def hyphen : Byte := 0x2D

/-- `CONS` at a 4-bit index: a data consonant (R15, R63 class D). -/
def dataCons (i : BitVec 4) : Byte := cons ⟨i.toNat, by have := i.isLt; omega⟩

/-- `vidx(ch)`: the vowel index of a character (R61). -/
def vidx (ch : Byte) : Option (Fin 6) :=
  [0, 1, 2, 3, 4, 5].find? fun i => vowel i == ch

/-- `midx(ch)`: the consonant index of a character, 0 to 16 (R61). -/
def midx (ch : Byte) : Option (Fin 17) :=
  [0, 1, 2, 3, 4, 5, 6, 7, 8, 9, 10, 11, 12, 13, 14, 15, 16].find? fun i => cons i == ch

/-- `didx(ch)`: `midx(ch)` where that is at most 15 (R61); the delimiter has none. -/
def didx (ch : Byte) : Option (BitVec 4) :=
  match midx ch with
  | some i => if i.val ≤ 15 then some (BitVec.ofNat 4 i.val) else none
  | none => none

end Sys2Proof.Machine
end

