-- ==== Sys2Proof/Machine/Checksum.lean ====
section
/-! DEFINITION. The checksum accumulator's three functions (40_checksum.md R90 to R92). -/

namespace Sys2Proof.Machine

/-- CKINIT: the start value (R90). -/
def ckInit : Checksum := 1

/-- CKUPD: fold one byte pair into the checksum (R91), exact and then reduced (R93). -/
def ckUpd (c : Checksum) (b0 b1 : Byte) : Checksum :=
  ⟨(c.val * 5 + b0.toNat * 7 + b1.toNat) % 36, Nat.mod_lt _ (by decide)⟩

/-- CKOFF, `off_hi = C mod 6` (R92). -/
def ckOffHi (c : Checksum) : Nat := c.val % 6

/-- CKOFF, `off_lo = C div 6` (R92). -/
def ckOffLo (c : Checksum) : Nat := c.val / 6

end Sys2Proof.Machine
end

