-- ==== Sys2Proof/Machine/Operands.lean ====
section
/-! DEFINITION. The fields of bytes, the letters they become under a checksum, their assembly back, and where the
letters stand in the string (30_encoding.md R64 to R71, 20_memory.md R47). -/

namespace Sys2Proof.Machine

/-- `b[7:6]` (R65). -/
def hiField (b : Byte) : BitVec 2 := b.extractLsb' 6 2

/-- `b[5:2]` (R65). -/
def midField (b : Byte) : BitVec 4 := b.extractLsb' 2 4

/-- `b[1:0]` (R65). -/
def loField (b : Byte) : BitVec 2 := b.extractLsb' 0 2

/-- `b[7:4]`, the upper nibble (R65). -/
def upperNibble (b : Byte) : BitVec 4 := b.extractLsb' 4 4

/-- `b[3:0]`, the lower nibble (R65). -/
def lowerNibble (b : Byte) : BitVec 4 := b.extractLsb' 0 4

/-- `(hi << 6) | (i1 << 2) | lo` (R70). -/
def joinFields (hi : BitVec 2) (mid : BitVec 4) (lo : BitVec 2) : Byte := hi ++ mid ++ lo

/-- `(i3 << 4) | i4` (R71). -/
def joinNibbles (n1 n0 : BitVec 4) : Byte := n1 ++ n0

/-- `i0 = (hi + C) mod 6` (R64). -/
def highIndex (c : Checksum) (hi : BitVec 2) : Fin 6 := ⟨(hi.toNat + c.val) % 6, Nat.mod_lt _ (by decide)⟩

/-- `i2 = (lo + C div 6) mod 6` (R64). -/
def lowIndex (c : Checksum) (lo : BitVec 2) : Fin 6 := ⟨(lo.toNat + ckOffLo c) % 6, Nat.mod_lt _ (by decide)⟩

/-- `(i - off) mod 6` with the non-negative remainder of 00_scope.md R6: the integers of the rule, then `mod`. -/
def removeOffset (i : Fin 6) (off : Nat) : Nat := (((i.val : Int) - (off : Int)) % 6).toNat

/-- `hi = (i0 - C mod 6) mod 6`, before its range check (R70). -/
def rawHigh (c : Checksum) (i0 : Fin 6) : Nat := removeOffset i0 (ckOffHi c)

/-- `lo = (i2 - C div 6) mod 6`, before its range check (R70). -/
def rawLow (c : Checksum) (i2 : Fin 6) : Nat := removeOffset i2 (ckOffLo c)

/-- The range check and 3-way assembly (42_decoder.md R125): `hi` is checked before `lo`; the error names the offset of the
vowel whose field is out of range, and is a ChecksumMismatch. -/
def assemble (c : Checksum) (i0 : Fin 6) (i1 : BitVec 4) (i2 : Fin 6) (p0 p2 : Nat) : Except Nat Byte :=
  if 4 ≤ rawHigh c i0 then .error p0
  else if 4 ≤ rawLow c i2 then .error p2
  else .ok (joinFields (BitVec.ofNat 2 (rawHigh c i0)) i1 (BitVec.ofNat 2 (rawLow c i2)))

/-- `so(j)`: the offset of letter `j` inside its pair group (R66). -/
def letterOffset (cfg : Config) (j : Nat) : Nat :=
  if j < cfg.hyphenSlot.offset then j else j + 1

/-- The string offset of pair group `k` (20_memory.md R47). -/
def groupStart (k : Nat) : Nat := 1 + 6 * k

/-- The string offset of letter `j` of pair group `k` (R47, R66). -/
def letterAt (cfg : Config) (k j : Nat) : Nat := groupStart k + letterOffset cfg j

/-- The string offset of the hyphen of pair group `k` (R47). -/
def hyphenAt (cfg : Config) (k : Nat) : Nat := groupStart k + cfg.hyphenSlot.offset

/-- What EPAIR stores for pair group `k`: five letters and the hyphen, each with its offset, in the order of R103. -/
def groupCells (cfg : Config) (k : Nat) (c : Checksum) (hi : BitVec 2) (mid : BitVec 4) (lo : BitVec 2)
    (n1 n0 : BitVec 4) : List Host.Cell :=
  [(letterAt cfg k 0, vowel (highIndex c hi)), (letterAt cfg k 1, dataCons mid),
   (letterAt cfg k 2, vowel (lowIndex c lo)), (letterAt cfg k 3, dataCons n1),
   (hyphenAt cfg k, hyphen), (letterAt cfg k 4, dataCons n0)]

/-- What a byte tail stores at `T`, `T+1`, `T+2` (R67). -/
def byteTailCells (t : Nat) (c : Checksum) (hi : BitVec 2) (mid : BitVec 4) (lo : BitVec 2) : List Host.Cell :=
  [(t, vowel (highIndex c hi)), (t + 1, dataCons mid), (t + 2, vowel (lowIndex c lo))]

/-- The vowel `VOWEL[C mod 6]` of a checksum tail (R68). -/
def tailHighIndex (c : Checksum) : Fin 6 := ⟨ckOffHi c, Nat.mod_lt _ (by decide)⟩

/-- The vowel `VOWEL[C div 6]` of a checksum tail (R68). -/
def tailLowIndex (c : Checksum) : Fin 6 := ⟨ckOffLo c, by have := c.isLt; unfold ckOffLo; omega⟩

/-- What a checksum tail stores at `T`, `T+1`, `T+2` (R68). -/
def checksumTailCells (t : Nat) (c : Checksum) : List Host.Cell :=
  [(t, vowel (tailHighIndex c)), (t + 1, cons 16), (t + 2, vowel (tailLowIndex c))]

end Sys2Proof.Machine
end

