-- ==== Sys2Proof/Machine/Ops.lean ====
section
/-! DEFINITION. The named operations over buffers and registers: the engine's reads and writes, the error entry and
its clearing, the acceptance and the end of an operation, the decoder's lookups. -/

namespace Sys2Proof.Machine

/-- The outcome of a meaning. -/
abbrev Result := Host.Outcome State Fault Refusal

/-- A decode error with the position it reports (R171). -/
abbrev Failure := ErrorKind × Nat

/-- Why a step operation leaves its pseudocode before the end. -/
inductive Stop where
  /-- `raise Kind(pos)` (00_scope.md R10). -/
  | raise (f : Failure)
  | refuse (r : Refusal)
  | fault (r : Fault)
  deriving DecidableEq, Repr

/-- The error entry `raise Kind(pos)` (60_exceptions.md R178): what it records and, besides, that `RAW[0 .. 2K-1]`
hold no value from here on. `C`, `K`, `MODE`, `STR` and `STR_LEN` are kept. -/
def raiseError (kind : ErrorKind) (pos : Nat) (s : State) : State :=
  { s with
    errCode := kind.errCode
    errPos := pos
    rawLen := 0
    err := true
    done := true
    busy := false
    phase := .idle
    raw := Memory.forgetBelow s.raw (2 * s.k)
    losses := s.losses + 1 }

/-- `ERR <- 0 ; ERR_CODE <- 0 ; ERR_POS <- 0`: there is no return from an error, the next accepted command clears it
(R180, R153). -/
def clearError (s : State) : State := { s with err := false, errCode := .noError, errPos := 0 }

/-- An accepted command (43_host_commands.md R153, R154). -/
def acceptCommand (mode : Mode) (phase : Phase) (s : State) : State :=
  { clearError s with mode := mode, done := false, busy := true, phase := phase }

/-- The end of an operation without error: `PHASE <- IDLE ; BUSY <- 0 ; DONE <- 1` (R107, R128). -/
def endOperation (s : State) : State := { s with phase := .idle, busy := false, done := true }

/-- How a step operation ends, given the state an error would be raised in. -/
def settle (s : State) (r : Except Stop State) : Result :=
  match r with
  | .ok t => .next t
  | .error (.raise f) => .next (raiseError f.1 f.2 s)
  | .error (.refuse r) => .refused r
  | .error (.fault r) => .fault r

/-- A step operation is performed only where its precondition holds; the spec gives it no effect elsewhere (DEDUCED, log 19). -/
def whenEnabled (p : Prop) [Decidable p] (r : Result) : Result := if p then r else .refused .notEnabled

/-- The engine reads `RAW[i]` (20_memory.md R47); a cell that holds no value is refused (R52, U2). -/
def readRaw (i : Nat) (s : State) : Except Stop Byte :=
  if s.cfg.rawCap ≤ i then .error (.fault (.engineIndexOutside .raw i))
  else match Memory.read s.raw i with
    | some v => .ok v
    | none => .error (.refuse (.cellHoldsNoValue .raw i))

/-- The engine reads `STR[i]`, the same. -/
def readStr (i : Nat) (s : State) : Except Stop Byte :=
  if s.cfg.strCap ≤ i then .error (.fault (.engineIndexOutside .str i))
  else match Memory.read s.str i with
    | some v => .ok v
    | none => .error (.refuse (.cellHoldsNoValue .str i))

/-- The first of the cells that lies at or above a capacity. -/
def firstOutside (cap : Nat) (cells : List Host.Cell) : Option Nat :=
  (cells.find? fun cell => decide (cap ≤ cell.1)).map (·.1)

/-- The engine writes cells of `RAW`. -/
def storeRaw (cells : List Host.Cell) (s : State) : Except Stop State :=
  match firstOutside s.cfg.rawCap cells with
  | some i => .error (.fault (.engineIndexOutside .raw i))
  | none => .ok { s with raw := Memory.writeAll s.raw cells }

/-- The engine writes cells of `STR`. -/
def storeStr (cells : List Host.Cell) (s : State) : Except Stop State :=
  match firstOutside s.cfg.strCap cells with
  | some i => .error (.fault (.engineIndexOutside .str i))
  | none => .ok { s with str := Memory.writeAll s.str cells }

/-- V-slot lookup of a character at offset `p` (42_decoder.md R122). -/
def vowelOf (p : Nat) (ch : Byte) : Except Failure (Fin 6) :=
  match vidx ch with
  | some i => .ok i
  | none => .error (.invalidCharacter, p)

/-- D-slot lookup of a character at offset `p` (R123). -/
def dataOf (p : Nat) (ch : Byte) : Except Failure (BitVec 4) :=
  match didx ch with
  | some i => .ok i
  | none => .error (.invalidCharacter, p)

/-- M-slot lookup of a character at offset `p` (R124). -/
def middleOf (p : Nat) (ch : Byte) : Except Failure (Fin 17) :=
  match midx ch with
  | some i => .ok i
  | none => .error (.invalidCharacter, p)

/-- `assemble`, its failure raised as ChecksumMismatch (R125). -/
def assembleOf (c : Checksum) (i0 : Fin 6) (i1 : BitVec 4) (i2 : Fin 6) (p0 p2 : Nat) : Except Failure Byte :=
  match assemble c i0 i1 i2 p0 p2 with
  | .ok b => .ok b
  | .error p => .error (.checksumMismatch, p)

/-- A failing lookup or range check inside a step operation raises its error. -/
def orRaise {α : Type} (r : Except Failure α) : Except Stop α :=
  match r with
  | .ok a => .ok a
  | .error f => .error (.raise f)

/-- Read the V slot at offset `p` of the string and look it up. -/
def lookupV (p : Nat) (s : State) : Except Stop (Fin 6) := do
  let ch ← readStr p s
  orRaise (vowelOf p ch)

/-- Read the D slot at offset `p` of the string and look it up. -/
def lookupD (p : Nat) (s : State) : Except Stop (BitVec 4) := do
  let ch ← readStr p s
  orRaise (dataOf p ch)

/-- Read the M slot at offset `p` of the string and look it up. -/
def lookupM (p : Nat) (s : State) : Except Stop (Fin 17) := do
  let ch ← readStr p s
  orRaise (middleOf p ch)

/-- Read an X slot at offset `p`: anything but the delimiter raises InvalidFraming there (R121, R173). -/
def expectDelimiter (p : Nat) (s : State) : Except Stop Unit := do
  let ch ← readStr p s
  if ch = delimiter then .ok () else .error (.raise (.invalidFraming, p))

end Sys2Proof.Machine
end

