-- ==== Sys2Proof/Machine/Commands.lean ====
section
/-! DEFINITION. The four commands, writes to CTRL (43_host_commands.md R152 to R156). -/

namespace Sys2Proof.Machine

/-- CMD_NOP (R152): no state changes. -/
def execCmdNop (s : State) : Result := .next s

/-- CMD_ENCODE (R153): accepted when `BUSY = 0`, ignored otherwise (R156). -/
def execCmdEncode (s : State) : Result :=
  if s.busy then .next s else .next (acceptCommand .encode .encOpen s)

/-- CMD_DECODE (R154): accepted when `BUSY = 0`, ignored otherwise (R156). -/
def execCmdDecode (s : State) : Result :=
  if s.busy then .next s else .next (acceptCommand .decode .decFrame s)

/-- CMD_RSVD (R155): behaves as CMD_NOP in every state (DESIGN CHOICE between R155's two, log 18). -/
def execCmdRsvd (s : State) : Result := .next s

end Sys2Proof.Machine
end

