-- ==== Sys2Proof/Machine/Decoder.lean ====
section
/-! DEFINITION. The decoder's three step operations (42_decoder.md R121, R127, R128). The hyphen slot is never read (R126). -/

namespace Sys2Proof.Machine

/-- DFRAME (R121): length before framing, the leading delimiter before the closing one (R132). -/
def execDframe (s : State) : Result :=
  whenEnabled (s.phase = .decFrame) <|
    let t := { s with c := ckInit, k := 0 }
    settle t do
      if s.strLen % 6 ≠ 5 then .error (.raise (.invalidLength, s.strLen))
      expectDelimiter 0 t
      expectDelimiter (s.strLen - 1) t
      .ok { t with phase := .decBody }

/-- The two bytes of pair group `K`: the lookup pass over all five letters, then the field pass (R127). -/
def decodeGroup (s : State) : Except Stop (Byte × Byte) := do
  let i0 ← lookupV (letterAt s.cfg s.k 0) s
  let i1 ← lookupD (letterAt s.cfg s.k 1) s
  let i2 ← lookupV (letterAt s.cfg s.k 2) s
  let i3 ← lookupD (letterAt s.cfg s.k 3) s
  let i4 ← lookupD (letterAt s.cfg s.k 4) s
  let b0 ← orRaise (assembleOf s.c i0 i1 i2 (letterAt s.cfg s.k 0) (letterAt s.cfg s.k 2))
  .ok (b0, joinNibbles i3 i4)

/-- DPAIR (R127). -/
def execDpair (s : State) : Result :=
  whenEnabled (s.phase = .decBody ∧ s.k < (s.strLen - 5) / 6) <| settle s do
    let b ← decodeGroup s
    let t ← storeRaw [(2 * s.k, b.1), (2 * s.k + 1, b.2)] s
    .ok { t with c := ckUpd s.c b.1 b.2, k := s.k + 1 }

/-- The tail at offset `T`: `none` for a checksum tail that matches `C`, the last byte for a byte tail (R128). -/
def tailOf (c : Checksum) (t : Nat) (i0 : Fin 6) (i1 : Fin 17) (i2 : Fin 6) : Except Failure (Option Byte) :=
  if i1 = 16 then
    if i0.val ≠ ckOffHi c then .error (.checksumMismatch, t)
    else if i2.val ≠ ckOffLo c then .error (.checksumMismatch, t + 2)
    else .ok none
  else
    match assembleOf c i0 (BitVec.ofNat 4 i1.val) i2 t (t + 2) with
    | .ok b => .ok (some b)
    | .error f => .error f

/-- DTAIL (R128). With STR_LEN below 5, which no run reaches here, it is enabled at `K = 0` (DESIGN CHOICE, log 28). -/
def execDtail (s : State) : Result :=
  whenEnabled (s.phase = .decBody ∧ s.k = (s.strLen - 5) / 6) <| settle s do
    let i0 ← lookupV (groupStart s.k) s
    let i1 ← lookupM (groupStart s.k + 1) s
    let i2 ← lookupV (groupStart s.k + 2) s
    let last ← orRaise (tailOf s.c (groupStart s.k) i0 i1 i2)
    match last with
    | none => .ok (endOperation { s with rawLen := 2 * s.k })
    | some b0 => do
      let t ← storeRaw [(2 * s.k, b0)] s
      .ok (endOperation { t with rawLen := 2 * s.k + 1 })

end Sys2Proof.Machine
end

