-- ==== Sys2Proof/Machine/Encoder.lean ====
section
/-! DEFINITION. The encoder's five step operations (41_encoder.md R102 to R107). None of them can raise an error (R181). -/

namespace Sys2Proof.Machine

/-- EOPEN (R102). -/
def execEopen (s : State) : Result :=
  whenEnabled (s.phase = .encOpen) <| settle s do
    let t ← storeStr [(0, delimiter)] s
    .ok { t with c := ckInit, k := 0, phase := .encBody }

/-- EPAIR (R103): the letters are formed from the old `C`, the update comes last. -/
def execEpair (s : State) : Result :=
  whenEnabled (s.phase = .encBody ∧ s.k < s.rawLen / 2) <| settle s do
    let b0 ← readRaw (2 * s.k) s
    let b1 ← readRaw (2 * s.k + 1) s
    let t ← storeStr (groupCells s.cfg s.k s.c (hiField b0) (midField b0) (loField b0) (upperNibble b1) (lowerNibble b1)) s
    .ok { t with c := ckUpd s.c b0 b1, k := s.k + 1 }

/-- ETAILB (R104). -/
def execEtailb (s : State) : Result :=
  whenEnabled (s.phase = .encBody ∧ s.k = s.rawLen / 2 ∧ s.rawLen % 2 = 1) <| settle s do
    let b0 ← readRaw (2 * s.k) s
    let t ← storeStr (byteTailCells (groupStart s.k) s.c (hiField b0) (midField b0) (loField b0)) s
    .ok { t with phase := .encClose }

/-- ETAILC (R105): no cell of `RAW` is read. -/
def execEtailc (s : State) : Result :=
  whenEnabled (s.phase = .encBody ∧ s.k = s.rawLen / 2 ∧ s.rawLen % 2 = 0) <| settle s do
    let t ← storeStr (checksumTailCells (groupStart s.k) s.c) s
    .ok { t with phase := .encClose }

/-- ECLOSE (R107). -/
def execEclose (s : State) : Result :=
  whenEnabled (s.phase = .encClose) <| settle s do
    let t ← storeStr [(6 * s.k + 4, delimiter)] s
    .ok (endOperation { t with strLen := 6 * s.k + 5 })

end Sys2Proof.Machine
end

