-- ==== Sys2Proof/Machine/Errors.lean ====
section
/-! DEFINITION. The error codes (60_exceptions.md R171 to R176): recording one is the error entry R178, in the phase whose
step operation raises it; recording none is what an accepted command does first (R153, R180; DESIGN CHOICE, log 16). -/

namespace Sys2Proof.Machine

/-- ERR_NONE (R73, R29, R180): ERR, ERR_CODE and ERR_POS are cleared. -/
def execErrNone (s : State) : Result := .next (clearError s)

/-- InvalidFraming(pos), raised by DFRAME (R173). -/
def execInvalidFraming (pos : Nat) (s : State) : Result :=
  whenEnabled (s.phase = .decFrame) (.next (raiseError .invalidFraming pos s))

/-- InvalidLength(pos), raised by DFRAME (R172). -/
def execInvalidLength (pos : Nat) (s : State) : Result :=
  whenEnabled (s.phase = .decFrame) (.next (raiseError .invalidLength pos s))

/-- InvalidCharacter(pos), raised by DPAIR and DTAIL (R174). -/
def execInvalidCharacter (pos : Nat) (s : State) : Result :=
  whenEnabled (s.phase = .decBody) (.next (raiseError .invalidCharacter pos s))

/-- ChecksumMismatch(pos), raised by DPAIR and DTAIL (R175, R176). -/
def execChecksumMismatch (pos : Nat) (s : State) : Result :=
  whenEnabled (s.phase = .decBody) (.next (raiseError .checksumMismatch pos s))

end Sys2Proof.Machine
end

