-- ==== Sys2Proof/Machine/Formats.lean ====
section
/-! DEFINITION. The two data formats (30_encoding.md R64, R67): the bytes become letters in the string under the checksum.
The step operations that find the bytes in `RAW` and go on from there are EPAIR and ETAILB (DESIGN CHOICE, log 15). -/

namespace Sys2Proof.Machine

/-- PAIR (R64): the five letters and the hyphen of pair group `K` under `C`, where EPAIR is enabled. -/
def execPair (hi : BitVec 2) (mid : BitVec 4) (lo : BitVec 2) (n1 n0 : BitVec 4) (s : State) : Result :=
  whenEnabled (s.phase = .encBody ∧ s.k < s.rawLen / 2) <|
    settle s (storeStr (groupCells s.cfg s.k s.c hi mid lo n1 n0) s)

/-- BYTE_TAIL (R67): the three letters of the tail under `C`, where ETAILB is enabled. -/
def execByteTail (hi : BitVec 2) (mid : BitVec 4) (lo : BitVec 2) (s : State) : Result :=
  whenEnabled (s.phase = .encBody ∧ s.k = s.rawLen / 2 ∧ s.rawLen % 2 = 1) <|
    settle s (storeStr (byteTailCells (groupStart s.k) s.c hi mid lo) s)

end Sys2Proof.Machine
end

