-- ==== Sys2Proof/Machine/HostPort.lean ====
section
/-! DEFINITION. The host operations of 43_host_commands.md R150, but for the write to CTRL (Commands.lean), and the reset
signal. A read hands a value back to the host and changes nothing of the block (20_memory.md R46). -/

namespace Sys2Proof.Machine

/-- The host is handed `v`. -/
def answer (v : Nat) (s : State) : State := { s with reads := v :: s.reads }

/-- During lockout the host is handed an unspecified value of `width` bits (U3): a fresh draw, of which nothing is known (log 8). -/
def answerFree (width : Nat) (s : State) : State :=
  { s with reads := Config.freeValue s.draws % 2 ^ width :: s.reads, draws := s.draws + 1 }

/-- HostWriteRaw: ignored during lockout (20_memory.md R50); an index at or above the capacity addresses nothing (R53), also
during lockout (DEDUCED, log 27). -/
def hostWriteRaw (i : Nat) (v : Byte) (s : State) : Result :=
  if s.cfg.rawCap ≤ i then .refused (.noSuchCell .raw i)
  else if s.busy then .next s
  else .next { s with raw := Memory.write s.raw i v }

/-- HostWriteStr, the same. -/
def hostWriteStr (i : Nat) (v : Byte) (s : State) : Result :=
  if s.cfg.strCap ≤ i then .refused (.noSuchCell .str i)
  else if s.busy then .next s
  else .next { s with str := Memory.write s.str i v }

/-- What a host read of a cell answers: during lockout a fresh free value (R50, U3); else the cell's value, or for a cell that
holds none a free value that stays until cells lose their values again, so that two reads agree (R46, R52, log 8). -/
def answerCell (s : State) (cell : Option Byte) (free : Byte) : State :=
  if s.busy then answerFree 8 s else answer (cell.getD free).toNat s

/-- HostReadRaw. -/
def hostReadRaw (i : Nat) (s : State) : Result :=
  if s.cfg.rawCap ≤ i then .refused (.noSuchCell .raw i)
  else .next (answerCell s (Memory.read s.raw i) (Config.freeRawCell i s.losses))

/-- HostReadStr. -/
def hostReadStr (i : Nat) (s : State) : Result :=
  if s.cfg.strCap ≤ i then .refused (.noSuchCell .str i)
  else .next (answerCell s (Memory.read s.str i) (Config.freeStrCell i s.losses))

/-- HostReadReg: STATUS is exact in every state, any other register unspecified during lockout (R150); a number above
6 addresses nothing (R53). CTRL too reads as an unspecified value during lockout (DEDUCED, log 12). -/
def hostReadReg (r : Nat) (s : State) : Result :=
  if 6 < r then .refused (.noSuchRegister r)
  else if s.busy = true ∧ r ≠ 1 then .next (answerFree (regWidth s.cfg r) s)
  else .next (answer (s.regView r) s)

/-- HostWriteReg to a register other than CTRL (R157): the lengths take a value up to their buffer's capacity, every
other write is ignored. Bits above the register's width are ignored first (10_state.md R24; DEDUCED, log 11). -/
def hostWriteReg (r v : Nat) (s : State) : Result :=
  if 6 < r then .refused (.noSuchRegister r)
  else if s.busy then .next s
  else
    let w := v % 2 ^ regWidth s.cfg r
    if r = 2 ∧ w ≤ s.cfg.rawCap then .next { s with rawLen := w }
    else if r = 3 ∧ w ≤ s.cfg.strCap then .next { s with strLen := w }
    else .next s

/-- The reset signal (70_reset_and_hazards.md R195, R196): every piece of the block's state takes its reset value, in any
state; the parameters and the host's side of the port are not the block's (log 20). Every cell has lost its value. -/
def resetBlock (s : State) : State :=
  { State.resetWith s.cfg with inputs := s.inputs, reads := s.reads, draws := s.draws,
                               losses := s.losses + 1 }

end Sys2Proof.Machine
end

