-- ==== Sys2Proof/Machine/Symbols.lean ====
section
/-! DEFINITION. The 24 symbols (30_encoding.md R60): the host stores a symbol's code in a cell of `STR`. The engine writes and
reads them inside its step operations. (Codes that are no symbol are stored by HostWriteStr just so; DESIGN CHOICE, log 14.) -/

namespace Sys2Proof.Machine

/-- `VOWEL[0] = 'a'` (R14) to STR cell `i`. -/
def execSymV0 (i : Nat) (s : State) : Result := hostWriteStr i (vowel 0) s

/-- `VOWEL[1] = 'e'` (R14) to STR cell `i`. -/
def execSymV1 (i : Nat) (s : State) : Result := hostWriteStr i (vowel 1) s

/-- `VOWEL[2] = 'i'` (R14) to STR cell `i`. -/
def execSymV2 (i : Nat) (s : State) : Result := hostWriteStr i (vowel 2) s

/-- `VOWEL[3] = 'o'` (R14) to STR cell `i`. -/
def execSymV3 (i : Nat) (s : State) : Result := hostWriteStr i (vowel 3) s

/-- `VOWEL[4] = 'u'` (R14) to STR cell `i`. -/
def execSymV4 (i : Nat) (s : State) : Result := hostWriteStr i (vowel 4) s

/-- `VOWEL[5] = 'y'` (R14) to STR cell `i`. -/
def execSymV5 (i : Nat) (s : State) : Result := hostWriteStr i (vowel 5) s

/-- `CONS[0] = 'b'` (R15) to STR cell `i`. -/
def execSymC0 (i : Nat) (s : State) : Result := hostWriteStr i (cons 0) s

/-- `CONS[1] = 'c'` (R15) to STR cell `i`. -/
def execSymC1 (i : Nat) (s : State) : Result := hostWriteStr i (cons 1) s

/-- `CONS[2] = 'd'` (R15) to STR cell `i`. -/
def execSymC2 (i : Nat) (s : State) : Result := hostWriteStr i (cons 2) s

/-- `CONS[3] = 'f'` (R15) to STR cell `i`. -/
def execSymC3 (i : Nat) (s : State) : Result := hostWriteStr i (cons 3) s

/-- `CONS[4] = 'g'` (R15) to STR cell `i`. -/
def execSymC4 (i : Nat) (s : State) : Result := hostWriteStr i (cons 4) s

/-- `CONS[5] = 'h'` (R15) to STR cell `i`. -/
def execSymC5 (i : Nat) (s : State) : Result := hostWriteStr i (cons 5) s

/-- `CONS[6] = 'k'` (R15) to STR cell `i`. -/
def execSymC6 (i : Nat) (s : State) : Result := hostWriteStr i (cons 6) s

/-- `CONS[7] = 'l'` (R15) to STR cell `i`. -/
def execSymC7 (i : Nat) (s : State) : Result := hostWriteStr i (cons 7) s

/-- `CONS[8] = 'm'` (R15) to STR cell `i`. -/
def execSymC8 (i : Nat) (s : State) : Result := hostWriteStr i (cons 8) s

/-- `CONS[9] = 'n'` (R15) to STR cell `i`. -/
def execSymC9 (i : Nat) (s : State) : Result := hostWriteStr i (cons 9) s

/-- `CONS[10] = 'p'` (R15) to STR cell `i`. -/
def execSymC10 (i : Nat) (s : State) : Result := hostWriteStr i (cons 10) s

/-- `CONS[11] = 'r'` (R15) to STR cell `i`. -/
def execSymC11 (i : Nat) (s : State) : Result := hostWriteStr i (cons 11) s

/-- `CONS[12] = 's'` (R15) to STR cell `i`. -/
def execSymC12 (i : Nat) (s : State) : Result := hostWriteStr i (cons 12) s

/-- `CONS[13] = 't'` (R15) to STR cell `i`. -/
def execSymC13 (i : Nat) (s : State) : Result := hostWriteStr i (cons 13) s

/-- `CONS[14] = 'v'` (R15) to STR cell `i`. -/
def execSymC14 (i : Nat) (s : State) : Result := hostWriteStr i (cons 14) s

/-- `CONS[15] = 'z'` (R15) to STR cell `i`. -/
def execSymC15 (i : Nat) (s : State) : Result := hostWriteStr i (cons 15) s

/-- `CONS[16] = 'x'` (R15) to STR cell `i`. -/
def execSymC16 (i : Nat) (s : State) : Result := hostWriteStr i (cons 16) s

/-- The hyphen `'-'` (R60) to STR cell `i`. -/
def execSymHyphen (i : Nat) (s : State) : Result := hostWriteStr i hyphen s

end Sys2Proof.Machine
end

