-- ==== Sys2Proof/Machine/Dispatch.lean ====
section
/-! DEFINITION. exec: one arm per constructor of Instr, each one call of that instruction's meaning. -/

namespace Sys2Proof.Machine

def exec (i : Instr) (s : State) : Host.Outcome State Fault Refusal :=
  match i with
  | .cmdNop => Sys2Proof.Machine.execCmdNop s
  | .cmdEncode => Sys2Proof.Machine.execCmdEncode s
  | .cmdDecode => Sys2Proof.Machine.execCmdDecode s
  | .cmdRsvd => Sys2Proof.Machine.execCmdRsvd s
  | .eopen => Sys2Proof.Machine.execEopen s
  | .epair => Sys2Proof.Machine.execEpair s
  | .etailb => Sys2Proof.Machine.execEtailb s
  | .etailc => Sys2Proof.Machine.execEtailc s
  | .eclose => Sys2Proof.Machine.execEclose s
  | .dframe => Sys2Proof.Machine.execDframe s
  | .dpair => Sys2Proof.Machine.execDpair s
  | .dtail => Sys2Proof.Machine.execDtail s
  | .symV0 n => Sys2Proof.Machine.execSymV0 n s
  | .symV1 n => Sys2Proof.Machine.execSymV1 n s
  | .symV2 n => Sys2Proof.Machine.execSymV2 n s
  | .symV3 n => Sys2Proof.Machine.execSymV3 n s
  | .symV4 n => Sys2Proof.Machine.execSymV4 n s
  | .symV5 n => Sys2Proof.Machine.execSymV5 n s
  | .symC0 n => Sys2Proof.Machine.execSymC0 n s
  | .symC1 n => Sys2Proof.Machine.execSymC1 n s
  | .symC2 n => Sys2Proof.Machine.execSymC2 n s
  | .symC3 n => Sys2Proof.Machine.execSymC3 n s
  | .symC4 n => Sys2Proof.Machine.execSymC4 n s
  | .symC5 n => Sys2Proof.Machine.execSymC5 n s
  | .symC6 n => Sys2Proof.Machine.execSymC6 n s
  | .symC7 n => Sys2Proof.Machine.execSymC7 n s
  | .symC8 n => Sys2Proof.Machine.execSymC8 n s
  | .symC9 n => Sys2Proof.Machine.execSymC9 n s
  | .symC10 n => Sys2Proof.Machine.execSymC10 n s
  | .symC11 n => Sys2Proof.Machine.execSymC11 n s
  | .symC12 n => Sys2Proof.Machine.execSymC12 n s
  | .symC13 n => Sys2Proof.Machine.execSymC13 n s
  | .symC14 n => Sys2Proof.Machine.execSymC14 n s
  | .symC15 n => Sys2Proof.Machine.execSymC15 n s
  | .symC16 n => Sys2Proof.Machine.execSymC16 n s
  | .symHyphen n => Sys2Proof.Machine.execSymHyphen n s
  | .pair hi mid lo n1 n0 => Sys2Proof.Machine.execPair hi mid lo n1 n0 s
  | .byteTail hi mid lo => Sys2Proof.Machine.execByteTail hi mid lo s
  | .errNone => Sys2Proof.Machine.execErrNone s
  | .invalidFraming pos => Sys2Proof.Machine.execInvalidFraming pos s
  | .invalidLength pos => Sys2Proof.Machine.execInvalidLength pos s
  | .invalidCharacter pos => Sys2Proof.Machine.execInvalidCharacter pos s
  | .checksumMismatch pos => Sys2Proof.Machine.execChecksumMismatch pos s

end Sys2Proof.Machine
end

