-- ==== Sys2Proof/Machine/Fetch.lean ====
section
/-! DEFINITION. How the engine finds its next step operation (30_encoding.md R79), and the states in which a word of the
opcode table is the next thing performed (log 17). -/

namespace Sys2Proof.Machine

/-- The dispatch word `SEL = (PHASE, LAST, ODD)` (R79): `LAST = 1` when `K = KT`, `ODD = RAW_LEN mod 2`. -/
def State.sel (s : State) : Nat :=
  s.phase.code * 4 + (if s.k = s.kt then 2 else 0) + s.rawLen % 2

/-- The phase with a code; none for 0 (no step operation), 6 and 7. -/
def stepPhase (code : Nat) : Option Phase :=
  match code with
  | 1 => some .encOpen
  | 2 => some .encBody
  | 3 => some .encClose
  | 4 => some .decFrame
  | 5 => some .decBody
  | _ => none

/-- Give a value to those of the cells that hold none. -/
def fillUnwritten (m cells : List Host.Cell) : List Host.Cell :=
  cells.foldl (fun acc cell => if (Memory.read acc cell.1).isSome then acc else Memory.write acc cell.1 cell.2) m

/-- `"xexax"` (95_test_vectors.md A1) as cells. -/
def shortString : List Host.Cell := [(0, 0x78), (1, 0x65), (2, 0x78), (3, 0x61), (4, 0x78)]

/-- `"xebab-byxax"` (95_test_vectors.md A5) as cells. -/
def longString : List Host.Cell :=
  [(0, 0x78), (1, 0x65), (2, 0x62), (3, 0x61), (4, 0x62), (5, 0x2D), (6, 0x62), (7, 0x79), (8, 0x78), (9, 0x61), (10, 0x78)]

/-- The operation in progress in which `SEL = w` selects the next step operation: PHASE, and `K = 0` with lengths that
give LAST and ODD, as an accepted command leaves the flags; the input cells hold a value (the host's duty of R198). -/
def selectStep (w : Nat) (s : State) : State :=
  match stepPhase (w / 4) with
  | none => s
  | some phase =>
    let last := w / 2 % 2
    let decoding := phase = .decFrame ∨ phase = .decBody
    let rawLen := (if last = 1 ∨ decoding then 0 else 2) + w % 2
    let strLen := if decoding then (if last = 1 then 5 else 11) else s.strLen
    { acceptCommand (if decoding then .decode else .encode) phase s with
      k := 0
      rawLen := rawLen
      strLen := strLen
      raw := fillUnwritten s.raw (((List.range rawLen).map fun i => (i, 0)))
      str := if decoding then fillUnwritten s.str (if last = 1 then shortString else longString) else s.str
      inputs := .engine :: s.inputs }

/-- The operation in progress in which the byte pair `w` is the one EPAIR encodes next (R65). -/
def selectPair (w : Nat) (s : State) : State :=
  { selectStep 8 s with
    raw := Memory.writeAll s.raw [(0, BitVec.ofNat 8 (w / 256)), (1, BitVec.ofNat 8 w)] }

/-- A word of the opcode table becomes the next thing the block performs: a CTRL write or a write of STR cell 0 at the
head of the port's queue, or the engine's selection (log 17). -/
def placeWord (nbits w : Nat) (s : State) : State :=
  match tableCode nbits w with
  | ⟨.ctrl, v, _⟩ => { s with inputs := .writeReg 0 v :: s.inputs }
  | ⟨.str, v, i⟩ => { s with inputs := .writeStr i (BitVec.ofNat 8 v) :: s.inputs }
  | ⟨.sel, v, _⟩ => selectStep v s
  | ⟨.pairWord, v, _⟩ => selectPair v s
  | ⟨.tailByte, _, _⟩ => s
  | ⟨.errCode, _, _⟩ => s

end Sys2Proof.Machine
end

