-- ==== Sys2Proof/Machine/Sequencer.lean ====
section
/-! DEFINITION. Who moves next and what it does: the engine's dispatch (30_encoding.md R79), the host's events at the
port (43_host_commands.md R150), reset (70_reset_and_hazards.md R196). -/

namespace Sys2Proof.Machine

/-- The engine's turn: while `BUSY = 1` it performs the step operation its dispatch word selects, while `BUSY = 0` it has
no step (10_state.md R13) and its turn leaves the state as it is (DESIGN CHOICE, log 24). A selector that names none is no state of the hardware (U7). -/
def engineTurn (s : State) : Result :=
  if s.busy then
    match decode ⟨.sel, s.sel, 0⟩ with
    | .ok i => exec i s
    | .error _ => .refused .stateWithoutMeaning
  else .next s

/-- HostWriteReg(CTRL, v): the command that `v` encodes is performed (R72); each command says itself that it is ignored while
`BUSY = 1` (R156). -/
def writeCtrl (v : Nat) (s : State) : Result :=
  match decode ⟨.ctrl, v, 0⟩ with
  | .ok i => exec i s
  | .error _ => .refused .stateWithoutMeaning

/-- HostWriteStr(i, v): a symbol of the table, or any other byte (20_memory.md R41). -/
def writeStr (i : Nat) (v : Byte) (s : State) : Result :=
  match decode ⟨.str, v.toNat, i⟩ with
  | .ok symbol => exec symbol s
  | .error _ => hostWriteStr i v s

/-- HostWriteReg: CTRL is R0, the other registers store or ignore (R157). -/
def writeReg (r v : Nat) (s : State) : Result := if r = 0 then writeCtrl v s else hostWriteReg r v s

/-- One event of the outside. -/
def perform (e : Input) (s : State) : Result :=
  match e with
  | .engine => engineTurn s
  | .reset => .next (resetBlock s)
  | .writeRaw i v => hostWriteRaw i v s
  | .readRaw i => hostReadRaw i s
  | .writeStr i v => writeStr i v s
  | .readStr i => hostReadStr i s
  | .writeReg r v => writeReg r v s
  | .readReg r => hostReadReg r s

/-- The next event is taken from the queue and performed; with an empty queue the engine has its turn (DESIGN CHOICE, log 6). A state that
breaks R33 has no meaning (U1), but reset may be applied in any state (R196). -/
def turn (s : State) : Result :=
  match s.inputs with
  | [] => if s.Coherent then engineTurn s else .refused .stateWithoutMeaning
  | e :: rest =>
    if s.Coherent ∨ e = .reset then perform e { s with inputs := rest } else .refused .stateWithoutMeaning

end Sys2Proof.Machine
end

