-- ==== Sys2Proof/Machine/Step.lean ====
section
/-! DEFINITION. One step of the machine, and the state in which a word of the opcode table is the next thing performed. -/

namespace Sys2Proof.Machine

/-- One step: the next event of the outside, or the engine's step operation. -/
def step (s : State) : Host.Outcome State Fault Refusal := turn s

/-- `s` with the word placed where the next step finds it (log 17). -/
def State.withFetchWord (s : State) (nbits w : Nat) : State := placeWord nbits w s

end Sys2Proof.Machine
end

