-- ==== Sys2Proof/Machine/Codec.lean ====
section
/-! DEFINITION. The two functions the block computes, on whole sequences: `enc` (41_encoder.md R101) and `dec`
(42_decoder.md R130). They speak of lists only, of no buffer and no sequencer. -/

namespace Sys2Proof.Machine

/-- The 6 characters of a pair group: the five letters in order with the hyphen at offset `HYPHEN_SLOT` (30_encoding.md R64). -/
def pairGroup (cfg : Config) (c : Checksum) (b0 b1 : Byte) : List Byte :=
  let letters := [vowel (highIndex c (hiField b0)), dataCons (midField b0), vowel (lowIndex c (loField b0)),
    dataCons (upperNibble b1), dataCons (lowerNibble b1)]
  letters.take cfg.hyphenSlot.offset ++ [hyphen] ++ letters.drop cfg.hyphenSlot.offset

/-- The 3 letters of a byte tail (R67). -/
def byteTail (c : Checksum) (b0 : Byte) : List Byte :=
  [vowel (highIndex c (hiField b0)), dataCons (midField b0), vowel (lowIndex c (loField b0))]

/-- The 3 letters of a checksum tail (R68). -/
def checksumTail (c : Checksum) : List Byte := [vowel (tailHighIndex c), cons 16, vowel (tailLowIndex c)]

/-- Pair groups and tail of a byte sequence, from checksum `c` on (R101 (2) and (3)). -/
def encFrom (cfg : Config) (c : Checksum) : List Byte → List Byte
  | b0 :: b1 :: rest => pairGroup cfg c b0 b1 ++ encFrom cfg (ckUpd c b0 b1) rest
  | [b0] => byteTail c b0
  | [] => checksumTail c

/-- `enc(B)` (R101). -/
def enc (cfg : Config) (bytes : List Byte) : List Byte :=
  [delimiter] ++ encFrom cfg ckInit bytes ++ [delimiter]

/-- The checksum after all pairs of a byte sequence, from `c` on: `c_KT` of 40_checksum.md R95. -/
def checksumFrom (c : Checksum) : List Byte → Checksum
  | b0 :: b1 :: rest => checksumFrom (ckUpd c b0 b1) rest
  | _ => c

/-- `c_k` of R95: the checksum after the first `k` pairs. -/
def checksumAt (bytes : List Byte) (k : Nat) : Checksum := checksumFrom ckInit (bytes.take (2 * k))

/-- The five classes of slots (30_encoding.md R63): vowel, data consonant, tail middle, hyphen, frame delimiter. -/
inductive SlotClass where
  | v
  | d
  | m
  | h
  | x
  deriving DecidableEq, Repr

/-- The class of offset `a` in a string of length `len` (R62, R64, R67, R68). -/
def slotClass (cfg : Config) (len a : Nat) : SlotClass :=
  let kt := (len - 5) / 6
  if a = 0 ∨ a = len - 1 then .x
  else if groupStart kt ≤ a then (if a = groupStart kt + 1 then .m else .v)
  else
    let j := (a - 1) % 6
    if j = cfg.hyphenSlot.offset then .h else if j = letterOffset cfg 0 ∨ j = letterOffset cfg 2 then .v else .d

/-- The codes the decoder accepts in a slot of the class (R63). -/
def slotAccepts (cls : SlotClass) (c : Byte) : Prop :=
  match cls with
  | .v => (vidx c).isSome
  | .d => (didx c).isSome
  | .m => (midx c).isSome
  | .h => True
  | .x => c = delimiter

/-- The codes the encoder writes in a slot of the class (R63): the same, and the hyphen in its slot. -/
def slotWrites (cls : SlotClass) (c : Byte) : Prop :=
  match cls with
  | .h => c = hyphen
  | .v => (vidx c).isSome
  | .d => (didx c).isSome
  | .m => (midx c).isSome
  | .x => c = delimiter

/-- The pair group at offset `p`, given its six characters: the lookups of the five letters in string order, then the
field pass (R127, R132). -/
def decPair (cfg : Config) (c : Checksum) (p : Nat) (chars : List Byte) : Except Failure (Byte × Byte) := do
  let letter := fun j => chars.getD (letterOffset cfg j) 0
  let i0 ← vowelOf (p + letterOffset cfg 0) (letter 0)
  let i1 ← dataOf (p + letterOffset cfg 1) (letter 1)
  let i2 ← vowelOf (p + letterOffset cfg 2) (letter 2)
  let i3 ← dataOf (p + letterOffset cfg 3) (letter 3)
  let i4 ← dataOf (p + letterOffset cfg 4) (letter 4)
  let b0 ← assembleOf c i0 i1 i2 (p + letterOffset cfg 0) (p + letterOffset cfg 2)
  .ok (b0, joinNibbles i3 i4)

/-- The tail at offset `t` (R128). -/
def decTail (c : Checksum) (t : Nat) (ch0 ch1 ch2 : Byte) : Except Failure (Option Byte) := do
  let i0 ← vowelOf t ch0
  let i1 ← middleOf (t + 1) ch1
  let i2 ← vowelOf (t + 2) ch2
  tailOf c t i0 i1 i2

/-- Pair groups, tail and closing delimiter from offset `p` on. (The last case is for lengths that the length check of
`dec` has turned away.) -/
def decFrom (cfg : Config) (c : Checksum) (p : Nat) : List Byte → Except Failure (List Byte)
  | [t0, t1, t2, _] => do
    let last ← decTail c p t0 t1 t2
    .ok last.toList
  | a0 :: a1 :: a2 :: a3 :: a4 :: a5 :: rest => do
    let b ← decPair cfg c p [a0, a1, a2, a3, a4, a5]
    let more ← decFrom cfg (ckUpd c b.1 b.2) (p + 6) rest
    .ok (b.1 :: b.2 :: more)
  | _ => .error (.invalidLength, p)

/-- `dec(S)` (R130), in the order of checks of R132. -/
def dec (cfg : Config) (chars : List Byte) : Except Failure (List Byte) :=
  if chars.length % 6 ≠ 5 then .error (.invalidLength, chars.length)
  else if chars.head? ≠ some delimiter then .error (.invalidFraming, 0)
  else if chars.getLast? ≠ some delimiter then .error (.invalidFraming, chars.length - 1)
  else decFrom cfg ckInit 1 chars.tail

end Sys2Proof.Machine
end

