-- ==== Sys2Proof/Machine/Pseudo.lean ====
section
/-! DEFINITION. The two pseudo-instructions of 30_encoding.md R84, `encode(B)` and `decode(S)`: the host's program, operation by
operation over `step`, with the polls of STATUS and the read-back. Nothing here looks at the block but through a host read. -/

namespace Sys2Proof.Machine

/-- Why a call ends without an answer. -/
inductive CallStop where
  /-- No poll has found DONE = 1 yet: the block is left as it is in `s`, and the host would go on polling. -/
  | stillPolling (s : State)
  | fault (f : Fault)
  | refused (r : Refusal)
  deriving DecidableEq, Repr

/-- The host performs one operation, or the engine is given one turn: the event goes before whatever waits, and the next step
takes it. -/
def hostDo (e : Input) (s : State) : Except CallStop State :=
  match step { s with inputs := e :: s.inputs } with
  | .next t => .ok t
  | .fault f => .error (.fault f)
  | .refused r => .error (.refused r)

/-- Several of them, first to last. -/
def hostDoAll : List Input → State → Except CallStop State
  | [], s => .ok s
  | e :: rest, s => do
    let t ← hostDo e s
    hostDoAll rest t

/-- A host read, with the value it was handed. -/
def hostRead (e : Input) (s : State) : Except CallStop (Nat × State) := do
  let t ← hostDo e s
  .ok (t.reads.headD 0, t)

/-- Several host reads, with the values in order. -/
def hostReadAll : List Input → State → Except CallStop (List Nat × State)
  | [], s => .ok ([], s)
  | e :: rest, s => do
    let (v, t) ← hostRead e s
    let (vs, u) ← hostReadAll rest t
    .ok (v :: vs, u)

/-- Bit 1 of a STATUS value, DONE (10_state.md R26). -/
def statusDone (status : Nat) : Bool := status / 2 % 2 == 1

/-- Bit 2 of a STATUS value, ERR (R26). -/
def statusErr (status : Nat) : Bool := status / 4 % 2 == 1

/-- `repeat HostReadReg(STATUS) until DONE` (R84), with the STATUS that ended it. How many turns the engine has before each poll is
the outside's to choose (93_implementation_defined.md U12): `polls` says it, one number for each poll (DESIGN CHOICE, log 21). -/
def awaitDone : List Nat → State → Except CallStop (Nat × State)
  | [], s => .error (.stillPolling s)
  | turns :: rest, s => do
    let t ← hostDoAll (List.replicate turns .engine) s
    let (status, u) ← hostRead (.readReg 1) t
    if statusDone status then .ok (status, u) else awaitDone rest u

/-- `encode(B)` up to the command: write the raw cells, RAW_LEN and CTRL (R84). -/
def encodeSetup (bytes : List Byte) : List Input :=
  bytes.zipIdx.map (fun cell => .writeRaw cell.2 cell.1) ++ [.writeReg 2 bytes.length, .writeReg 0 1]

/-- `decode(S)` up to the command: write the string cells, STR_LEN and CTRL (R84). -/
def decodeSetup (chars : List Byte) : List Input :=
  chars.zipIdx.map (fun cell => .writeStr cell.2 cell.1) ++ [.writeReg 3 chars.length, .writeReg 0 2]

/-- Read a length register, then that many cells from cell 0 on (R84). -/
def readBack (lengthReg : Nat) (readCell : Nat → Input) (s : State) : Except CallStop (List Nat × State) := do
  let (n, t) ← hostRead (.readReg lengthReg) s
  hostReadAll ((List.range n).map readCell) t

/-- `encode(B)` (R84): the values read from `STR[0 .. L-1]`. -/
def encodeCall (bytes : List Byte) (polls : List Nat) (s : State) : Except CallStop (List Nat × State) := do
  let t ← hostDoAll (encodeSetup bytes) s
  let (_, u) ← awaitDone polls t
  readBack 3 .readStr u

/-- `decode(S)` (R84): the values read from ERR_CODE and ERR_POS where the STATUS read has ERR, else those read from
`RAW[0 .. n-1]`. -/
def decodeCall (chars : List Byte) (polls : List Nat) (s : State) :
    Except CallStop (Except (Nat × Nat) (List Nat) × State) := do
  let t ← hostDoAll (decodeSetup chars) s
  let (status, u) ← awaitDone polls t
  if statusErr status then do
    let (code, v) ← hostRead (.readReg 4) u
    let (pos, w) ← hostRead (.readReg 5) v
    .ok (.error (code, pos), w)
  else do
    let (bytes, v) ← readBack 2 .readRaw u
    .ok (.ok bytes, v)

end Sys2Proof.Machine
end

