-- ==== Sys2Proof/Safety.lean ====
section
/-! DEFINITION. The terms claims are made in: the invariant of the machine, where each step operation is enabled, what it
means that a buffer holds a sequence. -/

namespace Sys2Proof.Machine

/-- The invariant of the machine: the configuration is legal (00_scope.md R4), R33 holds, both buffers are in canonical form and
inside their capacities, K and ERR_POS fit, the phase agrees with MODE and with the lengths. -/
structure State.Inv (s : State) : Prop where
  /-- `2^LEN_W > STR_CAP` (R4). -/
  legal : s.cfg.Legal
  /-- R33. -/
  coherent : s.Coherent
  /-- `RAW` is in canonical form. -/
  rawWf : Memory.wf s.raw = true
  /-- `STR` is in canonical form. -/
  strWf : Memory.wf s.str = true
  /-- `RAW` has no cell at or above `RAW_CAP` (R16). -/
  rawWithin : Memory.within s.cfg.rawCap s.raw = true
  /-- `STR` has no cell at or above `STR_CAP` (R17). -/
  strWithin : Memory.within s.cfg.strCap s.str = true
  /-- `K` never exceeds `K_MAX` (R19). -/
  kLe : s.k ≤ s.cfg.kMax
  /-- ERR_POS fits its `LEN_W` bits (R30). -/
  errPosFits : s.errPos < 2 ^ s.cfg.lenW
  /-- ERR_POS is 0 unless an error is recorded (R30, R153, R154). -/
  errPosZero : s.err = false → s.errPos = 0
  /-- The encoder's phases belong to MODE 0 (R20, R21). -/
  encMode : s.phase = .encOpen ∨ s.phase = .encBody ∨ s.phase = .encClose → s.mode = .encode
  /-- The decoder's phases belong to MODE 1 (R20, R21). -/
  decMode : s.phase = .decFrame ∨ s.phase = .decBody → s.mode = .decode
  /-- In ENC_CLOSE `K = KT` (41_encoder.md R107). -/
  closeK : s.phase = .encClose → s.k = s.rawLen / 2
  /-- In DEC_BODY the length check has passed (30_encoding.md R79). -/
  decLen : s.phase = .decBody → s.strLen % 6 = 5

/-- The precondition of a step operation (the rule of each); nothing else is one. -/
def StepEnabled (i : Instr) (s : State) : Prop :=
  (i = .eopen ∧ s.phase = .encOpen) ∨
  (i = .epair ∧ s.phase = .encBody ∧ s.k < s.rawLen / 2) ∨
  (i = .etailb ∧ s.phase = .encBody ∧ s.k = s.rawLen / 2 ∧ s.rawLen % 2 = 1) ∨
  (i = .etailc ∧ s.phase = .encBody ∧ s.k = s.rawLen / 2 ∧ s.rawLen % 2 = 0) ∨
  (i = .eclose ∧ s.phase = .encClose) ∨
  (i = .dframe ∧ s.phase = .decFrame) ∨
  (i = .dpair ∧ s.phase = .decBody ∧ s.k < (s.strLen - 5) / 6) ∨
  (i = .dtail ∧ s.phase = .decBody ∧ s.k = (s.strLen - 5) / 6)

/-- The offset is a hyphen slot of a string of length `len` (30_encoding.md R62, R63 class H). -/
def IsHyphenSlot (cfg : Config) (len a : Nat) : Prop := ∃ g, g < (len - 5) / 6 ∧ a = hyphenAt cfg g

/-- The host's duty before CMD_ENCODE (70_reset_and_hazards.md R198 (a)): RAW holds the bytes and RAW_LEN their number. -/
def State.HoldsRaw (s : State) (bytes : List Byte) : Prop :=
  s.rawLen = bytes.length ∧ ∀ i, i < bytes.length → Memory.read s.raw i = bytes[i]?

/-- The host's duty before CMD_DECODE (R198 (b)): STR holds the characters, the hyphen slots apart, and STR_LEN their
number. -/
def State.HoldsStr (s : State) (chars : List Byte) : Prop :=
  s.strLen = chars.length ∧
    ∀ i, i < chars.length → ¬ IsHyphenSlot s.cfg chars.length i → Memory.read s.str i = chars[i]?

end Sys2Proof.Machine
end

