-- ==== Sys2Proof/Certificates/Slice0/Obligations.lean ====
section
/-! DEFINITION. The statements about BBCODEC for the provers, each a Prop. OBLIGATIONS.json says which rule of spec/ each
formalises. Where a hypothesis is `s.Coherent`, the statement is about the states R33 admits (U1 says a state that breaks
R33 has no meaning); where it is `s.Inv`, about those that keep the whole invariant, which is stated of its own.

A statement part of which is the model's choice or inference names the log entry in its docstring and has the basis 'derived' (log 8,
for `losses` left open, apart).

The spec itself marks as derived: R35, R49, R84, R94, R95, R108, R109, R129 to R131, R133 to R137, the disjointness in R79 and the
inversions in R70 and R71. A statement of one of these names the rule in its docstring and has the basis 'derived'. -/

open Sys2Proof Sys2Proof.Machine

/-! ### Encodings -/

/-- Decoding an encoded instruction gives it back, for every instruction and every value of its fields. -/
def Obligations.DecodeInvertsEncode : Prop :=
  ∀ i : Instr, decode (encode i) = .ok i

/-- R79: the eight rows of the dispatch table are disjoint and cover exactly the selectors of PHASE 1 to 5. -/
def Obligations.DispatchRowsAreDisjointAndComplete : Prop :=
  ∀ w, w < 32 → (selRows.filter (·.matches w)).length = if 4 ≤ w ∧ w < 24 then 1 else 0

/-- Words of each encoding space, written out from R72, R79, R60, R65, R67, R73, decode to what they stand for. -/
def Obligations.SpecWordsDecode : Prop :=
  decode ⟨.ctrl, 0b01, 0⟩ = .ok .cmdEncode ∧ decode ⟨.ctrl, 0b101, 0⟩ = .ok .cmdEncode ∧
  decode ⟨.sel, 0b01001, 0⟩ = .ok .epair ∧ decode ⟨.sel, 0b01011, 0⟩ = .ok .etailb ∧
  decode ⟨.sel, 0b10110, 0⟩ = .ok .dtail ∧ decode ⟨.sel, 0b00010, 0⟩ = .error .noStepWhenIdle ∧
  decode ⟨.sel, 0b11000, 0⟩ = .error .unreachableSelector ∧
  decode ⟨.str, 0x78, 3⟩ = .ok (.symC16 3) ∧ decode ⟨.str, 0x58, 3⟩ = .error .notASymbol ∧
  decode ⟨.pairWord, 0x5069, 0⟩ = .ok (.pair 1 4 0 6 9) ∧ decode ⟨.tailByte, 0x65, 0⟩ = .ok (.byteTail 1 9 1) ∧
  decode ⟨.errCode, 4, 25⟩ = .ok (.checksumMismatch 25) ∧ decode ⟨.errCode, 5, 0⟩ = .error .unusedErrorCode

/-- R79: in every state with BUSY = 1 exactly one step operation is enabled, and it is the one SEL selects.(In DEC_BODY with STR_LEN
below 5 that is DTAIL: the model's choice, log 28; no run reaches such a state.) -/
def Obligations.BusyStateSelectsTheOneEnabledStep : Prop :=
  ∀ s : State, s.Coherent → s.busy = true →
    ∃ i, decode ⟨.sel, s.sel, 0⟩ = .ok i ∧ ∀ j, StepEnabled j s ↔ j = i

/-- A step runs the decoded instruction: the step operation SEL selects, the command a CTRL write carries, the symbol a STR
write carries, each on the state without the event that brought it. -/
def Obligations.StepRunsDecodedInstruction : Prop :=
  ∀ (s : State) (i : Instr) (rest : List Input), s.Coherent →
    (s.inputs = [] → s.busy = true → decode ⟨.sel, s.sel, 0⟩ = .ok i → step s = exec i s) ∧
    (s.inputs = .engine :: rest → s.busy = true → decode ⟨.sel, s.sel, 0⟩ = .ok i →
      step s = exec i { s with inputs := rest }) ∧
    (∀ v, s.inputs = .writeReg 0 v :: rest → decode ⟨.ctrl, v, 0⟩ = .ok i → step s = exec i { s with inputs := rest }) ∧
    (∀ (n : Nat) (v : Byte), s.inputs = .writeStr n v :: rest → decode ⟨.str, v.toNat, n⟩ = .ok i →
      step s = exec i { s with inputs := rest })

/-- R13: while BUSY = 0 the engine has no step; its turn changes nothing. -/
def Obligations.IdleEngineHasNoStep : Prop :=
  ∀ (s : State) (rest : List Input), s.Coherent → s.busy = false →
    (s.inputs = [] → step s = .next s) ∧
    (s.inputs = .engine :: rest → step s = .next { s with inputs := rest })

/-- U1: a state that breaks R33 is refused, whatever is to happen next but reset. -/
def Obligations.StateWithoutMeaningIsRefused : Prop :=
  ∀ s : State, ¬ s.Coherent → s.inputs.head? ≠ some .reset → step s = .refused .stateWithoutMeaning

/-! ### Alphabet, fields, checksum -/

/-- R61 (the last three clauses are R35, which the spec derives from its tables): each lookup is defined exactly on its table's characters and inverts the table; no table holds the hyphen, and
the two tables share no character. -/
def Obligations.LookupsInvertTables : Prop :=
  (∀ ch i, vidx ch = some i ↔ vowel i = ch) ∧ (∀ ch i, midx ch = some i ↔ cons i = ch) ∧
  (∀ ch i, didx ch = some i ↔ cons ⟨i.toNat, by have := i.isLt; omega⟩ = ch) ∧ didx delimiter = none ∧
  (∀ i j, vowel i ≠ cons j) ∧ (∀ i, vowel i ≠ hyphen) ∧ (∀ i, cons i ≠ hyphen)

/-- R70, R71: assembly. A byte exists exactly when both fields are below 4 after removing the offsets, `hi` checked before
`lo`; assembling the indices that R64 produces gives back the byte under every checksum; the nibbles likewise. -/
def Obligations.AssemblyInvertsTheFieldMap : Prop :=
  (∀ (c : Checksum) (i0 i2 : Fin 6) (i1 : BitVec 4) (p0 p2 : Nat),
    assemble c i0 i1 i2 p0 p2 =
      if 4 ≤ (i0.val + 6 - c.val % 6) % 6 then .error p0
      else if 4 ≤ (i2.val + 6 - c.val / 6) % 6 then .error p2
      else .ok (BitVec.ofNat 8 (((i0.val + 6 - c.val % 6) % 6) * 64 + i1.toNat * 4 + (i2.val + 6 - c.val / 6) % 6))) ∧
  (∀ (c : Checksum) (b : Byte) (p0 p2 : Nat),
    assemble c (Fin.ofNat 6 (b.toNat / 64 + c.val)) (BitVec.ofNat 4 (b.toNat / 4)) (Fin.ofNat 6 (b.toNat % 4 + c.val / 6))
      p0 p2 = .ok b) ∧
  (∀ i3 i4 : BitVec 4, joinNibbles i3 i4 = BitVec.ofNat 8 (i3.toNat * 16 + i4.toNat)) ∧
  (∀ b : Byte, joinNibbles (BitVec.ofNat 4 (b.toNat / 16)) (BitVec.ofNat 4 b.toNat) = b)

/-- R91, R94: CKUPD, on the exact sum and on terms reduced modulo 36. -/
def Obligations.ChecksumUpdateOnReducedTerms : Prop :=
  ∀ (c : Checksum) (b0 b1 : Byte),
    (ckUpd c b0 b1).val = (c.val * 5 + b0.toNat * 7 + b1.toNat) % 36 ∧
    (ckUpd c b0 b1).val = (c.val * 5 % 36 + b0.toNat * 7 % 36 + b1.toNat % 36) % 36

/-! ### Commands -/

/-- R152, R155: CMD_NOP and CMD_RSVD change no state, in every state. -/
def Obligations.NopAndReservedCommandChangeNothing : Prop :=
  ∀ s : State, exec .cmdNop s = .next s ∧ exec .cmdRsvd s = .next s

/-- R153, R154: CMD_ENCODE and CMD_DECODE are accepted when BUSY = 0, in every such state, and only then; a CTRL write whose two
low bits are 1 or 2 performs them. -/
def Obligations.EncodeAndDecodeCommandsAreAccepted : Prop :=
  ∀ s : State,
    (s.busy = false → exec .cmdEncode s = .next
      { s with mode := .encode, err := false, errCode := .noError, errPos := 0, done := false, busy := true,
               phase := .encOpen }) ∧
    (s.busy = false → exec .cmdDecode s = .next
      { s with mode := .decode, err := false, errCode := .noError, errPos := 0, done := false, busy := true,
               phase := .decFrame }) ∧
    (s.busy = true → exec .cmdEncode s = .next s ∧ exec .cmdDecode s = .next s) ∧
    ∀ (v : Nat) (rest : List Input), s.Coherent → s.inputs = .writeReg 0 v :: rest →
      (v % 4 = 1 → step s = exec .cmdEncode { s with inputs := rest }) ∧
      (v % 4 = 2 → step s = exec .cmdDecode { s with inputs := rest })

/-- R72, R152, R155, R156: a CTRL write performs the command of its two low bits: 0 and 3 change nothing in any state, 1 starts an
encode and 2 a decode when BUSY = 0; while BUSY = 1 the write is ignored, whatever its value. -/
def Obligations.CtrlWritePerformsItsCommand : Prop :=
  ∀ (s : State) (v : Nat) (rest : List Input), s.Coherent → s.inputs = .writeReg 0 v :: rest →
    (s.busy = true → step s = .next { s with inputs := rest }) ∧
    (v % 4 = 0 ∨ v % 4 = 3 → step s = .next { s with inputs := rest }) ∧
    (v % 4 = 1 → s.busy = false → ∃ t, step s = .next t ∧ t.phase = .encOpen ∧ t.busy = true ∧ t.mode = .encode) ∧
    (v % 4 = 2 → s.busy = false → ∃ t, step s = .next t ∧ t.phase = .decFrame ∧ t.busy = true ∧ t.mode = .decode)

/-! ### Encoder -/

/-- R102: EOPEN. -/
def Obligations.EopenOpensTheString : Prop :=
  ∀ s : State, s.phase = .encOpen → ∃ t, exec .eopen s = .next t ∧
    t = { s with str := t.str, c := 1, k := 0, phase := .encBody } ∧
    Memory.read t.str 0 = some 0x78 ∧ ∀ a, a ≠ 0 → Memory.read t.str a = Memory.read s.str a

/-- R103: EPAIR. The five letters use the old `C`; the pair group is the only thing stored; nothing else changes but `C`
and `K`. -/
def Obligations.EpairEncodesOnePair : Prop :=
  ∀ (s : State) (b0 b1 : Byte), s.Coherent → s.phase = .encBody → s.k < s.rawLen / 2 →
    Memory.read s.raw (2 * s.k) = some b0 → Memory.read s.raw (2 * s.k + 1) = some b1 →
    ∃ t, exec .epair s = .next t ∧
      t = { s with str := t.str, c := Fin.ofNat 36 (s.c.val * 5 + b0.toNat * 7 + b1.toNat), k := s.k + 1 } ∧
      Memory.read t.str (1 + 6 * s.k + letterOffset s.cfg 0) = some (vowel (Fin.ofNat 6 (b0.toNat / 64 + s.c.val))) ∧
      Memory.read t.str (1 + 6 * s.k + letterOffset s.cfg 1) = some (cons (Fin.ofNat 17 (b0.toNat / 4 % 16))) ∧
      Memory.read t.str (1 + 6 * s.k + letterOffset s.cfg 2) = some (vowel (Fin.ofNat 6 (b0.toNat % 4 + s.c.val / 6))) ∧
      Memory.read t.str (1 + 6 * s.k + letterOffset s.cfg 3) = some (cons (Fin.ofNat 17 (b1.toNat / 16))) ∧
      Memory.read t.str (1 + 6 * s.k + s.cfg.hyphenSlot.offset) = some 0x2D ∧
      Memory.read t.str (1 + 6 * s.k + letterOffset s.cfg 4) = some (cons (Fin.ofNat 17 (b1.toNat % 16))) ∧
      ∀ a, (a < 1 + 6 * s.k ∨ 6 + 6 * s.k < a) → Memory.read t.str a = Memory.read s.str a

/-- R104: ETAILB. -/
def Obligations.EtailbEncodesTheLastByte : Prop :=
  ∀ (s : State) (b0 : Byte), s.Coherent → s.phase = .encBody → s.k = s.rawLen / 2 → s.rawLen % 2 = 1 →
    Memory.read s.raw (2 * s.k) = some b0 →
    ∃ t, exec .etailb s = .next t ∧ t = { s with str := t.str, phase := .encClose } ∧
      Memory.read t.str (1 + 6 * s.k) = some (vowel (Fin.ofNat 6 (b0.toNat / 64 + s.c.val))) ∧
      Memory.read t.str (2 + 6 * s.k) = some (cons (Fin.ofNat 17 (b0.toNat / 4 % 16))) ∧
      Memory.read t.str (3 + 6 * s.k) = some (vowel (Fin.ofNat 6 (b0.toNat % 4 + s.c.val / 6))) ∧
      ∀ a, (a < 1 + 6 * s.k ∨ 3 + 6 * s.k < a) → Memory.read t.str a = Memory.read s.str a

/-- R105: ETAILC. No cell of RAW need hold a value. -/
def Obligations.EtailcEmitsTheChecksum : Prop :=
  ∀ s : State, s.Coherent → s.phase = .encBody → s.k = s.rawLen / 2 → s.rawLen % 2 = 0 →
    ∃ t, exec .etailc s = .next t ∧ t = { s with str := t.str, phase := .encClose } ∧
      Memory.read t.str (1 + 6 * s.k) = some (vowel (Fin.ofNat 6 (s.c.val % 6))) ∧
      Memory.read t.str (2 + 6 * s.k) = some 0x78 ∧
      Memory.read t.str (3 + 6 * s.k) = some (vowel (Fin.ofNat 6 (s.c.val / 6))) ∧
      ∀ a, (a < 1 + 6 * s.k ∨ 3 + 6 * s.k < a) → Memory.read t.str a = Memory.read s.str a

/-- R106: the tail is chosen by the parity of RAW_LEN alone. -/
def Obligations.TailIsChosenByParity : Prop :=
  ∀ s : State, s.Coherent → s.phase = .encBody → s.k = s.rawLen / 2 →
    decode ⟨.sel, s.sel, 0⟩ = .ok (if s.rawLen % 2 = 1 then .etailb else .etailc) ∧
    (s.rawLen % 2 = 0 → exec .etailb s = .refused .notEnabled) ∧
    (s.rawLen % 2 = 1 → exec .etailc s = .refused .notEnabled)

/-- R107: ECLOSE. -/
def Obligations.EcloseEndsTheOperation : Prop :=
  ∀ s : State, s.k ≤ s.cfg.kMax → s.phase = .encClose →
    ∃ t, exec .eclose s = .next t ∧
      t = { s with str := t.str, strLen := 6 * s.k + 5, phase := .idle, busy := false, done := true } ∧
      Memory.read t.str (6 * s.k + 4) = some 0x78 ∧
      ∀ a, a ≠ 6 * s.k + 4 → Memory.read t.str a = Memory.read s.str a

/-- R181: the encoder raises no error in any state, and R55: it writes no cell of RAW and not RAW_LEN. -/
def Obligations.EncoderRaisesNoErrorAndKeepsItsInput : Prop :=
  ∀ (s t : State) (i : Instr), i ∈ [Instr.eopen, .epair, .etailb, .etailc, .eclose] → exec i s = .next t →
    t.err = s.err ∧ t.errCode = s.errCode ∧ t.errPos = s.errPos ∧ t.raw = s.raw ∧ t.rawLen = s.rawLen

/-! ### Decoder -/

/-- R121, R172, R173: DFRAME. A framed string of legal length passes; otherwise the first failing check in the order length,
leading delimiter, closing delimiter is reported; a wrong length needs no cell of STR. (`losses` is the model's own counter,
log 8: nothing is said of it.) -/
def Obligations.DframeChecksLengthThenFrame : Prop :=
  ∀ s : State, s.Coherent → s.phase = .decFrame →
    (s.strLen % 6 = 5 → Memory.read s.str 0 = some 0x78 → Memory.read s.str (s.strLen - 1) = some 0x78 →
      exec .dframe s = .next { s with c := 1, k := 0, phase := .decBody }) ∧
    (s.strLen % 6 ≠ 5 → ∃ n, exec .dframe s = .next
      { s with c := 1, k := 0, errCode := .invalidLength, errPos := s.strLen, rawLen := 0, err := true, done := true,
               busy := false, phase := .idle, losses := n }) ∧
    (∀ ch, s.strLen % 6 = 5 → Memory.read s.str 0 = some ch → ch ≠ 0x78 → ∃ n, exec .dframe s = .next
      { s with c := 1, k := 0, errCode := .invalidFraming, errPos := 0, rawLen := 0, err := true, done := true,
               busy := false, phase := .idle, losses := n }) ∧
    (∀ ch, s.strLen % 6 = 5 → Memory.read s.str 0 = some 0x78 → Memory.read s.str (s.strLen - 1) = some ch → ch ≠ 0x78 →
      ∃ n, exec .dframe s = .next
        { s with c := 1, k := 0, errCode := .invalidFraming, errPos := s.strLen - 1, rawLen := 0, err := true, done := true,
                 busy := false, phase := .idle, losses := n })

/-- R127, R132: DPAIR, for the five characters of the group. In the order of the checks: the first letter outside its class,
then `hi`, then `lo` is reported, with no cell of RAW written and `C` and `K` as they were (`raiseError` is the error entry,
stated of its own); otherwise the byte pair is stored, `C` updated and `K` raised. The hyphen cell need not hold a value. -/
def Obligations.DpairDecodesOneGroup : Prop :=
  ∀ (s : State) (ch0 ch1 ch2 ch3 ch4 : Byte), s.Coherent → s.phase = .decBody → s.k < (s.strLen - 5) / 6 →
    Memory.read s.str (1 + 6 * s.k + letterOffset s.cfg 0) = some ch0 →
    Memory.read s.str (1 + 6 * s.k + letterOffset s.cfg 1) = some ch1 →
    Memory.read s.str (1 + 6 * s.k + letterOffset s.cfg 2) = some ch2 →
    Memory.read s.str (1 + 6 * s.k + letterOffset s.cfg 3) = some ch3 →
    Memory.read s.str (1 + 6 * s.k + letterOffset s.cfg 4) = some ch4 →
    (∀ (kind : ErrorKind) (pos : Nat),
      (if vidx ch0 = none then some (ErrorKind.invalidCharacter, 1 + 6 * s.k + letterOffset s.cfg 0)
       else if didx ch1 = none then some (.invalidCharacter, 1 + 6 * s.k + letterOffset s.cfg 1)
       else if vidx ch2 = none then some (.invalidCharacter, 1 + 6 * s.k + letterOffset s.cfg 2)
       else if didx ch3 = none then some (.invalidCharacter, 1 + 6 * s.k + letterOffset s.cfg 3)
       else if didx ch4 = none then some (.invalidCharacter, 1 + 6 * s.k + letterOffset s.cfg 4)
       else if 4 ≤ (((vidx ch0).getD 0).val + 6 - s.c.val % 6) % 6 then
         some (.checksumMismatch, 1 + 6 * s.k + letterOffset s.cfg 0)
       else if 4 ≤ (((vidx ch2).getD 0).val + 6 - s.c.val / 6) % 6 then
         some (.checksumMismatch, 1 + 6 * s.k + letterOffset s.cfg 2)
       else none) = some (kind, pos) →
      exec .dpair s = .next (raiseError kind pos s)) ∧
    (∀ (i0 i2 : Fin 6) (i1 i3 i4 : Fin 16) (hi lo : Nat),
      ch0 = vowel i0 → ch1 = cons (Fin.ofNat 17 i1.val) → ch2 = vowel i2 → ch3 = cons (Fin.ofNat 17 i3.val) →
      ch4 = cons (Fin.ofNat 17 i4.val) →
      hi = (i0.val + 6 - s.c.val % 6) % 6 → hi < 4 → lo = (i2.val + 6 - s.c.val / 6) % 6 → lo < 4 →
      ∃ t, exec .dpair s = .next t ∧
        t = { s with
          raw := t.raw
          c := Fin.ofNat 36 (s.c.val * 5 + (hi * 64 + i1.val * 4 + lo) * 7 + (i3.val * 16 + i4.val))
          k := s.k + 1 } ∧
        Memory.read t.raw (2 * s.k) = some (BitVec.ofNat 8 (hi * 64 + i1.val * 4 + lo)) ∧
        Memory.read t.raw (2 * s.k + 1) = some (BitVec.ofNat 8 (i3.val * 16 + i4.val)) ∧
        ∀ a, a ≠ 2 * s.k → a ≠ 2 * s.k + 1 → Memory.read t.raw a = Memory.read s.raw a)

/-- R128, R132: DTAIL, for the three characters of the tail. In the order of the checks: the first letter outside its class,
then for a checksum tail the first and the last vowel, for a byte tail `hi` and `lo` is reported; otherwise a checksum tail ends
the operation with RAW_LEN = 2K and a byte tail with its byte at 2K and RAW_LEN = 2K + 1. (That a state in DEC_BODY with
STR_LEN below 5 is among these, with `K = 0`, is the model's choice, log 28; no run reaches one.) -/
def Obligations.DtailEndsTheOperation : Prop :=
  ∀ (s : State) (ch0 ch1 ch2 : Byte), s.Coherent → s.phase = .decBody → s.k = (s.strLen - 5) / 6 →
    Memory.read s.str (1 + 6 * s.k) = some ch0 → Memory.read s.str (2 + 6 * s.k) = some ch1 →
    Memory.read s.str (3 + 6 * s.k) = some ch2 →
    (∀ (kind : ErrorKind) (pos : Nat),
      (if vidx ch0 = none then some (ErrorKind.invalidCharacter, 1 + 6 * s.k)
       else if midx ch1 = none then some (.invalidCharacter, 2 + 6 * s.k)
       else if vidx ch2 = none then some (.invalidCharacter, 3 + 6 * s.k)
       else if ch1 = 0x78 then
         (if ((vidx ch0).getD 0).val ≠ s.c.val % 6 then some (.checksumMismatch, 1 + 6 * s.k)
          else if ((vidx ch2).getD 0).val ≠ s.c.val / 6 then some (.checksumMismatch, 3 + 6 * s.k)
          else none)
       else if 4 ≤ (((vidx ch0).getD 0).val + 6 - s.c.val % 6) % 6 then some (.checksumMismatch, 1 + 6 * s.k)
       else if 4 ≤ (((vidx ch2).getD 0).val + 6 - s.c.val / 6) % 6 then some (.checksumMismatch, 3 + 6 * s.k)
       else none) = some (kind, pos) →
      exec .dtail s = .next (raiseError kind pos s)) ∧
    (ch0 = vowel (Fin.ofNat 6 (s.c.val % 6)) → ch1 = 0x78 → ch2 = vowel (Fin.ofNat 6 (s.c.val / 6)) →
      exec .dtail s = .next { s with rawLen := 2 * s.k, phase := .idle, busy := false, done := true }) ∧
    (∀ (i0 i2 : Fin 6) (i1 : Fin 16) (hi lo : Nat),
      ch0 = vowel i0 → ch1 = cons (Fin.ofNat 17 i1.val) → ch2 = vowel i2 →
      hi = (i0.val + 6 - s.c.val % 6) % 6 → hi < 4 → lo = (i2.val + 6 - s.c.val / 6) % 6 → lo < 4 →
      ∃ t, exec .dtail s = .next t ∧
        t = { s with raw := t.raw, rawLen := 2 * s.k + 1, phase := .idle, busy := false, done := true } ∧
        Memory.read t.raw (2 * s.k) = some (BitVec.ofNat 8 (hi * 64 + i1.val * 4 + lo)) ∧
        ∀ a, a ≠ 2 * s.k → Memory.read t.raw a = Memory.read s.raw a)

/-- R126: no step operation of the decoder reads a hyphen slot: with any other content there, or none, it does the same. -/
def Obligations.HyphenSlotsAreNotRead : Prop :=
  ∀ (s : State) (m : List Host.Cell) (i : Instr), i ∈ [Instr.dframe, .dpair, .dtail] →
    (∀ a, ¬ IsHyphenSlot s.cfg s.strLen a → Memory.read m a = Memory.read s.str a) →
    exec i { s with str := m } =
      match exec i s with
      | .next t => .next { t with str := m }
      | .fault f => .fault f
      | .refused r => .refused r

/-- R55: a decode step writes no cell of STR and not STR_LEN; of RAW it changes the cells 2K and 2K + 1 only, unless it
raises an error, and then those below 2K hold no value. What belongs to the host's side and the configuration stays. -/
def Obligations.DecoderKeepsItsInput : Prop :=
  ∀ (s t : State) (i : Instr), i ∈ [Instr.dframe, .dpair, .dtail] → exec i s = .next t →
    t.str = s.str ∧ t.strLen = s.strLen ∧ t.cfg = s.cfg ∧ t.mode = s.mode ∧ t.inputs = s.inputs ∧ t.reads = s.reads ∧
    t.draws = s.draws ∧ (∀ a, 2 * s.k + 1 < a → Memory.read t.raw a = Memory.read s.raw a) ∧
    ∀ a, a < 2 * s.k → Memory.read t.raw a = Memory.read s.raw a ∨ (t.err = true ∧ Memory.read t.raw a = none)

/-- R178: an error that a decode step raises enters the error state: a code and a position are recorded, RAW_LEN is 0, the
flags and the phase end the operation; `C`, `K`, MODE, STR and STR_LEN are kept (DFRAME has set `C` to 1 and `K` to 0 before it
raises); RAW[0 .. 2K-1] hold no value (`losses` is the model's own counter, log 8: nothing is said of it). R171: DFRAME raises InvalidFraming and InvalidLength only, DPAIR and DTAIL
InvalidCharacter and ChecksumMismatch only. -/
def Obligations.RaisedErrorsEnterTheErrorState : Prop :=
  ∀ (s t : State) (i : Instr), i ∈ [Instr.dframe, .dpair, .dtail] → exec i s = .next t → s.err = false → t.err = true →
    ∃ (kind : ErrorKind) (pos : Nat),
      (if i = .dframe then kind = .invalidFraming ∨ kind = .invalidLength
       else kind = .invalidCharacter ∨ kind = .checksumMismatch) ∧
      t = { s with
        c := if i = .dframe then 1 else s.c
        k := if i = .dframe then 0 else s.k
        raw := t.raw, errCode := kind.errCode, errPos := pos, rawLen := 0, err := true, done := true, busy := false
        phase := .idle, losses := t.losses } ∧
      (∀ a, a < 2 * t.k → Memory.read t.raw a = none) ∧
      ∀ a, 2 * t.k ≤ a → Memory.read t.raw a = Memory.read s.raw a

/-! ### Error codes -/

/-- The error codes as instructions (the model's choice, log 16), each where its step operation raises it: the error entry
of R178, what it records, what it keeps, and that RAW[0 .. 2K-1] hold no value from then on. -/
def Obligations.ErrorEntryRecordsAndForgets : Prop :=
  ∀ (s : State) (pos : Nat) (i : Instr) (p : Phase) (code : ErrCode),
    (i, p, code) ∈ [(Instr.invalidFraming pos, Phase.decFrame, ErrCode.invalidFraming),
      (.invalidLength pos, .decFrame, .invalidLength), (.invalidCharacter pos, .decBody, .invalidCharacter),
      (.checksumMismatch pos, .decBody, .checksumMismatch)] →
    s.phase = p →
    ∃ t, exec i s = .next t ∧
      t = { s with raw := t.raw, errCode := code, errPos := pos, rawLen := 0, err := true, done := true, busy := false,
                   phase := .idle, losses := t.losses } ∧
      (∀ a, a < 2 * s.k → Memory.read t.raw a = none) ∧
      ∀ a, 2 * s.k ≤ a → Memory.read t.raw a = Memory.read s.raw a

/-- ERR_NONE as an instruction (the model's choice, log 16) clears ERR, ERR_CODE and ERR_POS, as an accepted command does
(R153, R180), and nothing else. -/
def Obligations.ErrNoneClearsTheRecord : Prop :=
  ∀ s : State, exec .errNone s = .next { s with err := false, errCode := .noError, errPos := 0 }

/-! ### Symbols and formats -/

/-- R60, R14, R15, R150 (that a symbol is performed as the host's write of its code is the model's choice, log 14): each of the
24 symbols is stored as its ASCII code in the cell it is written to, and nothing else
changes; during lockout the write is ignored, and a cell at or above STR_CAP is refused. -/
def Obligations.SymbolsAreStoredAsTheirCodes : Prop :=
  ∀ (s : State) (n : Nat) (i : Instr) (code : Byte),
    (i, code) ∈ [(Instr.symV0 n, (0x61 : Byte)), (.symV1 n, 0x65), (.symV2 n, 0x69), (.symV3 n, 0x6F), (.symV4 n, 0x75),
      (.symV5 n, 0x79), (.symC0 n, 0x62), (.symC1 n, 0x63), (.symC2 n, 0x64), (.symC3 n, 0x66), (.symC4 n, 0x67),
      (.symC5 n, 0x68), (.symC6 n, 0x6B), (.symC7 n, 0x6C), (.symC8 n, 0x6D), (.symC9 n, 0x6E), (.symC10 n, 0x70),
      (.symC11 n, 0x72), (.symC12 n, 0x73), (.symC13 n, 0x74), (.symC14 n, 0x76), (.symC15 n, 0x7A), (.symC16 n, 0x78),
      (.symHyphen n, 0x2D)] →
    (n < s.cfg.strCap → s.busy = false → ∃ t, exec i s = .next t ∧ t = { s with str := t.str } ∧
      Memory.read t.str n = some code ∧ ∀ a, a ≠ n → Memory.read t.str a = Memory.read s.str a) ∧
    (n < s.cfg.strCap → s.busy = true → exec i s = .next s) ∧
    (s.cfg.strCap ≤ n → exec i s = .refused (.noSuchCell .str n))

/-- R64 (that a format is performed of its own, where EPAIR is enabled, is the model's choice, log 15): a byte pair becomes five letters and the hyphen of pair group K under C; nothing else changes. -/
def Obligations.PairBecomesItsGroup : Prop :=
  ∀ (s : State) (hi : BitVec 2) (mid : BitVec 4) (lo : BitVec 2) (n1 n0 : BitVec 4), s.Coherent → s.phase = .encBody →
    s.k < s.rawLen / 2 →
    ∃ t, exec (.pair hi mid lo n1 n0) s = .next t ∧ t = { s with str := t.str } ∧
      Memory.read t.str (1 + 6 * s.k + letterOffset s.cfg 0) = some (vowel (Fin.ofNat 6 (hi.toNat + s.c.val))) ∧
      Memory.read t.str (1 + 6 * s.k + letterOffset s.cfg 1) = some (cons (Fin.ofNat 17 mid.toNat)) ∧
      Memory.read t.str (1 + 6 * s.k + letterOffset s.cfg 2) = some (vowel (Fin.ofNat 6 (lo.toNat + s.c.val / 6))) ∧
      Memory.read t.str (1 + 6 * s.k + letterOffset s.cfg 3) = some (cons (Fin.ofNat 17 n1.toNat)) ∧
      Memory.read t.str (1 + 6 * s.k + s.cfg.hyphenSlot.offset) = some 0x2D ∧
      Memory.read t.str (1 + 6 * s.k + letterOffset s.cfg 4) = some (cons (Fin.ofNat 17 n0.toNat)) ∧
      ∀ a, (a < 1 + 6 * s.k ∨ 6 + 6 * s.k < a) → Memory.read t.str a = Memory.read s.str a

/-- R67 (performed where ETAILB is enabled, log 15): the last byte becomes the three letters of the byte tail under C; nothing else changes. -/
def Obligations.ByteTailBecomesItsLetters : Prop :=
  ∀ (s : State) (hi : BitVec 2) (mid : BitVec 4) (lo : BitVec 2), s.Coherent → s.phase = .encBody →
    s.k = s.rawLen / 2 → s.rawLen % 2 = 1 →
    ∃ t, exec (.byteTail hi mid lo) s = .next t ∧ t = { s with str := t.str } ∧
      Memory.read t.str (1 + 6 * s.k) = some (vowel (Fin.ofNat 6 (hi.toNat + s.c.val))) ∧
      Memory.read t.str (2 + 6 * s.k) = some (cons (Fin.ofNat 17 mid.toNat)) ∧
      Memory.read t.str (3 + 6 * s.k) = some (vowel (Fin.ofNat 6 (lo.toNat + s.c.val / 6))) ∧
      ∀ a, (a < 1 + 6 * s.k ∨ 3 + 6 * s.k < a) → Memory.read t.str a = Memory.read s.str a

/-! ### The host's port -/

/-- R150, R41: an idle host write stores the byte in its cell, whatever the byte, and changes nothing else. -/
def Obligations.HostWritesStoreOneCell : Prop :=
  ∀ (s : State) (n : Nat) (v : Byte) (rest : List Input), s.Coherent → s.busy = false →
    (s.inputs = .writeRaw n v :: rest → n < s.cfg.rawCap → ∃ t, step s = .next t ∧
      t = { s with raw := t.raw, inputs := rest } ∧ Memory.read t.raw n = some v ∧
      ∀ a, a ≠ n → Memory.read t.raw a = Memory.read s.raw a) ∧
    (s.inputs = .writeStr n v :: rest → n < s.cfg.strCap → ∃ t, step s = .next t ∧
      t = { s with str := t.str, inputs := rest } ∧ Memory.read t.str n = some v ∧
      ∀ a, a ≠ n → Memory.read t.str a = Memory.read s.str a)

/-- R50: while BUSY = 1 a host write to any buffer cell or to any register changes no state. -/
def Obligations.LockoutIgnoresHostWrites : Prop :=
  ∀ (s : State) (n r v : Nat) (b : Byte) (rest : List Input), s.Coherent → s.busy = true →
    (s.inputs = .writeRaw n b :: rest → n < s.cfg.rawCap → step s = .next { s with inputs := rest }) ∧
    (s.inputs = .writeStr n b :: rest → n < s.cfg.strCap → step s = .next { s with inputs := rest }) ∧
    (s.inputs = .writeReg r v :: rest → r ≤ 6 → step s = .next { s with inputs := rest })

/-- R157: an idle write to a length register is stored up to the capacity and ignored above it; writes to STATUS, ERR_CODE,
ERR_POS and CSUM are ignored; none changes any other state. A register is written as a number of its width (R24), so a length
is below `2^LEN_W`. -/
def Obligations.LengthWritesStopAtTheCapacity : Prop :=
  ∀ (s : State) (v : Nat) (rest : List Input), s.Coherent → s.busy = false →
    (v < 2 ^ s.cfg.lenW → s.inputs = .writeReg 2 v :: rest →
      step s = .next { s with inputs := rest, rawLen := if v ≤ s.cfg.rawCap then v else s.rawLen }) ∧
    (v < 2 ^ s.cfg.lenW → s.inputs = .writeReg 3 v :: rest →
      step s = .next { s with inputs := rest, strLen := if v ≤ s.cfg.strCap then v else s.strLen }) ∧
    (∀ r, r = 1 ∨ r = 4 ∨ r = 5 ∨ r = 6 → s.inputs = .writeReg r v :: rest → step s = .next { s with inputs := rest })

/-- R150, R184: no host operation stops, pauses or changes an operation in progress: while BUSY = 1 whatever the host does but
reset leaves every piece of the block's state as it is. -/
def Obligations.HostCannotDisturbAnOperation : Prop :=
  ∀ (s t : State) (e : Input) (rest : List Input), s.busy = true → s.inputs = e :: rest → e ≠ .engine → e ≠ .reset →
    step s = .next t → t = { s with inputs := rest, reads := t.reads, draws := t.draws }

/-- R150, R25 to R31: what an idle host reads from each register and from a cell that holds a value; STATUS is exact in every
state. Nothing of the block changes. -/
def Obligations.HostReadsAnswerTheState : Prop :=
  ∀ (s : State) (rest : List Input), s.Coherent →
    (s.inputs = .readReg 1 :: rest → step s = .next
      { s with inputs := rest,
               reads := ((if s.busy then 1 else 0) + (if s.done then 2 else 0) + (if s.err then 4 else 0) +
                 (if s.mode = .decode then 8 else 0)) :: s.reads }) ∧
    (∀ r v, s.busy = false →
      (r, v) ∈ [(0, 0), (2, s.rawLen), (3, s.strLen), (4, s.errCode.code), (5, s.errPos), (6, s.c.val)] →
      s.inputs = .readReg r :: rest → step s = .next { s with inputs := rest, reads := v :: s.reads }) ∧
    (∀ n v, s.busy = false → n < s.cfg.rawCap → Memory.read s.raw n = some v → s.inputs = .readRaw n :: rest →
      step s = .next { s with inputs := rest, reads := v.toNat :: s.reads }) ∧
    (∀ n v, s.busy = false → n < s.cfg.strCap → Memory.read s.str n = some v → s.inputs = .readStr n :: rest →
      step s = .next { s with inputs := rest, reads := v.toNat :: s.reads })

/-- R50, U3: during lockout a read of a cell or of a register other than STATUS hands back a fresh free value of the cell's or
register's width. R52: an idle read of a cell that holds no value hands back a free value of 8 bits. No state of the block
changes. -/
def Obligations.UnspecifiedReadsAreFreeValues : Prop :=
  ∀ (s : State) (e : Input) (rest : List Input), s.Coherent → s.inputs = e :: rest →
    (∀ w, s.busy = true →
      (∃ n, e = .readRaw n ∧ n < s.cfg.rawCap ∧ w = 8) ∨ (∃ n, e = .readStr n ∧ n < s.cfg.strCap ∧ w = 8) ∨
        (∃ r, e = .readReg r ∧ (r, w) ∈ [(0, 2), (2, s.cfg.lenW), (3, s.cfg.lenW), (4, 3), (5, s.cfg.lenW), (6, 6)]) →
      step s = .next
        { s with inputs := rest, reads := Config.freeValue s.draws % 2 ^ w :: s.reads, draws := s.draws + 1 }) ∧
    (∀ n, s.busy = false → e = .readRaw n → n < s.cfg.rawCap → Memory.read s.raw n = none →
      step s = .next { s with inputs := rest, reads := (Config.freeRawCell n s.losses).toNat :: s.reads }) ∧
    (∀ n, s.busy = false → e = .readStr n → n < s.cfg.strCap → Memory.read s.str n = none →
      step s = .next { s with inputs := rest, reads := (Config.freeStrCell n s.losses).toNat :: s.reads })

/-- R46: no read has a side effect, in any space and in any state: what it hands back is all that changes. Outside lockout two
reads with no write between them hand back the same value, also of a cell that holds none. -/
def Obligations.ReadsHaveNoSideEffect : Prop :=
  ∀ (s t : State) (e : Input) (rest : List Input), (∃ n, e = .readRaw n ∨ e = .readStr n ∨ e = .readReg n) →
    (s.inputs = e :: rest → step s = .next t →
      t = { s with inputs := rest, reads := t.reads, draws := t.draws } ∧ ∃ v, t.reads = v :: s.reads) ∧
    (s.inputs = e :: e :: rest → s.busy = false → step s = .next t →
      ∃ v, t.reads = v :: s.reads ∧ step t = .next { s with inputs := rest, reads := v :: v :: s.reads })

/-- R53, U5: an access at or above a buffer's capacity, or to a register above R6, addresses nothing and is refused.
That it is refused also during lockout is the model's inference (DEDUCED, log 27). -/
def Obligations.AccessesOutsideAreRefused : Prop :=
  ∀ (s : State) (n v : Nat) (b : Byte) (e : Input) (rest : List Input), s.Coherent → s.inputs = e :: rest →
    (s.cfg.rawCap ≤ n → e = .writeRaw n b ∨ e = .readRaw n → step s = .refused (.noSuchCell .raw n)) ∧
    (s.cfg.strCap ≤ n → e = .writeStr n b ∨ e = .readStr n → step s = .refused (.noSuchCell .str n)) ∧
    (6 < n → e = .writeReg n v ∨ e = .readReg n → step s = .refused (.noSuchRegister n))

/-- R52, U2: a step operation whose next operand cell holds no value is refused: it gives no result and raises no error. The cells
are met in the order of the checks (R121, R127, R128): those before hold what their slot's class accepts. (DTAIL with STR_LEN below 5:
log 28.) -/
def Obligations.UnwrittenInputIsRefused : Prop :=
  ∀ s : State, s.Coherent →
    (s.phase = .encBody → s.k < s.rawLen / 2 → Memory.read s.raw (2 * s.k) = none →
      exec .epair s = .refused (.cellHoldsNoValue .raw (2 * s.k))) ∧
    (∀ b0, s.phase = .encBody → s.k < s.rawLen / 2 → Memory.read s.raw (2 * s.k) = some b0 →
      Memory.read s.raw (2 * s.k + 1) = none → exec .epair s = .refused (.cellHoldsNoValue .raw (2 * s.k + 1))) ∧
    (s.phase = .encBody → s.k = s.rawLen / 2 → s.rawLen % 2 = 1 → Memory.read s.raw (2 * s.k) = none →
      exec .etailb s = .refused (.cellHoldsNoValue .raw (2 * s.k))) ∧
    (s.phase = .decFrame → s.strLen % 6 = 5 → Memory.read s.str 0 = none →
      exec .dframe s = .refused (.cellHoldsNoValue .str 0)) ∧
    (s.phase = .decFrame → s.strLen % 6 = 5 → Memory.read s.str 0 = some 0x78 → Memory.read s.str (s.strLen - 1) = none →
      exec .dframe s = .refused (.cellHoldsNoValue .str (s.strLen - 1))) ∧
    (∀ j, j ≤ 4 → s.phase = .decBody → s.k < (s.strLen - 5) / 6 →
      (∀ i, i < j → ∃ ch, Memory.read s.str (1 + 6 * s.k + letterOffset s.cfg i) = some ch ∧
        if i = 0 ∨ i = 2 then vidx ch ≠ none else didx ch ≠ none) →
      Memory.read s.str (1 + 6 * s.k + letterOffset s.cfg j) = none →
      exec .dpair s = .refused (.cellHoldsNoValue .str (1 + 6 * s.k + letterOffset s.cfg j))) ∧
    (s.phase = .decBody → s.k = (s.strLen - 5) / 6 → Memory.read s.str (1 + 6 * s.k) = none →
      exec .dtail s = .refused (.cellHoldsNoValue .str (1 + 6 * s.k))) ∧
    (∀ ch0, s.phase = .decBody → s.k = (s.strLen - 5) / 6 → Memory.read s.str (1 + 6 * s.k) = some ch0 → vidx ch0 ≠ none →
      Memory.read s.str (2 + 6 * s.k) = none → exec .dtail s = .refused (.cellHoldsNoValue .str (2 + 6 * s.k))) ∧
    (∀ ch0 ch1, s.phase = .decBody → s.k = (s.strLen - 5) / 6 → Memory.read s.str (1 + 6 * s.k) = some ch0 →
      vidx ch0 ≠ none → Memory.read s.str (2 + 6 * s.k) = some ch1 → midx ch1 ≠ none →
      Memory.read s.str (3 + 6 * s.k) = none → exec .dtail s = .refused (.cellHoldsNoValue .str (3 + 6 * s.k)))

/-! ### Reset and invariants -/

/-- R195, R196, R32: reset may be applied in any state, also one that breaks R33, and puts every piece of the block's state
to its reset value. That the configuration and the host's side stay is the model's choice (log 20); nothing is said of `losses`
(log 8). -/
def Obligations.ResetAppliesInEveryState : Prop :=
  ∀ (s : State) (rest : List Input), s.inputs = .reset :: rest → ∃ n, step s = .next
    { s with raw := [], str := [], c := 1, k := 0, phase := .idle, mode := .encode, busy := false, done := false,
             err := false, rawLen := 0, strLen := 0, errCode := .noError, errPos := 0, inputs := rest,
             losses := n }

/-- R32, R26, R31: what the host reads after reset: STATUS 0, lengths 0, no error, CSUM 1, no cell holding a value. -/
def Obligations.ResetStateReadsAsTheSpecSays : Prop :=
  State.reset.regView 1 = 0 ∧ State.reset.regView 2 = 0 ∧ State.reset.regView 3 = 0 ∧ State.reset.regView 4 = 0 ∧
  State.reset.regView 5 = 0 ∧ State.reset.regView 6 = 1 ∧ State.reset.k = 0 ∧ State.reset.phase = .idle ∧
  (∀ a, Memory.read State.reset.raw a = none) ∧ ∀ a, Memory.read State.reset.str a = none

/-- The invariant holds after reset. -/
def Obligations.ResetKeepsTheInvariant : Prop := State.reset.Inv

/-- Every step that goes on keeps the invariant: R33 (a) to (h), the canonical form and the capacities of both buffers, the
bound of K and of ERR_POS, the agreement of PHASE with MODE and the lengths. -/
def Obligations.EveryStepKeepsTheInvariant : Prop :=
  ∀ s t : State, s.Inv → step s = .next t → t.Inv

/-- Every meaning keeps the invariant, for every well-formed instruction, also those no step dispatches. -/
def Obligations.EveryInstructionKeepsTheInvariant : Prop :=
  ∀ (i : Instr) (s t : State), s.Inv → i.wf s.cfg = true → exec i s = .next t → t.Inv

/-- R49: under the invariant the engine never forms an index outside a buffer, so no step faults; and the only refusals are
the spec's own, of a cell that holds no value (U2) and of an access that addresses nothing (U5). -/
def Obligations.EngineStaysInsideTheBuffers : Prop :=
  ∀ s : State, s.Inv → (∀ f, step s ≠ .fault f) ∧
    ∀ r, step s = .refused r →
      (∃ b n, r = .cellHoldsNoValue b n) ∨ (∃ b n, r = .noSuchCell b n) ∨ ∃ n, r = .noSuchRegister n

/-- Reading after writing, and the canonical form: every operation on a buffer's contents keeps it. -/
def Obligations.BufferContentsStayCanonical : Prop :=
  ∀ (m : List Host.Cell) (a n : Nat) (v : Byte), Memory.wf m = true →
    (∀ b, Memory.read (Memory.write m a v) b = if b = a then some v else Memory.read m b) ∧
    Memory.wf (Memory.write m a v) = true ∧ Memory.wf (Memory.forgetBelow m n) = true ∧
    (∀ m', Memory.wf m' = true → (∀ b, Memory.read m b = Memory.read m' b) → m = m')

/-! ### Whole operations -/

/-- R108, R206: from any idle state that holds the input, CMD_ENCODE and `n div 2 + 3` engine steps leave `enc(B)` in STR,
its length in STR_LEN and `c_KT` in C; everything else is as R108 says. -/
def Obligations.EncodeOperationComputesEnc : Prop :=
  ∀ (s : State) (bytes : List Byte), s.Inv → s.busy = false → s.inputs = [.writeReg 0 1] → s.HoldsRaw bytes →
    ∃ t, Sys2Proof.core.run (1 + (bytes.length / 2 + 3)) s = .next t ∧
      t = { s with inputs := [], str := t.str, strLen := 6 * (bytes.length / 2) + 5, c := checksumFrom 1 bytes,
                   k := bytes.length / 2, phase := .idle, mode := .encode, busy := false, done := true, err := false,
                   errCode := .noError, errPos := 0 } ∧
      (∀ a, a < t.strLen → Memory.read t.str a = (enc s.cfg bytes)[a]?) ∧
      ∀ a, t.strLen ≤ a → Memory.read t.str a = Memory.read s.str a

/-- R129, R130: from any idle state that holds a string `dec` accepts, CMD_DECODE and `(L - 5) div 6 + 2` engine steps leave
the decoded bytes in RAW and their number in RAW_LEN. -/
def Obligations.DecodeOperationComputesDec : Prop :=
  ∀ (s : State) (chars bytes : List Byte), s.Inv → s.busy = false → s.inputs = [.writeReg 0 2] → s.HoldsStr chars →
    dec s.cfg chars = .ok bytes →
    ∃ t, Sys2Proof.core.run (1 + ((chars.length - 5) / 6 + 2)) s = .next t ∧
      t = { s with inputs := [], raw := t.raw, rawLen := bytes.length, c := checksumFrom 1 bytes,
                   k := (chars.length - 5) / 6, phase := .idle, mode := .decode, busy := false, done := true, err := false,
                   errCode := .noError, errPos := 0 } ∧
      (∀ a, a < bytes.length → Memory.read t.raw a = bytes[a]?) ∧
      ∀ a, bytes.length ≤ a → Memory.read t.raw a = Memory.read s.raw a

/-- R130, R131, R178: from any idle state that holds a string `dec` rejects, CMD_DECODE ends within `(L - 5) div 6 + 2` engine
steps with that kind and position recorded, RAW_LEN 0, STR as it was, and RAW[0 .. 2K-1] holding no value. -/
def Obligations.DecodeOperationRecordsTheFailure : Prop :=
  ∀ (s : State) (chars : List Byte) (kind : ErrorKind) (pos : Nat), s.Inv → s.busy = false →
    s.inputs = [.writeReg 0 2] → s.HoldsStr chars → dec s.cfg chars = .error (kind, pos) →
    ∃ t, Sys2Proof.core.run (1 + ((chars.length - 5) / 6 + 2)) s = .next t ∧
      t = { s with inputs := [], raw := t.raw, rawLen := 0, c := t.c, k := t.k, phase := .idle, mode := .decode,
                   busy := false, done := true, err := true, errCode := kind.errCode, errPos := pos,
                   losses := t.losses } ∧
      t.k ≤ (chars.length - 5) / 6 ∧ (∀ a, a < 2 * t.k → Memory.read t.raw a = none) ∧
      ∀ a, 2 * t.k ≤ a → Memory.read t.raw a = Memory.read s.raw a

/-- R95: after `k` pairs of an ENCODE, and of a DECODE of the string that ENCODE produces, `K` is `k` and `C` is the checksum of the
first `k` pairs, for every `k` up to `KT`. -/
def Obligations.ChecksumIsMirrored : Prop :=
  ∀ (s : State) (bytes : List Byte) (k : Nat), s.Inv → s.busy = false → k ≤ bytes.length / 2 →
    (s.inputs = [.writeReg 0 1] → s.HoldsRaw bytes →
      ∃ t, Sys2Proof.core.run (2 + k) s = .next t ∧ t.phase = .encBody ∧ t.k = k ∧ t.c = checksumAt bytes k) ∧
    (s.inputs = [.writeReg 0 2] → s.HoldsStr (enc s.cfg bytes) →
      ∃ t, Sys2Proof.core.run (2 + k) s = .next t ∧ t.phase = .decBody ∧ t.k = k ∧ t.c = checksumAt bytes k)

/-- R133: decoding an encoded byte sequence gives it back, for every sequence and every place of the hyphen. -/
def Obligations.DecodingInvertsEncoding : Prop :=
  ∀ (cfg : Config) (bytes : List Byte), dec cfg (enc cfg bytes) = .ok bytes

/-- R133 in hardware terms: an ENCODE followed, with no host write in between, by a DECODE ends with ERR = 0 and the input in
RAW again. -/
def Obligations.RoundTripInPlace : Prop :=
  ∀ (s : State) (bytes : List Byte), s.Inv → s.busy = false → s.HoldsRaw bytes →
    s.inputs = .writeReg 0 1 :: (List.replicate (bytes.length / 2 + 3) .engine ++ [.writeReg 0 2]) →
    ∃ t, Sys2Proof.core.run ((1 + (bytes.length / 2 + 3)) + (1 + (bytes.length / 2 + 2))) s = .next t ∧
      t.done = true ∧ t.busy = false ∧ t.err = false ∧ t.HoldsRaw bytes

/-- R109: `enc(B)` starts and ends with the delimiter and has length `6*(n div 2) + 5`; the hyphen occurs exactly at the hyphen
slots, and the delimiter only at the two ends and in the middle of a checksum tail; every character is one of the 24 symbols. -/
def Obligations.EncodedStringsAreFramed : Prop :=
  ∀ (cfg : Config) (bytes : List Byte),
    (enc cfg bytes).length = 6 * (bytes.length / 2) + 5 ∧ (enc cfg bytes).head? = some 0x78 ∧
    (enc cfg bytes).getLast? = some 0x78 ∧
    (∀ a, (enc cfg bytes)[a]? = some 0x2D ↔ IsHyphenSlot cfg (enc cfg bytes).length a) ∧
    (∀ a, (enc cfg bytes)[a]? = some 0x78 ↔
      a = 0 ∨ a = 6 * (bytes.length / 2) + 4 ∨ (bytes.length % 2 = 0 ∧ a = 6 * (bytes.length / 2) + 2)) ∧
    ∀ ch ∈ enc cfg bytes, (∃ i, ch = vowel i) ∨ (∃ i, ch = cons i) ∨ ch = hyphen

/-- R63: every character that the encoder writes is one its slot's class lets it write, and every character of an accepted string is
one its slot's class accepts; a character that the class of a letter or delimiter slot does not accept is never accepted there. -/
def Obligations.CharactersBelongToTheirSlots : Prop :=
  (∀ (cfg : Config) (bytes : List Byte) (a : Nat) (c : Byte), (enc cfg bytes)[a]? = some c →
    slotWrites (slotClass cfg (enc cfg bytes).length a) c) ∧
  ∀ (cfg : Config) (chars bytes : List Byte) (a : Nat) (c : Byte), chars[a]? = some c →
    (dec cfg chars = .ok bytes → slotAccepts (slotClass cfg chars.length a) c) ∧
    (¬ slotAccepts (slotClass cfg chars.length a) c → ∃ f, dec cfg chars = .error f)

/-- R134: an accepted string differs from the encoding of its bytes at hyphen slots only; so two accepted strings that differ
elsewhere decode to different bytes. -/
def Obligations.AcceptedStringsAreCanonical : Prop :=
  ∀ (cfg : Config) (chars bytes : List Byte), dec cfg chars = .ok bytes →
    (enc cfg bytes).length = chars.length ∧
    (∀ a, ¬ IsHyphenSlot cfg chars.length a → (enc cfg bytes)[a]? = chars[a]?) ∧
    ∀ chars', dec cfg chars' = .ok bytes → ∀ a, ¬ IsHyphenSlot cfg chars.length a → chars'[a]? = chars[a]?

/-- R135: a string that differs from `enc(B)` at exactly one offset outside the hyphen slots never decodes to `B`. At an end it
is InvalidFraming there; a character that its letter slot's class does not accept is InvalidCharacter there; a vowel of pair group
or byte tail `g` that puts `hi` or `lo` out of range under the checksum of the first `g` pairs is ChecksumMismatch there, and so is
any other vowel of a checksum tail. -/
def Obligations.CorruptionIsNotSilentlyUndone : Prop :=
  ∀ (cfg : Config) (bytes chars : List Byte) (p : Nat), chars.length = (enc cfg bytes).length → p < chars.length →
    (∀ a, a ≠ p → chars[a]? = (enc cfg bytes)[a]?) → chars[p]? ≠ (enc cfg bytes)[p]? →
    ¬ IsHyphenSlot cfg chars.length p →
    dec cfg chars ≠ .ok bytes ∧
    (p = 0 ∨ p = chars.length - 1 → dec cfg chars = .error (.invalidFraming, p)) ∧
    (∀ ch, p ≠ 0 → p ≠ chars.length - 1 → chars[p]? = some ch → ¬ slotAccepts (slotClass cfg chars.length p) ch →
      dec cfg chars = .error (.invalidCharacter, p)) ∧
    (∀ (g : Nat) (i : Fin 6), g < (bytes.length + 1) / 2 → chars[p]? = some (vowel i) →
      (p = 1 + 6 * g ∧ 4 ≤ (i.val + 6 - (checksumAt bytes g).val % 6) % 6) ∨
        (p = 3 + 6 * g ∧ 4 ≤ (i.val + 6 - (checksumAt bytes g).val / 6) % 6) →
      dec cfg chars = .error (.checksumMismatch, p)) ∧
    (∀ i : Fin 6, bytes.length % 2 = 0 → p = 1 + 6 * (bytes.length / 2) ∨ p = 3 + 6 * (bytes.length / 2) →
      chars[p]? = some (vowel i) → dec cfg chars = .error (.checksumMismatch, p))

/-- R136: a string whose length is not 5 modulo 6 fails with InvalidLength and its length, whatever its characters; and
DFRAME then answers so whatever STR holds, so it reads no cell of it. -/
def Obligations.WrongLengthAlwaysFails : Prop :=
  (∀ (cfg : Config) (chars : List Byte), chars.length % 6 ≠ 5 →
    dec cfg chars = .error (.invalidLength, chars.length)) ∧
  ∀ (s : State) (m : List Host.Cell), s.phase = .decFrame → s.strLen % 6 ≠ 5 →
    exec .dframe { s with str := m } = .next (raiseError .invalidLength s.strLen { s with str := m, c := 1, k := 0 })

/-! ### Pseudo-instructions -/

/-- R84: `encode(B)`, performed from an idle state as host operations, with any schedule of polls: once the engine has had its
`n div 2 + 3` turns a poll finds DONE and what the host then reads from STR is `enc(B)`; before that the host is still polling a
busy block. The operation leaves the input in RAW and what waits at the port untouched. -/
def Obligations.EncodeCallAnswersEnc : Prop :=
  ∀ (s : State) (bytes : List Byte) (polls : List Nat), s.Inv → s.busy = false → bytes.length ≤ s.cfg.rawCap →
    (bytes.length / 2 + 3 ≤ polls.sum →
      ∃ t, encodeCall bytes polls s = .ok ((enc s.cfg bytes).map BitVec.toNat, t) ∧ t.done = true ∧ t.busy = false ∧
        t.err = false ∧ t.HoldsRaw bytes ∧ t.inputs = s.inputs) ∧
    (polls.sum < bytes.length / 2 + 3 →
      ∃ t, encodeCall bytes polls s = .error (.stillPolling t) ∧ t.busy = true ∧ t.done = false)

/-- R84: `decode(S)`, performed from an idle state as host operations, with any schedule of polls: once the engine has had
`(L - 5) div 6 + 2` turns a poll finds DONE and what the host then reads is `dec(S)`, the bytes from RAW, or the error's code and
position; a failure may be found earlier, but a schedule that ends without an answer leaves the host polling a busy block. -/
def Obligations.DecodeCallAnswersDec : Prop :=
  ∀ (s : State) (chars : List Byte) (polls : List Nat), s.Inv → s.busy = false → chars.length ≤ s.cfg.strCap →
    ((chars.length - 5) / 6 + 2 ≤ polls.sum → ∃ r t, decodeCall chars polls s = .ok (r, t)) ∧
    (∀ r t, decodeCall chars polls s = .ok (r, t) →
      (r = match dec s.cfg chars with
        | .ok bytes => .ok (bytes.map BitVec.toNat)
        | .error f => .error (f.1.errCode.code, f.2)) ∧
      t.done = true ∧ t.busy = false ∧ t.HoldsStr chars ∧ t.inputs = s.inputs) ∧
    ∀ e, decodeCall chars polls s = .error e → ∃ t, e = .stillPolling t ∧ t.busy = true ∧ t.done = false
end

