-- ==== Sys2Proof/Laws/Memory.lean ====
section
/-! SUPPORT. What the operations on a buffer's contents do: reading after writing, and that each keeps the canonical form and
the capacity. -/

namespace Sys2Proof.Machine

@[simp] theorem Memory.read_nil (a : Nat) : Memory.read [] a = none := rfl

theorem Memory.read_cons (b : Nat) (v : Byte) (m : List Host.Cell) (a : Nat) :
    Memory.read ((b, v) :: m) a = if a = b then some v else Memory.read m a := rfl

/-- Reading after a write: the written cell holds the value, every other cell what it held. -/
theorem Memory.read_write (m : List Host.Cell) (a b : Nat) (v : Byte) :
    Memory.read (Memory.write m a v) b = if b = a then some v else Memory.read m b := by
  induction m with
  | nil => simp [Memory.write, Memory.read_cons]
  | cons cell rest ih =>
    obtain ⟨c, w⟩ := cell
    simp only [Memory.write]
    split
    · simp [Memory.read_cons]
    · split
      · next h => subst h; simp only [Memory.read_cons]; split <;> rfl
      · simp only [Memory.read_cons, ih]
        split
        · next h => subst h; split <;> simp_all
        · rfl

@[simp] theorem Memory.writeAll_nil (m : List Host.Cell) : Memory.writeAll m [] = m := rfl

@[simp] theorem Memory.writeAll_cons (m : List Host.Cell) (cell : Host.Cell) (cells : List Host.Cell) :
    Memory.writeAll m (cell :: cells) = Memory.writeAll (Memory.write m cell.1 cell.2) cells := rfl

/-- A cell none of the stores names reads as before. -/
theorem Memory.read_writeAll_of_not_mem (m cells : List Host.Cell) (a : Nat) (h : ∀ c ∈ cells, c.1 ≠ a) :
    Memory.read (Memory.writeAll m cells) a = Memory.read m a := by
  induction cells generalizing m with
  | nil => rfl
  | cons c rest ih =>
    rw [Memory.writeAll_cons, ih _ fun d hd => h d (List.mem_cons_of_mem _ hd), Memory.read_write,
      if_neg fun e => h c List.mem_cons_self e.symm]

/-- Forgetting the cells below `n` leaves those from `n` on. -/
theorem Memory.read_forgetBelow (m : List Host.Cell) (n a : Nat) :
    Memory.read (Memory.forgetBelow m n) a = if a < n then none else Memory.read m a := by
  induction m with
  | nil => simp [Memory.forgetBelow]
  | cons cell rest ih =>
    obtain ⟨b, v⟩ := cell
    simp only [Memory.forgetBelow, List.filter_cons] at ih ⊢
    by_cases hb : n ≤ b
    · simp only [hb, decide_true, if_true, Memory.read_cons, ih]
      split
      · next h => subst h; rw [if_neg (by omega)]
      · rfl
    · simp only [hb, decide_false, Memory.read_cons]
      rw [if_neg (by simp), ih]
      by_cases ha : a < n
      · simp [ha]
      · rw [if_neg ha, if_neg ha, if_neg (by omega)]

@[simp] theorem Memory.forgetBelow_zero (m : List Host.Cell) : Memory.forgetBelow m 0 = m := by
  simp [Memory.forgetBelow]

/-- The canonical form of a list with a first cell: the first index is below all others. -/
theorem Memory.wf_cons (a : Nat) (v : Byte) (m : List Host.Cell) :
    Memory.wf ((a, v) :: m) = true ↔ (∀ c ∈ m, a < c.1) ∧ Memory.wf m = true := by
  induction m generalizing a v with
  | nil => simp [Memory.wf]
  | cons cell rest ih =>
    obtain ⟨b, w⟩ := cell
    simp only [Memory.wf, Bool.and_eq_true, decide_eq_true_eq, List.mem_cons, forall_eq_or_imp, and_assoc]
    rw [ih]
    constructor
    · rintro ⟨h1, h2, h3⟩
      exact ⟨h1, fun c hc => Nat.lt_trans h1 (h2 c hc), h2, h3⟩
    · rintro ⟨h1, -, h2, h3⟩
      exact ⟨h1, h2, h3⟩

/-- A cell of a list after a write is the written one or was there before. -/
theorem Memory.mem_write (m : List Host.Cell) (a : Nat) (v : Byte) (c : Host.Cell) (h : c ∈ Memory.write m a v) :
    c = (a, v) ∨ c ∈ m := by
  induction m with
  | nil => simpa [Memory.write] using h
  | cons cell rest ih =>
    obtain ⟨b, w⟩ := cell
    simp only [Memory.write] at h
    split at h
    · simpa using h
    · split at h
      · rcases List.mem_cons.mp h with h | h
        · exact .inl h
        · exact .inr (List.mem_cons_of_mem _ h)
      · rcases List.mem_cons.mp h with h | h
        · exact .inr (h ▸ List.mem_cons_self)
        · exact (ih h).imp_right (List.mem_cons_of_mem _)

/-- A write keeps the canonical form. -/
theorem Memory.wf_write (m : List Host.Cell) (a : Nat) (v : Byte) (h : Memory.wf m = true) :
    Memory.wf (Memory.write m a v) = true := by
  induction m with
  | nil => rfl
  | cons cell rest ih =>
    obtain ⟨b, w⟩ := cell
    rw [Memory.wf_cons] at h
    simp only [Memory.write]
    split
    · next hab =>
      rw [Memory.wf_cons, Memory.wf_cons]
      refine ⟨fun c hc => ?_, h⟩
      rcases List.mem_cons.mp hc with rfl | hc
      · exact hab
      · exact Nat.lt_trans hab (h.1 c hc)
    · split
      · next hab => subst hab; rw [Memory.wf_cons]; exact h
      · rw [Memory.wf_cons]
        refine ⟨fun c hc => ?_, ih h.2⟩
        rcases Memory.mem_write _ _ _ _ hc with rfl | hc
        · show b < a; omega
        · exact h.1 c hc

/-- Several writes keep the canonical form. -/
theorem Memory.wf_writeAll (m cells : List Host.Cell) (h : Memory.wf m = true) :
    Memory.wf (Memory.writeAll m cells) = true := by
  induction cells generalizing m with
  | nil => exact h
  | cons c rest ih => exact ih _ (Memory.wf_write m c.1 c.2 h)

/-- Forgetting cells keeps the canonical form. -/
theorem Memory.wf_forgetBelow (m : List Host.Cell) (n : Nat) (h : Memory.wf m = true) :
    Memory.wf (Memory.forgetBelow m n) = true := by
  induction m with
  | nil => rfl
  | cons cell rest ih =>
    obtain ⟨b, w⟩ := cell
    rw [Memory.wf_cons] at h
    simp only [Memory.forgetBelow, List.filter_cons]
    split
    · rw [Memory.wf_cons]
      exact ⟨fun c hc => h.1 c (List.mem_filter.mp hc).1, ih h.2⟩
    · exact ih h.2

theorem Memory.within_iff (cap : Nat) (m : List Host.Cell) :
    Memory.within cap m = true ↔ ∀ c ∈ m, c.1 < cap := by
  simp [Memory.within]

/-- Writes below the capacity keep the contents inside it. -/
theorem Memory.within_writeAll (cap : Nat) (m cells : List Host.Cell) (h : Memory.within cap m = true)
    (hc : ∀ c ∈ cells, c.1 < cap) : Memory.within cap (Memory.writeAll m cells) = true := by
  induction cells generalizing m with
  | nil => exact h
  | cons c rest ih =>
    refine ih _ ?_ fun d hd => hc d (List.mem_cons_of_mem _ hd)
    rw [Memory.within_iff] at h ⊢
    intro d hd
    rcases Memory.mem_write _ _ _ _ hd with rfl | hd
    · exact hc c List.mem_cons_self
    · exact h d hd

/-- Forgetting cells keeps the contents inside the capacity. -/
theorem Memory.within_forgetBelow (cap n : Nat) (m : List Host.Cell) (h : Memory.within cap m = true) :
    Memory.within cap (Memory.forgetBelow m n) = true := by
  rw [Memory.within_iff] at h ⊢
  exact fun c hc => h c (List.mem_filter.mp hc).1

end Sys2Proof.Machine
end

