-- ==== Sys2Proof/Laws/State.lean ====
section
/-! SUPPORT. One lemma per field for each named update of the state, so that no later proof unfolds a record update. -/

namespace Sys2Proof.Machine

/-! ### raiseError -/

@[simp] theorem raiseError_cfg (kind : ErrorKind) (pos : Nat) (s : State) : (raiseError kind pos s).cfg = s.cfg := rfl
@[simp] theorem raiseError_raw (kind : ErrorKind) (pos : Nat) (s : State) : (raiseError kind pos s).raw = Memory.forgetBelow s.raw (2 * s.k) := rfl
@[simp] theorem raiseError_str (kind : ErrorKind) (pos : Nat) (s : State) : (raiseError kind pos s).str = s.str := rfl
@[simp] theorem raiseError_c (kind : ErrorKind) (pos : Nat) (s : State) : (raiseError kind pos s).c = s.c := rfl
@[simp] theorem raiseError_k (kind : ErrorKind) (pos : Nat) (s : State) : (raiseError kind pos s).k = s.k := rfl
@[simp] theorem raiseError_phase (kind : ErrorKind) (pos : Nat) (s : State) : (raiseError kind pos s).phase = .idle := rfl
@[simp] theorem raiseError_mode (kind : ErrorKind) (pos : Nat) (s : State) : (raiseError kind pos s).mode = s.mode := rfl
@[simp] theorem raiseError_busy (kind : ErrorKind) (pos : Nat) (s : State) : (raiseError kind pos s).busy = false := rfl
@[simp] theorem raiseError_done (kind : ErrorKind) (pos : Nat) (s : State) : (raiseError kind pos s).done = true := rfl
@[simp] theorem raiseError_err (kind : ErrorKind) (pos : Nat) (s : State) : (raiseError kind pos s).err = true := rfl
@[simp] theorem raiseError_rawLen (kind : ErrorKind) (pos : Nat) (s : State) : (raiseError kind pos s).rawLen = 0 := rfl
@[simp] theorem raiseError_strLen (kind : ErrorKind) (pos : Nat) (s : State) : (raiseError kind pos s).strLen = s.strLen := rfl
@[simp] theorem raiseError_errCode (kind : ErrorKind) (pos : Nat) (s : State) : (raiseError kind pos s).errCode = kind.errCode := rfl
@[simp] theorem raiseError_errPos (kind : ErrorKind) (pos : Nat) (s : State) : (raiseError kind pos s).errPos = pos := rfl
@[simp] theorem raiseError_inputs (kind : ErrorKind) (pos : Nat) (s : State) : (raiseError kind pos s).inputs = s.inputs := rfl
@[simp] theorem raiseError_reads (kind : ErrorKind) (pos : Nat) (s : State) : (raiseError kind pos s).reads = s.reads := rfl
@[simp] theorem raiseError_draws (kind : ErrorKind) (pos : Nat) (s : State) : (raiseError kind pos s).draws = s.draws := rfl
@[simp] theorem raiseError_losses (kind : ErrorKind) (pos : Nat) (s : State) : (raiseError kind pos s).losses = s.losses + 1 := rfl

/-! ### clearError -/

@[simp] theorem clearError_cfg (s : State) : (clearError s).cfg = s.cfg := rfl
@[simp] theorem clearError_raw (s : State) : (clearError s).raw = s.raw := rfl
@[simp] theorem clearError_str (s : State) : (clearError s).str = s.str := rfl
@[simp] theorem clearError_c (s : State) : (clearError s).c = s.c := rfl
@[simp] theorem clearError_k (s : State) : (clearError s).k = s.k := rfl
@[simp] theorem clearError_phase (s : State) : (clearError s).phase = s.phase := rfl
@[simp] theorem clearError_mode (s : State) : (clearError s).mode = s.mode := rfl
@[simp] theorem clearError_busy (s : State) : (clearError s).busy = s.busy := rfl
@[simp] theorem clearError_done (s : State) : (clearError s).done = s.done := rfl
@[simp] theorem clearError_err (s : State) : (clearError s).err = false := rfl
@[simp] theorem clearError_rawLen (s : State) : (clearError s).rawLen = s.rawLen := rfl
@[simp] theorem clearError_strLen (s : State) : (clearError s).strLen = s.strLen := rfl
@[simp] theorem clearError_errCode (s : State) : (clearError s).errCode = .noError := rfl
@[simp] theorem clearError_errPos (s : State) : (clearError s).errPos = 0 := rfl
@[simp] theorem clearError_inputs (s : State) : (clearError s).inputs = s.inputs := rfl
@[simp] theorem clearError_reads (s : State) : (clearError s).reads = s.reads := rfl
@[simp] theorem clearError_draws (s : State) : (clearError s).draws = s.draws := rfl
@[simp] theorem clearError_losses (s : State) : (clearError s).losses = s.losses := rfl

/-! ### acceptCommand -/

@[simp] theorem acceptCommand_cfg (m : Mode) (p : Phase) (s : State) : (acceptCommand m p s).cfg = s.cfg := rfl
@[simp] theorem acceptCommand_raw (m : Mode) (p : Phase) (s : State) : (acceptCommand m p s).raw = s.raw := rfl
@[simp] theorem acceptCommand_str (m : Mode) (p : Phase) (s : State) : (acceptCommand m p s).str = s.str := rfl
@[simp] theorem acceptCommand_c (m : Mode) (p : Phase) (s : State) : (acceptCommand m p s).c = s.c := rfl
@[simp] theorem acceptCommand_k (m : Mode) (p : Phase) (s : State) : (acceptCommand m p s).k = s.k := rfl
@[simp] theorem acceptCommand_phase (m : Mode) (p : Phase) (s : State) : (acceptCommand m p s).phase = p := rfl
@[simp] theorem acceptCommand_mode (m : Mode) (p : Phase) (s : State) : (acceptCommand m p s).mode = m := rfl
@[simp] theorem acceptCommand_busy (m : Mode) (p : Phase) (s : State) : (acceptCommand m p s).busy = true := rfl
@[simp] theorem acceptCommand_done (m : Mode) (p : Phase) (s : State) : (acceptCommand m p s).done = false := rfl
@[simp] theorem acceptCommand_err (m : Mode) (p : Phase) (s : State) : (acceptCommand m p s).err = false := rfl
@[simp] theorem acceptCommand_rawLen (m : Mode) (p : Phase) (s : State) : (acceptCommand m p s).rawLen = s.rawLen := rfl
@[simp] theorem acceptCommand_strLen (m : Mode) (p : Phase) (s : State) : (acceptCommand m p s).strLen = s.strLen := rfl
@[simp] theorem acceptCommand_errCode (m : Mode) (p : Phase) (s : State) : (acceptCommand m p s).errCode = .noError := rfl
@[simp] theorem acceptCommand_errPos (m : Mode) (p : Phase) (s : State) : (acceptCommand m p s).errPos = 0 := rfl
@[simp] theorem acceptCommand_inputs (m : Mode) (p : Phase) (s : State) : (acceptCommand m p s).inputs = s.inputs := rfl
@[simp] theorem acceptCommand_reads (m : Mode) (p : Phase) (s : State) : (acceptCommand m p s).reads = s.reads := rfl
@[simp] theorem acceptCommand_draws (m : Mode) (p : Phase) (s : State) : (acceptCommand m p s).draws = s.draws := rfl
@[simp] theorem acceptCommand_losses (m : Mode) (p : Phase) (s : State) : (acceptCommand m p s).losses = s.losses := rfl

/-! ### endOperation -/

@[simp] theorem endOperation_cfg (s : State) : (endOperation s).cfg = s.cfg := rfl
@[simp] theorem endOperation_raw (s : State) : (endOperation s).raw = s.raw := rfl
@[simp] theorem endOperation_str (s : State) : (endOperation s).str = s.str := rfl
@[simp] theorem endOperation_c (s : State) : (endOperation s).c = s.c := rfl
@[simp] theorem endOperation_k (s : State) : (endOperation s).k = s.k := rfl
@[simp] theorem endOperation_phase (s : State) : (endOperation s).phase = .idle := rfl
@[simp] theorem endOperation_mode (s : State) : (endOperation s).mode = s.mode := rfl
@[simp] theorem endOperation_busy (s : State) : (endOperation s).busy = false := rfl
@[simp] theorem endOperation_done (s : State) : (endOperation s).done = true := rfl
@[simp] theorem endOperation_err (s : State) : (endOperation s).err = s.err := rfl
@[simp] theorem endOperation_rawLen (s : State) : (endOperation s).rawLen = s.rawLen := rfl
@[simp] theorem endOperation_strLen (s : State) : (endOperation s).strLen = s.strLen := rfl
@[simp] theorem endOperation_errCode (s : State) : (endOperation s).errCode = s.errCode := rfl
@[simp] theorem endOperation_errPos (s : State) : (endOperation s).errPos = s.errPos := rfl
@[simp] theorem endOperation_inputs (s : State) : (endOperation s).inputs = s.inputs := rfl
@[simp] theorem endOperation_reads (s : State) : (endOperation s).reads = s.reads := rfl
@[simp] theorem endOperation_draws (s : State) : (endOperation s).draws = s.draws := rfl
@[simp] theorem endOperation_losses (s : State) : (endOperation s).losses = s.losses := rfl

/-! ### answer -/

@[simp] theorem answer_cfg (v : Nat) (s : State) : (answer v s).cfg = s.cfg := rfl
@[simp] theorem answer_raw (v : Nat) (s : State) : (answer v s).raw = s.raw := rfl
@[simp] theorem answer_str (v : Nat) (s : State) : (answer v s).str = s.str := rfl
@[simp] theorem answer_c (v : Nat) (s : State) : (answer v s).c = s.c := rfl
@[simp] theorem answer_k (v : Nat) (s : State) : (answer v s).k = s.k := rfl
@[simp] theorem answer_phase (v : Nat) (s : State) : (answer v s).phase = s.phase := rfl
@[simp] theorem answer_mode (v : Nat) (s : State) : (answer v s).mode = s.mode := rfl
@[simp] theorem answer_busy (v : Nat) (s : State) : (answer v s).busy = s.busy := rfl
@[simp] theorem answer_done (v : Nat) (s : State) : (answer v s).done = s.done := rfl
@[simp] theorem answer_err (v : Nat) (s : State) : (answer v s).err = s.err := rfl
@[simp] theorem answer_rawLen (v : Nat) (s : State) : (answer v s).rawLen = s.rawLen := rfl
@[simp] theorem answer_strLen (v : Nat) (s : State) : (answer v s).strLen = s.strLen := rfl
@[simp] theorem answer_errCode (v : Nat) (s : State) : (answer v s).errCode = s.errCode := rfl
@[simp] theorem answer_errPos (v : Nat) (s : State) : (answer v s).errPos = s.errPos := rfl
@[simp] theorem answer_inputs (v : Nat) (s : State) : (answer v s).inputs = s.inputs := rfl
@[simp] theorem answer_reads (v : Nat) (s : State) : (answer v s).reads = v :: s.reads := rfl
@[simp] theorem answer_draws (v : Nat) (s : State) : (answer v s).draws = s.draws := rfl
@[simp] theorem answer_losses (v : Nat) (s : State) : (answer v s).losses = s.losses := rfl

/-! ### answerFree -/

@[simp] theorem answerFree_cfg (w : Nat) (s : State) : (answerFree w s).cfg = s.cfg := rfl
@[simp] theorem answerFree_raw (w : Nat) (s : State) : (answerFree w s).raw = s.raw := rfl
@[simp] theorem answerFree_str (w : Nat) (s : State) : (answerFree w s).str = s.str := rfl
@[simp] theorem answerFree_c (w : Nat) (s : State) : (answerFree w s).c = s.c := rfl
@[simp] theorem answerFree_k (w : Nat) (s : State) : (answerFree w s).k = s.k := rfl
@[simp] theorem answerFree_phase (w : Nat) (s : State) : (answerFree w s).phase = s.phase := rfl
@[simp] theorem answerFree_mode (w : Nat) (s : State) : (answerFree w s).mode = s.mode := rfl
@[simp] theorem answerFree_busy (w : Nat) (s : State) : (answerFree w s).busy = s.busy := rfl
@[simp] theorem answerFree_done (w : Nat) (s : State) : (answerFree w s).done = s.done := rfl
@[simp] theorem answerFree_err (w : Nat) (s : State) : (answerFree w s).err = s.err := rfl
@[simp] theorem answerFree_rawLen (w : Nat) (s : State) : (answerFree w s).rawLen = s.rawLen := rfl
@[simp] theorem answerFree_strLen (w : Nat) (s : State) : (answerFree w s).strLen = s.strLen := rfl
@[simp] theorem answerFree_errCode (w : Nat) (s : State) : (answerFree w s).errCode = s.errCode := rfl
@[simp] theorem answerFree_errPos (w : Nat) (s : State) : (answerFree w s).errPos = s.errPos := rfl
@[simp] theorem answerFree_inputs (w : Nat) (s : State) : (answerFree w s).inputs = s.inputs := rfl
@[simp] theorem answerFree_reads (w : Nat) (s : State) : (answerFree w s).reads = Config.freeValue s.draws % 2 ^ w :: s.reads := rfl
@[simp] theorem answerFree_draws (w : Nat) (s : State) : (answerFree w s).draws = s.draws + 1 := rfl
@[simp] theorem answerFree_losses (w : Nat) (s : State) : (answerFree w s).losses = s.losses := rfl

/-! ### resetBlock -/

@[simp] theorem resetBlock_cfg (s : State) : (resetBlock s).cfg = s.cfg := rfl
@[simp] theorem resetBlock_raw (s : State) : (resetBlock s).raw = [] := rfl
@[simp] theorem resetBlock_str (s : State) : (resetBlock s).str = [] := rfl
@[simp] theorem resetBlock_c (s : State) : (resetBlock s).c = 1 := rfl
@[simp] theorem resetBlock_k (s : State) : (resetBlock s).k = 0 := rfl
@[simp] theorem resetBlock_phase (s : State) : (resetBlock s).phase = .idle := rfl
@[simp] theorem resetBlock_mode (s : State) : (resetBlock s).mode = .encode := rfl
@[simp] theorem resetBlock_busy (s : State) : (resetBlock s).busy = false := rfl
@[simp] theorem resetBlock_done (s : State) : (resetBlock s).done = false := rfl
@[simp] theorem resetBlock_err (s : State) : (resetBlock s).err = false := rfl
@[simp] theorem resetBlock_rawLen (s : State) : (resetBlock s).rawLen = 0 := rfl
@[simp] theorem resetBlock_strLen (s : State) : (resetBlock s).strLen = 0 := rfl
@[simp] theorem resetBlock_errCode (s : State) : (resetBlock s).errCode = .noError := rfl
@[simp] theorem resetBlock_errPos (s : State) : (resetBlock s).errPos = 0 := rfl
@[simp] theorem resetBlock_inputs (s : State) : (resetBlock s).inputs = s.inputs := rfl
@[simp] theorem resetBlock_reads (s : State) : (resetBlock s).reads = s.reads := rfl
@[simp] theorem resetBlock_draws (s : State) : (resetBlock s).draws = s.draws := rfl
@[simp] theorem resetBlock_losses (s : State) : (resetBlock s).losses = s.losses + 1 := rfl

end Sys2Proof.Machine
end

