-- ==== Sys2Proof/Laws/Ops.lean ====
section
/-! SUPPORT. What each shared operation can do, once: when it answers, and what its answer is. -/

namespace Sys2Proof.Machine

/-! ### The engine's reads and writes -/

/-- A cell inside the buffer that holds a value is read. -/
theorem readRaw_of_read {s : State} {i : Nat} {v : Byte} (hi : i < s.cfg.rawCap) (h : Memory.read s.raw i = some v) :
    readRaw i s = .ok v := by
  simp [readRaw, h, Nat.not_le.mpr hi]

theorem readRaw_ok {s : State} {i : Nat} {v : Byte} (h : readRaw i s = .ok v) :
    i < s.cfg.rawCap ∧ Memory.read s.raw i = some v := by
  unfold readRaw at h
  split at h
  · cases h
  · split at h
    · cases h; exact ⟨by omega, ‹_›⟩
    · cases h

/-- A read that fails is a refusal of an unwritten cell or an index outside the buffer; it never raises. -/
theorem readRaw_error {s : State} {i : Nat} {e : Stop} (h : readRaw i s = .error e) :
    (s.cfg.rawCap ≤ i ∧ e = .fault (.engineIndexOutside .raw i)) ∨
      (i < s.cfg.rawCap ∧ Memory.read s.raw i = none ∧ e = .refuse (.cellHoldsNoValue .raw i)) := by
  unfold readRaw at h
  split at h
  · cases h; exact .inl ⟨‹_›, rfl⟩
  · split at h
    · cases h
    · cases h; exact .inr ⟨by omega, ‹_›, rfl⟩

theorem readStr_of_read {s : State} {i : Nat} {v : Byte} (hi : i < s.cfg.strCap) (h : Memory.read s.str i = some v) :
    readStr i s = .ok v := by
  simp [readStr, h, Nat.not_le.mpr hi]

theorem readStr_ok {s : State} {i : Nat} {v : Byte} (h : readStr i s = .ok v) :
    i < s.cfg.strCap ∧ Memory.read s.str i = some v := by
  unfold readStr at h
  split at h
  · cases h
  · split at h
    · cases h; exact ⟨by omega, ‹_›⟩
    · cases h

theorem readStr_error {s : State} {i : Nat} {e : Stop} (h : readStr i s = .error e) :
    (s.cfg.strCap ≤ i ∧ e = .fault (.engineIndexOutside .str i)) ∨
      (i < s.cfg.strCap ∧ Memory.read s.str i = none ∧ e = .refuse (.cellHoldsNoValue .str i)) := by
  unfold readStr at h
  split at h
  · cases h; exact .inl ⟨‹_›, rfl⟩
  · split at h
    · cases h
    · cases h; exact .inr ⟨by omega, ‹_›, rfl⟩

theorem firstOutside_none {cap : Nat} {cells : List Host.Cell} :
    firstOutside cap cells = none ↔ ∀ c ∈ cells, c.1 < cap := by
  simp [firstOutside]

theorem storeStr_of_inside {s : State} {cells : List Host.Cell} (h : ∀ c ∈ cells, c.1 < s.cfg.strCap) :
    storeStr cells s = .ok { s with str := Memory.writeAll s.str cells } := by
  simp [storeStr, firstOutside_none.mpr h]

theorem storeStr_ok {s t : State} {cells : List Host.Cell} (h : storeStr cells s = .ok t) :
    (∀ c ∈ cells, c.1 < s.cfg.strCap) ∧ t = { s with str := Memory.writeAll s.str cells } := by
  unfold storeStr at h
  split at h
  · cases h
  · cases h; exact ⟨firstOutside_none.mp ‹_›, rfl⟩

/-- A store that fails is an index outside the buffer. -/
theorem storeStr_error {s : State} {cells : List Host.Cell} {e : Stop} (h : storeStr cells s = .error e) :
    (∃ c ∈ cells, s.cfg.strCap ≤ c.1) ∧ ∃ i, e = .fault (.engineIndexOutside .str i) := by
  unfold storeStr at h
  split at h
  · next i hi =>
    cases h
    refine ⟨?_, i, rfl⟩
    by_contra hc
    rw [firstOutside_none.mpr fun c hm => Nat.lt_of_not_le fun hle => hc ⟨c, hm, hle⟩] at hi
    cases hi
  · cases h

theorem storeRaw_of_inside {s : State} {cells : List Host.Cell} (h : ∀ c ∈ cells, c.1 < s.cfg.rawCap) :
    storeRaw cells s = .ok { s with raw := Memory.writeAll s.raw cells } := by
  simp [storeRaw, firstOutside_none.mpr h]

theorem storeRaw_ok {s t : State} {cells : List Host.Cell} (h : storeRaw cells s = .ok t) :
    (∀ c ∈ cells, c.1 < s.cfg.rawCap) ∧ t = { s with raw := Memory.writeAll s.raw cells } := by
  unfold storeRaw at h
  split at h
  · cases h
  · cases h; exact ⟨firstOutside_none.mp ‹_›, rfl⟩

theorem storeRaw_error {s : State} {cells : List Host.Cell} {e : Stop} (h : storeRaw cells s = .error e) :
    (∃ c ∈ cells, s.cfg.rawCap ≤ c.1) ∧ ∃ i, e = .fault (.engineIndexOutside .raw i) := by
  unfold storeRaw at h
  split at h
  · next i hi =>
    cases h
    refine ⟨?_, i, rfl⟩
    by_contra hc
    rw [firstOutside_none.mpr fun c hm => Nat.lt_of_not_le fun hle => hc ⟨c, hm, hle⟩] at hi
    cases hi
  · cases h

/-! ### Sequencing and ending -/

/-- A sequence of two parts succeeds when both do. -/
theorem bind_ok {ε α β : Type} {x : Except ε α} {f : α → Except ε β} {b : β} (h : (x >>= f) = .ok b) :
    ∃ a, x = .ok a ∧ f a = .ok b := by
  cases x with
  | error e => cases h
  | ok a => exact ⟨a, rfl, h⟩

/-- A sequence of two parts fails with the first failure. -/
theorem bind_error {ε α β : Type} {x : Except ε α} {f : α → Except ε β} {e : ε} (h : (x >>= f) = .error e) :
    x = .error e ∨ ∃ a, x = .ok a ∧ f a = .error e := by
  cases x with
  | error e' => cases h; exact .inl rfl
  | ok a => exact .inr ⟨a, rfl, h⟩

@[simp] theorem ok_bind {ε α β : Type} (a : α) (f : α → Except ε β) : (Except.ok a >>= f) = f a := rfl

@[simp] theorem error_bind {ε α β : Type} (e : ε) (f : α → Except ε β) : (Except.error e >>= f) = Except.error e := rfl

@[simp] theorem settle_ok (s t : State) : settle s (.ok t) = .next t := rfl

@[simp] theorem settle_raise (s : State) (f : Failure) :
    settle s (.error (.raise f)) = .next (raiseError f.1 f.2 s) := rfl

@[simp] theorem settle_refuse (s : State) (r : Refusal) : settle s (.error (.refuse r)) = .refused r := rfl

@[simp] theorem settle_fault (s : State) (r : Fault) : settle s (.error (.fault r)) = .fault r := rfl

/-- A step operation that goes on ends with its result or with the error entry. -/
theorem settle_next {s t : State} {r : Except Stop State} (h : settle s r = .next t) :
    r = .ok t ∨ ∃ f, r = .error (.raise f) ∧ t = raiseError f.1 f.2 s := by
  cases r with
  | ok u => cases h; exact .inl rfl
  | error e =>
    cases e with
    | raise f => cases h; exact .inr ⟨f, rfl, rfl⟩
    | refuse r => cases h
    | fault r => cases h

theorem settle_fault_inv {s : State} {r : Except Stop State} {f : Fault} (h : settle s r = .fault f) :
    r = .error (.fault f) := by
  cases r with
  | ok u => cases h
  | error e => cases e <;> cases h; rfl

theorem settle_refused_inv {s : State} {r : Except Stop State} {f : Refusal} (h : settle s r = .refused f) :
    r = .error (.refuse f) := by
  cases r with
  | ok u => cases h
  | error e => cases e <;> cases h; rfl

theorem whenEnabled_pos {p : Prop} [Decidable p] (h : p) (r : Result) : whenEnabled p r = r := if_pos h

theorem whenEnabled_neg {p : Prop} [Decidable p] (h : ¬ p) (r : Result) : whenEnabled p r = .refused .notEnabled := if_neg h

theorem whenEnabled_next {p : Prop} [Decidable p] {r : Result} {t : State} (h : whenEnabled p r = .next t) :
    p ∧ r = .next t := by
  unfold whenEnabled at h
  split at h
  · exact ⟨‹_›, h⟩
  · cases h

/-! ### Lookups: only InvalidCharacter, at the slot's own offset -/

theorem vowelOf_ok {p : Nat} {ch : Byte} {i : Fin 6} : vowelOf p ch = .ok i ↔ vidx ch = some i := by
  unfold vowelOf; split <;> simp_all

theorem vowelOf_error {p : Nat} {ch : Byte} {f : Failure} :
    vowelOf p ch = .error f ↔ vidx ch = none ∧ f = (.invalidCharacter, p) := by
  unfold vowelOf; cases h : vidx ch <;> simp [eq_comm]

theorem dataOf_ok {p : Nat} {ch : Byte} {i : BitVec 4} : dataOf p ch = .ok i ↔ didx ch = some i := by
  unfold dataOf; split <;> simp_all

theorem dataOf_error {p : Nat} {ch : Byte} {f : Failure} :
    dataOf p ch = .error f ↔ didx ch = none ∧ f = (.invalidCharacter, p) := by
  unfold dataOf; cases h : didx ch <;> simp [eq_comm]

theorem middleOf_ok {p : Nat} {ch : Byte} {i : Fin 17} : middleOf p ch = .ok i ↔ midx ch = some i := by
  unfold middleOf; split <;> simp_all

theorem middleOf_error {p : Nat} {ch : Byte} {f : Failure} :
    middleOf p ch = .error f ↔ midx ch = none ∧ f = (.invalidCharacter, p) := by
  unfold middleOf; cases h : midx ch <;> simp [eq_comm]

theorem orRaise_ok {α : Type} {r : Except Failure α} {a : α} : orRaise r = .ok a ↔ r = .ok a := by
  cases r <;> simp [orRaise]

theorem orRaise_error {α : Type} {r : Except Failure α} {e : Stop} :
    orRaise r = .error e ↔ ∃ f, r = .error f ∧ e = .raise f := by
  cases r <;> simp [orRaise, eq_comm]

@[simp] theorem orRaise_ok_eq {α : Type} (a : α) : orRaise (.ok a : Except Failure α) = .ok a := rfl

@[simp] theorem orRaise_error_eq {α : Type} (f : Failure) : orRaise (.error f : Except Failure α) = .error (.raise f) := rfl

/-- Each table lookup by character inverts the table. -/
theorem vidx_vowel : ∀ i, vidx (vowel i) = some i := by decide

theorem midx_cons : ∀ i, midx (cons i) = some i := by decide

theorem didx_dataCons : ∀ i, didx (dataCons i) = some i := by decide

theorem vowel_of_vidx {ch : Byte} {i : Fin 6} (h : vidx ch = some i) : vowel i = ch := by
  unfold vidx at h
  simpa using List.find?_some h

theorem cons_of_midx {ch : Byte} {i : Fin 17} (h : midx ch = some i) : cons i = ch := by
  unfold midx at h
  simpa using List.find?_some h

theorem dataCons_of_didx {ch : Byte} {i : BitVec 4} (h : didx ch = some i) : dataCons i = ch := by
  unfold didx at h
  split at h
  · next j hj =>
    split at h
    · next hle =>
      cases h
      rw [← cons_of_midx hj, dataCons]
      congr 1
      apply Fin.ext
      simp only [BitVec.toNat_ofNat]
      omega
    · cases h
  · cases h

/-! ### Range check and assembly -/

/-- Removing an offset below 6, without going below zero (the form with `+ 6` of 90_conflicts.md C10). -/
theorem removeOffset_eq (i : Fin 6) (off : Nat) (ho : off < 6) : removeOffset i off = (i.val + 6 - off) % 6 := by
  have := i.isLt
  unfold removeOffset
  omega

theorem ckOffHi_lt (c : Checksum) : ckOffHi c < 6 := Nat.mod_lt _ (by decide)

theorem ckOffLo_lt (c : Checksum) : ckOffLo c < 6 := by
  have := c.isLt
  unfold ckOffLo
  omega

theorem rawHigh_highIndex (c : Checksum) (hi : BitVec 2) : rawHigh c (highIndex c hi) = hi.toNat := by
  have := hi.isLt
  rw [rawHigh, removeOffset_eq _ _ (ckOffHi_lt c)]
  simp only [highIndex, ckOffHi]
  omega

theorem rawLow_lowIndex (c : Checksum) (lo : BitVec 2) : rawLow c (lowIndex c lo) = lo.toNat := by
  have := lo.isLt
  have := ckOffLo_lt c
  rw [rawLow, removeOffset_eq _ _ (ckOffLo_lt c)]
  simp only [lowIndex]
  omega

/-- What the range check accepts, and what it assembles. -/
theorem assemble_ok {c : Checksum} {i0 i2 : Fin 6} {i1 : BitVec 4} {p0 p2 : Nat} {b : Byte}
    (h : assemble c i0 i1 i2 p0 p2 = .ok b) :
    rawHigh c i0 < 4 ∧ rawLow c i2 < 4 ∧
      b = joinFields (BitVec.ofNat 2 (rawHigh c i0)) i1 (BitVec.ofNat 2 (rawLow c i2)) := by
  unfold assemble at h
  split at h
  · cases h
  · split at h
    · cases h
    · cases h; exact ⟨by omega, by omega, rfl⟩

theorem assembleOf_ok {c : Checksum} {i0 i2 : Fin 6} {i1 : BitVec 4} {p0 p2 : Nat} {b : Byte} :
    assembleOf c i0 i1 i2 p0 p2 = .ok b ↔ assemble c i0 i1 i2 p0 p2 = .ok b := by
  unfold assembleOf; split <;> simp_all

/-- A failing assembly is a ChecksumMismatch at one of the two vowels. -/
theorem assembleOf_error {c : Checksum} {i0 i2 : Fin 6} {i1 : BitVec 4} {p0 p2 : Nat} {f : Failure}
    (h : assembleOf c i0 i1 i2 p0 p2 = .error f) : f = (.checksumMismatch, p0) ∨ f = (.checksumMismatch, p2) := by
  unfold assembleOf assemble at h
  split at h
  · cases h
  · next hp =>
    cases h
    split at hp
    · cases hp; exact .inl rfl
    · split at hp
      · cases hp; exact .inr rfl
      · cases hp

theorem hiField_joinFields (hi : BitVec 2) (mid : BitVec 4) (lo : BitVec 2) : hiField (joinFields hi mid lo) = hi := by
  revert hi mid lo; decide

theorem midField_joinFields (hi : BitVec 2) (mid : BitVec 4) (lo : BitVec 2) : midField (joinFields hi mid lo) = mid := by
  revert hi mid lo; decide

theorem loField_joinFields (hi : BitVec 2) (mid : BitVec 4) (lo : BitVec 2) : loField (joinFields hi mid lo) = lo := by
  revert hi mid lo; decide

theorem upperNibble_joinNibbles (n1 n0 : BitVec 4) : upperNibble (joinNibbles n1 n0) = n1 := by
  revert n1 n0; decide

theorem lowerNibble_joinNibbles (n1 n0 : BitVec 4) : lowerNibble (joinNibbles n1 n0) = n0 := by
  revert n1 n0; decide

/-! ### Where the letters stand -/

theorem hyphenSlot_offset_cases (h : HyphenSlot) : h.offset = 3 ∨ h.offset = 4 ∨ h.offset = 5 := by
  cases h <;> simp [HyphenSlot.offset]

/-- Every letter stands inside its group's six cells, away from the hyphen. -/
theorem letterOffset_bounds (cfg : Config) {j : Nat} (hj : j ≤ 4) :
    letterOffset cfg j < 6 ∧ letterOffset cfg j ≠ cfg.hyphenSlot.offset := by
  unfold letterOffset
  rcases hyphenSlot_offset_cases cfg.hyphenSlot with h | h | h <;> rw [h] <;> split <;> omega

theorem letterOffset_inj (cfg : Config) {i j : Nat} (h : letterOffset cfg i = letterOffset cfg j) : i = j := by
  unfold letterOffset at h
  split at h <;> split at h <;> omega

/-- The six cells of pair group `k` lie in `1+6k .. 6+6k`. -/
theorem groupCells_bounds (cfg : Config) (k : Nat) (c : Checksum) (hi : BitVec 2) (mid : BitVec 4) (lo : BitVec 2)
    (n1 n0 : BitVec 4) : ∀ cell ∈ groupCells cfg k c hi mid lo n1 n0, 1 + 6 * k ≤ cell.1 ∧ cell.1 ≤ 6 + 6 * k := by
  have h0 := (letterOffset_bounds cfg (j := 0) (by omega)).1
  have h1 := (letterOffset_bounds cfg (j := 1) (by omega)).1
  have h2 := (letterOffset_bounds cfg (j := 2) (by omega)).1
  have h3 := (letterOffset_bounds cfg (j := 3) (by omega)).1
  have h4 := (letterOffset_bounds cfg (j := 4) (by omega)).1
  have hh : cfg.hyphenSlot.offset < 6 := by rcases hyphenSlot_offset_cases cfg.hyphenSlot with h | h | h <;> omega
  simp only [groupCells, List.mem_cons, List.not_mem_nil, or_false, letterAt, hyphenAt, groupStart]
  rintro cell (rfl | rfl | rfl | rfl | rfl | rfl) <;> constructor <;> simp only <;> omega

end Sys2Proof.Machine
end

