-- ==== Sys2Proof/Laws/Steps.lean ====
section
/-! SUPPORT. One inversion lemma per step operation, saying everything it can do when it goes on, and one for a step of the
machine. -/

namespace Sys2Proof.Machine

/-! ### Lookups in the string -/

theorem lookupV_ok {p : Nat} {s : State} {i : Fin 6} (h : lookupV p s = .ok i) :
    p < s.cfg.strCap ∧ Memory.read s.str p = some (vowel i) := by
  obtain ⟨ch, hr, hv⟩ := bind_ok h
  rw [orRaise_ok, vowelOf_ok] at hv
  obtain ⟨hp, hm⟩ := readStr_ok hr
  exact ⟨hp, hm.trans (congrArg some (vowel_of_vidx hv).symm)⟩

theorem lookupV_of_read {p : Nat} {s : State} {i : Fin 6} (hp : p < s.cfg.strCap)
    (h : Memory.read s.str p = some (vowel i)) : lookupV p s = .ok i := by
  simp [lookupV, readStr_of_read hp h, vowelOf_ok.mpr (vidx_vowel i)]

theorem lookupV_raise {p : Nat} {s : State} {f : Failure} (h : lookupV p s = .error (.raise f)) :
    p < s.cfg.strCap ∧ f = (.invalidCharacter, p) := by
  rcases bind_error h with h | ⟨ch, hr, hv⟩
  · rcases readStr_error h with ⟨-, he⟩ | ⟨-, -, he⟩ <;> cases he
  · obtain ⟨f', hf, he⟩ := orRaise_error.mp hv
    cases he
    exact ⟨(readStr_ok hr).1, (vowelOf_error.mp hf).2⟩

theorem lookupD_ok {p : Nat} {s : State} {i : BitVec 4} (h : lookupD p s = .ok i) :
    p < s.cfg.strCap ∧ Memory.read s.str p = some (dataCons i) := by
  obtain ⟨ch, hr, hv⟩ := bind_ok h
  rw [orRaise_ok, dataOf_ok] at hv
  obtain ⟨hp, hm⟩ := readStr_ok hr
  exact ⟨hp, hm.trans (congrArg some (dataCons_of_didx hv).symm)⟩

theorem lookupD_of_read {p : Nat} {s : State} {i : BitVec 4} (hp : p < s.cfg.strCap)
    (h : Memory.read s.str p = some (dataCons i)) : lookupD p s = .ok i := by
  simp [lookupD, readStr_of_read hp h, dataOf_ok.mpr (didx_dataCons i)]

theorem lookupD_raise {p : Nat} {s : State} {f : Failure} (h : lookupD p s = .error (.raise f)) :
    p < s.cfg.strCap ∧ f = (.invalidCharacter, p) := by
  rcases bind_error h with h | ⟨ch, hr, hv⟩
  · rcases readStr_error h with ⟨-, he⟩ | ⟨-, -, he⟩ <;> cases he
  · obtain ⟨f', hf, he⟩ := orRaise_error.mp hv
    cases he
    exact ⟨(readStr_ok hr).1, (dataOf_error.mp hf).2⟩

theorem lookupM_ok {p : Nat} {s : State} {i : Fin 17} (h : lookupM p s = .ok i) :
    p < s.cfg.strCap ∧ Memory.read s.str p = some (cons i) := by
  obtain ⟨ch, hr, hv⟩ := bind_ok h
  rw [orRaise_ok, middleOf_ok] at hv
  obtain ⟨hp, hm⟩ := readStr_ok hr
  exact ⟨hp, hm.trans (congrArg some (cons_of_midx hv).symm)⟩

theorem lookupM_of_read {p : Nat} {s : State} {i : Fin 17} (hp : p < s.cfg.strCap)
    (h : Memory.read s.str p = some (cons i)) : lookupM p s = .ok i := by
  simp [lookupM, readStr_of_read hp h, middleOf_ok.mpr (midx_cons i)]

theorem lookupM_raise {p : Nat} {s : State} {f : Failure} (h : lookupM p s = .error (.raise f)) :
    p < s.cfg.strCap ∧ f = (.invalidCharacter, p) := by
  rcases bind_error h with h | ⟨ch, hr, hv⟩
  · rcases readStr_error h with ⟨-, he⟩ | ⟨-, -, he⟩ <;> cases he
  · obtain ⟨f', hf, he⟩ := orRaise_error.mp hv
    cases he
    exact ⟨(readStr_ok hr).1, (middleOf_error.mp hf).2⟩

/-- The X slot check passes on the delimiter; what it raises is InvalidFraming at its offset. -/
theorem expectDelimiter_ok {p : Nat} {s : State} {u : Unit} (h : expectDelimiter p s = .ok u) :
    p < s.cfg.strCap ∧ Memory.read s.str p = some delimiter := by
  obtain ⟨ch, hr, hv⟩ := bind_ok h
  split at hv
  · next hd => exact hd ▸ readStr_ok hr
  · cases hv

theorem expectDelimiter_of_read {p : Nat} {s : State} (hp : p < s.cfg.strCap)
    (h : Memory.read s.str p = some delimiter) : expectDelimiter p s = .ok () := by
  simp [expectDelimiter, readStr_of_read hp h]

theorem expectDelimiter_raise {p : Nat} {s : State} {f : Failure} (h : expectDelimiter p s = .error (.raise f)) :
    p < s.cfg.strCap ∧ f = (.invalidFraming, p) := by
  rcases bind_error h with h | ⟨ch, hr, hv⟩
  · rcases readStr_error h with ⟨-, he⟩ | ⟨-, -, he⟩ <;> cases he
  · split at hv
    · cases hv
    · cases hv; exact ⟨(readStr_ok hr).1, rfl⟩

/-! ### The encoder's step operations -/

theorem execEopen_next {s t : State} (h : execEopen s = .next t) :
    s.phase = .encOpen ∧
      t = { s with str := Memory.writeAll s.str [(0, delimiter)], c := ckInit, k := 0, phase := .encBody } := by
  obtain ⟨hp, h⟩ := whenEnabled_next h
  rcases settle_next h with h | ⟨f, h, -⟩
  · obtain ⟨u, hu, ht⟩ := bind_ok h
    obtain ⟨-, rfl⟩ := storeStr_ok hu
    cases ht
    exact ⟨hp, rfl⟩
  · rcases bind_error h with h | ⟨u, -, h⟩
    · obtain ⟨-, i, he⟩ := storeStr_error h; cases he
    · cases h

theorem execEpair_next {s t : State} (h : execEpair s = .next t) :
    s.phase = .encBody ∧ s.k < s.rawLen / 2 ∧ ∃ b0 b1,
      Memory.read s.raw (2 * s.k) = some b0 ∧ Memory.read s.raw (2 * s.k + 1) = some b1 ∧
      (∀ cell ∈ groupCells s.cfg s.k s.c (hiField b0) (midField b0) (loField b0) (upperNibble b1) (lowerNibble b1),
        cell.1 < s.cfg.strCap) ∧
      t = { s with
        str := Memory.writeAll s.str
          (groupCells s.cfg s.k s.c (hiField b0) (midField b0) (loField b0) (upperNibble b1) (lowerNibble b1))
        c := ckUpd s.c b0 b1
        k := s.k + 1 } := by
  obtain ⟨⟨hp, hk⟩, h⟩ := whenEnabled_next h
  rcases settle_next h with h | ⟨f, h, -⟩
  · obtain ⟨b0, h0, h⟩ := bind_ok h
    obtain ⟨b1, h1, h⟩ := bind_ok h
    obtain ⟨u, hu, h⟩ := bind_ok h
    obtain ⟨hin, rfl⟩ := storeStr_ok hu
    cases h
    exact ⟨hp, hk, b0, b1, (readRaw_ok h0).2, (readRaw_ok h1).2, hin, rfl⟩
  · rcases bind_error h with h | ⟨b0, -, h⟩
    · rcases readRaw_error h with ⟨-, he⟩ | ⟨-, -, he⟩ <;> cases he
    rcases bind_error h with h | ⟨b1, -, h⟩
    · rcases readRaw_error h with ⟨-, he⟩ | ⟨-, -, he⟩ <;> cases he
    rcases bind_error h with h | ⟨u, -, h⟩
    · obtain ⟨-, i, he⟩ := storeStr_error h; cases he
    · cases h

theorem execEtailb_next {s t : State} (h : execEtailb s = .next t) :
    s.phase = .encBody ∧ s.k = s.rawLen / 2 ∧ s.rawLen % 2 = 1 ∧ ∃ b0,
      Memory.read s.raw (2 * s.k) = some b0 ∧
      (∀ cell ∈ byteTailCells (groupStart s.k) s.c (hiField b0) (midField b0) (loField b0), cell.1 < s.cfg.strCap) ∧
      t = { s with
        str := Memory.writeAll s.str (byteTailCells (groupStart s.k) s.c (hiField b0) (midField b0) (loField b0))
        phase := .encClose } := by
  obtain ⟨⟨hp, hk, ho⟩, h⟩ := whenEnabled_next h
  rcases settle_next h with h | ⟨f, h, -⟩
  · obtain ⟨b0, h0, h⟩ := bind_ok h
    obtain ⟨u, hu, h⟩ := bind_ok h
    obtain ⟨hin, rfl⟩ := storeStr_ok hu
    cases h
    exact ⟨hp, hk, ho, b0, (readRaw_ok h0).2, hin, rfl⟩
  · rcases bind_error h with h | ⟨b0, -, h⟩
    · rcases readRaw_error h with ⟨-, he⟩ | ⟨-, -, he⟩ <;> cases he
    rcases bind_error h with h | ⟨u, -, h⟩
    · obtain ⟨-, i, he⟩ := storeStr_error h; cases he
    · cases h

theorem execEtailc_next {s t : State} (h : execEtailc s = .next t) :
    s.phase = .encBody ∧ s.k = s.rawLen / 2 ∧ s.rawLen % 2 = 0 ∧
      (∀ cell ∈ checksumTailCells (groupStart s.k) s.c, cell.1 < s.cfg.strCap) ∧
      t = { s with str := Memory.writeAll s.str (checksumTailCells (groupStart s.k) s.c), phase := .encClose } := by
  obtain ⟨⟨hp, hk, ho⟩, h⟩ := whenEnabled_next h
  rcases settle_next h with h | ⟨f, h, -⟩
  · obtain ⟨u, hu, h⟩ := bind_ok h
    obtain ⟨hin, rfl⟩ := storeStr_ok hu
    cases h
    exact ⟨hp, hk, ho, hin, rfl⟩
  · rcases bind_error h with h | ⟨u, -, h⟩
    · obtain ⟨-, i, he⟩ := storeStr_error h; cases he
    · cases h

theorem execEclose_next {s t : State} (h : execEclose s = .next t) :
    s.phase = .encClose ∧ 6 * s.k + 4 < s.cfg.strCap ∧
      t = endOperation { s with str := Memory.writeAll s.str [(6 * s.k + 4, delimiter)], strLen := 6 * s.k + 5 } := by
  obtain ⟨hp, h⟩ := whenEnabled_next h
  rcases settle_next h with h | ⟨f, h, -⟩
  · obtain ⟨u, hu, h⟩ := bind_ok h
    obtain ⟨hin, rfl⟩ := storeStr_ok hu
    cases h
    exact ⟨hp, hin _ (List.mem_singleton.mpr rfl), rfl⟩
  · rcases bind_error h with h | ⟨u, -, h⟩
    · obtain ⟨-, i, he⟩ := storeStr_error h; cases he
    · cases h

/-! ### The decoder's step operations -/

/-- DFRAME passes a framed string of legal length, or raises InvalidLength or InvalidFraming with `C = 1` and `K = 0`. -/
theorem execDframe_next {s t : State} (h : execDframe s = .next t) :
    s.phase = .decFrame ∧
      ((s.strLen % 6 = 5 ∧ Memory.read s.str 0 = some delimiter ∧ Memory.read s.str (s.strLen - 1) = some delimiter ∧
          t = { s with c := ckInit, k := 0, phase := .decBody }) ∨
        ∃ f : Failure, t = raiseError f.1 f.2 { s with c := ckInit, k := 0 } ∧
          ((s.strLen % 6 ≠ 5 ∧ f = (.invalidLength, s.strLen)) ∨
            (s.strLen % 6 = 5 ∧ f.1 = .invalidFraming ∧ f.2 < s.cfg.strCap))) := by
  obtain ⟨hp, h⟩ := whenEnabled_next h
  refine ⟨hp, ?_⟩
  by_cases hl : s.strLen % 6 = 5
  · simp only [hl, ne_eq, not_true_eq_false, if_false] at h
    rcases settle_next h with h | ⟨f, h, ht⟩
    · obtain ⟨u0, h0, h⟩ := bind_ok h
      obtain ⟨u1, h1, h⟩ := bind_ok h
      cases h
      exact .inl ⟨hl, (expectDelimiter_ok h0).2, (expectDelimiter_ok h1).2, rfl⟩
    · refine .inr ⟨f, ht, .inr ⟨hl, ?_⟩⟩
      rcases bind_error h with h | ⟨u0, -, h⟩
      · obtain ⟨hlt, rfl⟩ := expectDelimiter_raise h; exact ⟨rfl, hlt⟩
      rcases bind_error h with h | ⟨u1, -, h⟩
      · obtain ⟨hlt, rfl⟩ := expectDelimiter_raise h; exact ⟨rfl, hlt⟩
      · cases h
  · simp only [hl, ne_eq, not_false_eq_true, if_true, error_bind, settle_raise] at h
    cases h
    exact .inr ⟨_, rfl, .inl ⟨hl, rfl⟩⟩

/-- A pair group that is decoded: five letters of their tables, two fields below 4. -/
theorem decodeGroup_ok {s : State} {b : Byte × Byte} (h : decodeGroup s = .ok b) :
    ∃ i0 i1 i2 i3 i4,
      lookupV (letterAt s.cfg s.k 0) s = .ok i0 ∧ lookupD (letterAt s.cfg s.k 1) s = .ok i1 ∧
      lookupV (letterAt s.cfg s.k 2) s = .ok i2 ∧ lookupD (letterAt s.cfg s.k 3) s = .ok i3 ∧
      lookupD (letterAt s.cfg s.k 4) s = .ok i4 ∧
      assemble s.c i0 i1 i2 (letterAt s.cfg s.k 0) (letterAt s.cfg s.k 2) = .ok b.1 ∧ b.2 = joinNibbles i3 i4 := by
  obtain ⟨i0, h0, h⟩ := bind_ok h
  obtain ⟨i1, h1, h⟩ := bind_ok h
  obtain ⟨i2, h2, h⟩ := bind_ok h
  obtain ⟨i3, h3, h⟩ := bind_ok h
  obtain ⟨i4, h4, h⟩ := bind_ok h
  obtain ⟨b0, hb, h⟩ := bind_ok h
  cases h
  exact ⟨i0, i1, i2, i3, i4, h0, h1, h2, h3, h4, assembleOf_ok.mp (orRaise_ok.mp hb), rfl⟩

/-- What a pair group raises: InvalidCharacter or ChecksumMismatch, at an offset inside the buffer. -/
theorem decodeGroup_raise {s : State} {f : Failure} (h : decodeGroup s = .error (.raise f)) :
    (f.1 = .invalidCharacter ∨ f.1 = .checksumMismatch) ∧ f.2 < s.cfg.strCap := by
  rcases bind_error h with h | ⟨i0, h0, h⟩
  · obtain ⟨hp, rfl⟩ := lookupV_raise h; exact ⟨.inl rfl, hp⟩
  rcases bind_error h with h | ⟨i1, h1, h⟩
  · obtain ⟨hp, rfl⟩ := lookupD_raise h; exact ⟨.inl rfl, hp⟩
  rcases bind_error h with h | ⟨i2, h2, h⟩
  · obtain ⟨hp, rfl⟩ := lookupV_raise h; exact ⟨.inl rfl, hp⟩
  rcases bind_error h with h | ⟨i3, h3, h⟩
  · obtain ⟨hp, rfl⟩ := lookupD_raise h; exact ⟨.inl rfl, hp⟩
  rcases bind_error h with h | ⟨i4, h4, h⟩
  · obtain ⟨hp, rfl⟩ := lookupD_raise h; exact ⟨.inl rfl, hp⟩
  rcases bind_error h with h | ⟨b0, hb, h⟩
  · obtain ⟨f', hf, he⟩ := orRaise_error.mp h
    cases he
    rcases assembleOf_error hf with rfl | rfl
    · exact ⟨.inr rfl, (lookupV_ok h0).1⟩
    · exact ⟨.inr rfl, (lookupV_ok h2).1⟩
  · cases h

/-- DPAIR stores one byte pair and moves on, or raises InvalidCharacter or ChecksumMismatch from the state it found. -/
theorem execDpair_next {s t : State} (h : execDpair s = .next t) :
    s.phase = .decBody ∧ s.k < (s.strLen - 5) / 6 ∧
      ((∃ b, decodeGroup s = .ok b ∧ 2 * s.k + 1 < s.cfg.rawCap ∧
          t = { s with
            raw := Memory.writeAll s.raw [(2 * s.k, b.1), (2 * s.k + 1, b.2)]
            c := ckUpd s.c b.1 b.2
            k := s.k + 1 }) ∨
        ∃ f : Failure, t = raiseError f.1 f.2 s ∧ decodeGroup s = .error (.raise f)) := by
  obtain ⟨⟨hp, hk⟩, h⟩ := whenEnabled_next h
  refine ⟨hp, hk, ?_⟩
  rcases settle_next h with h | ⟨f, h, ht⟩
  · obtain ⟨b, hb, h⟩ := bind_ok h
    obtain ⟨u, hu, h⟩ := bind_ok h
    obtain ⟨hin, rfl⟩ := storeRaw_ok hu
    cases h
    exact .inl ⟨b, hb, hin (2 * s.k + 1, b.2) (by simp), rfl⟩
  · refine .inr ⟨f, ht, ?_⟩
    rcases bind_error h with h | ⟨b, -, h⟩
    · exact h
    rcases bind_error h with h | ⟨u, -, h⟩
    · obtain ⟨-, i, he⟩ := storeRaw_error h; cases he
    · cases h

/-- What a tail's field pass reports: a ChecksumMismatch at one of its two vowels. -/
theorem tailOf_error {c : Checksum} {t : Nat} {i0 i2 : Fin 6} {i1 : Fin 17} {f : Failure}
    (h : tailOf c t i0 i1 i2 = .error f) : f = (.checksumMismatch, t) ∨ f = (.checksumMismatch, t + 2) := by
  unfold tailOf at h
  split at h
  · split at h
    · cases h; exact .inl rfl
    · split at h
      · cases h; exact .inr rfl
      · cases h
  · split at h
    · cases h
    · next hf => cases h; exact assembleOf_error hf

/-- DTAIL ends the operation with the number of bytes, after the last byte of a byte tail, or raises InvalidCharacter or
ChecksumMismatch from the state it found. -/
theorem execDtail_next {s t : State} (h : execDtail s = .next t) :
    s.phase = .decBody ∧ s.k = (s.strLen - 5) / 6 ∧
      (t = endOperation { s with rawLen := 2 * s.k } ∨
        (∃ b0, 2 * s.k < s.cfg.rawCap ∧
          t = endOperation { s with raw := Memory.writeAll s.raw [(2 * s.k, b0)], rawLen := 2 * s.k + 1 }) ∨
        ∃ f : Failure, t = raiseError f.1 f.2 s ∧ (f.1 = .invalidCharacter ∨ f.1 = .checksumMismatch) ∧
          f.2 < s.cfg.strCap) := by
  obtain ⟨⟨hp, hk⟩, h⟩ := whenEnabled_next h
  refine ⟨hp, hk, ?_⟩
  rcases settle_next h with h | ⟨f, h, ht⟩
  · obtain ⟨i0, -, h⟩ := bind_ok h
    obtain ⟨i1, -, h⟩ := bind_ok h
    obtain ⟨i2, -, h⟩ := bind_ok h
    obtain ⟨last, -, h⟩ := bind_ok h
    cases last with
    | none => cases h; exact .inl rfl
    | some b0 =>
      obtain ⟨u, hu, h⟩ := bind_ok h
      obtain ⟨hin, rfl⟩ := storeRaw_ok hu
      cases h
      exact .inr (.inl ⟨b0, hin (2 * s.k, b0) (by simp), rfl⟩)
  · refine .inr (.inr ⟨f, ht, ?_⟩)
    rcases bind_error h with h | ⟨i0, h0, h⟩
    · obtain ⟨hlt, rfl⟩ := lookupV_raise h; exact ⟨.inl rfl, hlt⟩
    rcases bind_error h with h | ⟨i1, h1, h⟩
    · obtain ⟨hlt, rfl⟩ := lookupM_raise h; exact ⟨.inl rfl, hlt⟩
    rcases bind_error h with h | ⟨i2, h2, h⟩
    · obtain ⟨hlt, rfl⟩ := lookupV_raise h; exact ⟨.inl rfl, hlt⟩
    rcases bind_error h with h | ⟨last, -, h⟩
    · obtain ⟨f', hf, he⟩ := orRaise_error.mp h
      cases he
      rcases tailOf_error hf with rfl | rfl
      · exact ⟨.inr rfl, (lookupV_ok h0).1⟩
      · exact ⟨.inr rfl, (lookupV_ok h2).1⟩
    · cases last with
      | none => cases h
      | some b0 =>
        rcases bind_error h with h | ⟨u, -, h⟩
        · obtain ⟨-, i, he⟩ := storeRaw_error h; cases he
        · cases h

/-! ### The host's writes -/

theorem hostWriteRaw_next {i : Nat} {v : Byte} {s t : State} (h : hostWriteRaw i v s = .next t) :
    i < s.cfg.rawCap ∧ t = if s.busy then s else { s with raw := Memory.write s.raw i v } := by
  unfold hostWriteRaw at h
  split at h
  · cases h
  · split at h <;> cases h <;> exact ⟨by omega, by simp [*]⟩

theorem hostWriteStr_next {i : Nat} {v : Byte} {s t : State} (h : hostWriteStr i v s = .next t) :
    i < s.cfg.strCap ∧ t = if s.busy then s else { s with str := Memory.write s.str i v } := by
  unfold hostWriteStr at h
  split at h
  · cases h
  · split at h <;> cases h <;> exact ⟨by omega, by simp [*]⟩

/-- What a read of a cell hands back: a fresh free value during lockout, else the cell's value or its own free value. -/
theorem answerCell_eq (s : State) (cell : Option Byte) (free : Byte) :
    answerCell s cell free = if s.busy then answerFree 8 s else answer (cell.getD free).toNat s := rfl

/-! ### Decoding -/

/-- Each symbol's meaning stores the code of its own row. -/
theorem exec_symbolRow (i : Nat) (s : State) :
    ∀ r ∈ symbolRows i, exec r.instr s = hostWriteStr i (BitVec.ofNat 8 r.value) s := by
  simp only [symbolRows, vowelRows, consonantRows, List.cons_append, List.nil_append, List.mem_cons, List.not_mem_nil, or_false]
  rintro r (rfl | rfl | rfl | rfl | rfl | rfl | rfl | rfl | rfl | rfl | rfl | rfl | rfl | rfl | rfl | rfl | rfl | rfl | rfl |
    rfl | rfl | rfl | rfl | rfl) <;> rfl

/-- Each symbol's row matches its own code only. -/
theorem symbolRow_matches (i w : Nat) (hw : w < 256) : ∀ r ∈ symbolRows i, r.matches w = true → r.value = w := by
  have hm : w &&& 0xFF = w := by rw [show (0xFF : Nat) = 2 ^ 8 - 1 from rfl, Nat.and_two_pow_sub_one_eq_mod]; omega
  simp only [symbolRows, vowelRows, consonantRows, List.cons_append, List.nil_append, List.mem_cons, List.not_mem_nil, or_false]
  rintro r (rfl | rfl | rfl | rfl | rfl | rfl | rfl | rfl | rfl | rfl | rfl | rfl | rfl | rfl | rfl | rfl | rfl | rfl | rfl |
    rfl | rfl | rfl | rfl | rfl) <;> simp only [Row.matches, hm, beq_iff_eq] <;> exact Eq.symm

/-- HostWriteStr of a code that is a symbol, and of one that is none, are one operation. -/
theorem writeStr_eq (i : Nat) (v : Byte) (s : State) : writeStr i v s = hostWriteStr i v s := by
  have hv : v.toNat < 256 := v.isLt
  simp only [writeStr, decode, decodeSymbol, matchRow]
  rw [if_neg (by omega)]
  cases hf : (symbolRows i).find? (·.matches v.toNat) with
  | none => rfl
  | some r =>
    simp only [Option.map_some]
    have hr := List.mem_of_find?_eq_some hf
    have hm := List.find?_some hf
    rw [exec_symbolRow i s r hr, symbolRow_matches i _ hv r hr hm, BitVec.ofNat_toNat, BitVec.setWidth_eq]

end Sys2Proof.Machine
end

