-- ==== Sys2Proof/Laws/Machine.lean ====
section
/-! SUPPORT. What a step of the machine can do, once; which step operation each phase selects. -/

namespace Sys2Proof.Machine

/-- After reset both buffers are in canonical form. -/
theorem reset_memory_wf : Memory.wf State.reset.raw = true ∧ Memory.wf State.reset.str = true := ⟨rfl, rfl⟩

/-- Giving a value to cells that hold none keeps the canonical form. -/
theorem wf_fillUnwritten (m cells : List Host.Cell) (h : Memory.wf m = true) : Memory.wf (fillUnwritten m cells) = true := by
  induction cells generalizing m with
  | nil => exact h
  | cons c rest ih =>
    simp only [fillUnwritten, List.foldl_cons] at ih ⊢
    split
    · exact ih _ h
    · exact ih _ (Memory.wf_write _ _ _ h)

/-- A step that goes on is the engine's turn on an empty queue, or the first event performed on the state without it. -/
theorem step_next {s t : State} (h : step s = .next t) :
    (s.inputs = [] ∧ s.Coherent ∧ engineTurn s = .next t) ∨
      ∃ e rest, s.inputs = e :: rest ∧ (s.Coherent ∨ e = .reset) ∧ perform e { s with inputs := rest } = .next t := by
  unfold step turn at h
  split at h
  · next hi =>
    split at h
    · exact .inl ⟨hi, ‹_›, h⟩
    · cases h
  · next e rest hi =>
    split at h
    · exact .inr ⟨e, rest, hi, ‹_›, h⟩
    · cases h

theorem step_of_nil {s : State} (hc : s.Coherent) (hi : s.inputs = []) : step s = engineTurn s := by
  simp only [step, turn, hi]
  exact if_pos hc

theorem step_of_cons {s : State} {e : Input} {rest : List Input} (hc : s.Coherent) (hi : s.inputs = e :: rest) :
    step s = perform e { s with inputs := rest } := by
  simp only [step, turn, hi]
  exact if_pos (.inl hc)

/-! ### Dispatch -/

/-- The dispatch word is the phase's code with the two low bits LAST and ODD. -/
theorem sel_eq (s : State) : s.sel = s.phase.code * 4 + (if s.k = s.kt then 2 else 0) + s.rawLen % 2 := rfl

theorem decode_sel_encOpen {s : State} (h : s.phase = .encOpen) : decode ⟨.sel, s.sel, 0⟩ = .ok .eopen := by
  rw [sel_eq, h]
  rcases Nat.mod_two_eq_zero_or_one s.rawLen with ho | ho <;> rw [ho] <;> split <;> rfl

theorem decode_sel_encClose {s : State} (h : s.phase = .encClose) : decode ⟨.sel, s.sel, 0⟩ = .ok .eclose := by
  rw [sel_eq, h]
  rcases Nat.mod_two_eq_zero_or_one s.rawLen with ho | ho <;> rw [ho] <;> split <;> rfl

theorem decode_sel_decFrame {s : State} (h : s.phase = .decFrame) : decode ⟨.sel, s.sel, 0⟩ = .ok .dframe := by
  rw [sel_eq, h]
  rcases Nat.mod_two_eq_zero_or_one s.rawLen with ho | ho <;> rw [ho] <;> split <;> rfl

theorem decode_sel_epair {s : State} (h : s.phase = .encBody) (hk : s.k ≠ s.rawLen / 2) :
    decode ⟨.sel, s.sel, 0⟩ = .ok .epair := by
  have hkt : s.k ≠ s.kt := by simpa [State.kt, h] using hk
  rw [sel_eq, h, if_neg hkt]
  rcases Nat.mod_two_eq_zero_or_one s.rawLen with ho | ho <;> rw [ho] <;> rfl

theorem decode_sel_etail {s : State} (h : s.phase = .encBody) (hk : s.k = s.rawLen / 2) :
    decode ⟨.sel, s.sel, 0⟩ = .ok (if s.rawLen % 2 = 1 then .etailb else .etailc) := by
  have hkt : s.k = s.kt := by simpa [State.kt, h] using hk
  rw [sel_eq, h, if_pos hkt]
  rcases Nat.mod_two_eq_zero_or_one s.rawLen with ho | ho <;> rw [ho] <;> rfl

theorem decode_sel_dpair {s : State} (h : s.phase = .decBody) (hk : s.k ≠ (s.strLen - 5) / 6) :
    decode ⟨.sel, s.sel, 0⟩ = .ok .dpair := by
  have hkt : s.k ≠ s.kt := by simpa [State.kt, h] using hk
  rw [sel_eq, h, if_neg hkt]
  rcases Nat.mod_two_eq_zero_or_one s.rawLen with ho | ho <;> rw [ho] <;> rfl

theorem decode_sel_dtail {s : State} (h : s.phase = .decBody) (hk : s.k = (s.strLen - 5) / 6) :
    decode ⟨.sel, s.sel, 0⟩ = .ok .dtail := by
  have hkt : s.k = s.kt := by simpa [State.kt, h] using hk
  rw [sel_eq, h, if_pos hkt]
  rcases Nat.mod_two_eq_zero_or_one s.rawLen with ho | ho <;> rw [ho] <;> rfl

/-- What the engine's turn can do: nothing while `BUSY = 0`, one of the eight step operations while `BUSY = 1`. -/
theorem engineTurn_next {s t : State} (h : engineTurn s = .next t) :
    (s.busy = false ∧ t = s) ∨ (s.busy = true ∧
      (execEopen s = .next t ∨ execEpair s = .next t ∨ execEtailb s = .next t ∨ execEtailc s = .next t ∨
        execEclose s = .next t ∨ execDframe s = .next t ∨ execDpair s = .next t ∨ execDtail s = .next t)) := by
  unfold engineTurn at h
  split at h
  · next hb =>
    refine .inr ⟨hb, ?_⟩
    split at h
    · next i hi =>
      have hmem : i ∈ selRows.map (·.instr) := by
        simp only [decode, decodeSel, matchRow] at hi
        split at hi
        · cases hi
        · split at hi
          · next j hj =>
            cases hi
            obtain ⟨r, hr, rfl⟩ := Option.map_eq_some_iff.mp hj
            exact List.mem_map_of_mem (List.mem_of_find?_eq_some hr)
          · cases hi
      simp only [selRows, List.map_cons, List.map_nil, List.mem_cons, List.not_mem_nil, or_false] at hmem
      rcases hmem with rfl | rfl | rfl | rfl | rfl | rfl | rfl | rfl
      · exact .inl h
      · exact .inr (.inl h)
      · exact .inr (.inr (.inl h))
      · exact .inr (.inr (.inr (.inl h)))
      · exact .inr (.inr (.inr (.inr (.inl h))))
      · exact .inr (.inr (.inr (.inr (.inr (.inl h)))))
      · exact .inr (.inr (.inr (.inr (.inr (.inr (.inl h))))))
      · exact .inr (.inr (.inr (.inr (.inr (.inr (.inr h))))))
    · cases h
  · next hb => cases h; exact .inl ⟨by simpa using hb, rfl⟩

/-- The engine's turn in a busy state is the selected step operation. -/
theorem engineTurn_of_decode {s : State} {i : Instr} (hb : s.busy = true) (h : decode ⟨.sel, s.sel, 0⟩ = .ok i) :
    engineTurn s = exec i s := by
  simp [engineTurn, hb, h]

theorem engineTurn_idle {s : State} (hb : s.busy = false) : engineTurn s = .next s := by
  simp [engineTurn, hb]

/-- A CTRL write performs the command of its two low bits. -/
theorem writeCtrl_eq (v : Nat) (s : State) :
    writeCtrl v s =
      if v % 4 = 0 then execCmdNop s else if v % 4 = 1 then execCmdEncode s
      else if v % 4 = 2 then execCmdDecode s else execCmdRsvd s := by
  have hm : v &&& 0x3 = v % 4 := Nat.and_two_pow_sub_one_eq_mod v 2
  have hlt : v % 4 < 4 := Nat.mod_lt _ (by decide)
  simp only [writeCtrl, decode, decodeCtrl, matchRow, cmdRows, List.find?_cons, Row.matches, hm]
  rcases (by omega : v % 4 = 0 ∨ v % 4 = 1 ∨ v % 4 = 2 ∨ v % 4 = 3) with h | h | h | h <;> rw [h] <;> rfl

/-- What a command can do when it is performed. -/
theorem writeCtrl_next {v : Nat} {s t : State} (h : writeCtrl v s = .next t) :
    t = s ∨ (s.busy = false ∧ (t = acceptCommand .encode .encOpen s ∨ t = acceptCommand .decode .decFrame s)) := by
  rw [writeCtrl_eq] at h
  cases hb : s.busy
  · simp only [execCmdNop, execCmdEncode, execCmdDecode, execCmdRsvd, hb, if_false, Bool.false_eq_true] at h
    split at h
    · cases h; exact .inl rfl
    · split at h
      · cases h; exact .inr ⟨rfl, .inl rfl⟩
      · split at h
        · cases h; exact .inr ⟨rfl, .inr rfl⟩
        · cases h; exact .inl rfl
  · simp only [execCmdNop, execCmdEncode, execCmdDecode, execCmdRsvd, hb, if_true] at h
    split at h
    · cases h; exact .inl rfl
    · split at h
      · cases h; exact .inl rfl
      · split at h <;> cases h <;> exact .inl rfl

/-- What a register write other than to CTRL can do. -/
theorem hostWriteReg_next {r v : Nat} {s t : State} (h : hostWriteReg r v s = .next t) :
    t = s ∨ (s.busy = false ∧ ∃ w, (w ≤ s.cfg.rawCap ∧ t = { s with rawLen := w }) ∨
      (w ≤ s.cfg.strCap ∧ t = { s with strLen := w })) := by
  unfold hostWriteReg at h
  split at h
  · cases h
  · split at h
    · cases h; exact .inl rfl
    · next hb =>
      simp only at h
      split at h
      · next hr => cases h; exact .inr ⟨by simpa using hb, _, .inl ⟨hr.2, rfl⟩⟩
      · split at h
        · next hr => cases h; exact .inr ⟨by simpa using hb, _, .inr ⟨hr.2, rfl⟩⟩
        · cases h; exact .inl rfl

end Sys2Proof.Machine
end

