-- ==== Sys2Proof/Laws/PerInstr.lean ====
section
/-! SUPPORT. The family EncodedWidth: what is said of every instruction as syntax, one lemma per constructor. -/

namespace Sys2Proof.Laws.EncodedWidth

/-- How many bits the words of a space have (30_encoding.md R72, R79, R60, R65, R67, R73). -/
def spaceBits : Space → Nat
  | .ctrl => 2
  | .sel => 5
  | .str => 8
  | .pairWord => 16
  | .tailByte => 8
  | .errCode => 3

/-- The word of an encoded instruction fits the bits of its space. -/
def Statement (i : Instr) : Prop := (encode i).word < 2 ^ spaceBits (encode i).space

theorem cmdNop : Statement .cmdNop :=
  (of_decide_eq_true rfl : (0 : Nat) < 4)

theorem cmdEncode : Statement .cmdEncode :=
  (of_decide_eq_true rfl : (1 : Nat) < 4)

theorem cmdDecode : Statement .cmdDecode :=
  (of_decide_eq_true rfl : (2 : Nat) < 4)

theorem cmdRsvd : Statement .cmdRsvd :=
  (of_decide_eq_true rfl : (3 : Nat) < 4)

theorem eopen : Statement .eopen :=
  (of_decide_eq_true rfl : (4 : Nat) < 32)

theorem epair : Statement .epair :=
  (of_decide_eq_true rfl : (8 : Nat) < 32)

theorem etailb : Statement .etailb :=
  (of_decide_eq_true rfl : (11 : Nat) < 32)

theorem etailc : Statement .etailc :=
  (of_decide_eq_true rfl : (10 : Nat) < 32)

theorem eclose : Statement .eclose :=
  (of_decide_eq_true rfl : (12 : Nat) < 32)

theorem dframe : Statement .dframe :=
  (of_decide_eq_true rfl : (16 : Nat) < 32)

theorem dpair : Statement .dpair :=
  (of_decide_eq_true rfl : (20 : Nat) < 32)

theorem dtail : Statement .dtail :=
  (of_decide_eq_true rfl : (22 : Nat) < 32)

theorem symV0 (n : Nat) : Statement (.symV0 n) :=
  (of_decide_eq_true rfl : (97 : Nat) < 256)

theorem symV1 (n : Nat) : Statement (.symV1 n) :=
  (of_decide_eq_true rfl : (101 : Nat) < 256)

theorem symV2 (n : Nat) : Statement (.symV2 n) :=
  (of_decide_eq_true rfl : (105 : Nat) < 256)

theorem symV3 (n : Nat) : Statement (.symV3 n) :=
  (of_decide_eq_true rfl : (111 : Nat) < 256)

theorem symV4 (n : Nat) : Statement (.symV4 n) :=
  (of_decide_eq_true rfl : (117 : Nat) < 256)

theorem symV5 (n : Nat) : Statement (.symV5 n) :=
  (of_decide_eq_true rfl : (121 : Nat) < 256)

theorem symC0 (n : Nat) : Statement (.symC0 n) :=
  (of_decide_eq_true rfl : (98 : Nat) < 256)

theorem symC1 (n : Nat) : Statement (.symC1 n) :=
  (of_decide_eq_true rfl : (99 : Nat) < 256)

theorem symC2 (n : Nat) : Statement (.symC2 n) :=
  (of_decide_eq_true rfl : (100 : Nat) < 256)

theorem symC3 (n : Nat) : Statement (.symC3 n) :=
  (of_decide_eq_true rfl : (102 : Nat) < 256)

theorem symC4 (n : Nat) : Statement (.symC4 n) :=
  (of_decide_eq_true rfl : (103 : Nat) < 256)

theorem symC5 (n : Nat) : Statement (.symC5 n) :=
  (of_decide_eq_true rfl : (104 : Nat) < 256)

theorem symC6 (n : Nat) : Statement (.symC6 n) :=
  (of_decide_eq_true rfl : (107 : Nat) < 256)

theorem symC7 (n : Nat) : Statement (.symC7 n) :=
  (of_decide_eq_true rfl : (108 : Nat) < 256)

theorem symC8 (n : Nat) : Statement (.symC8 n) :=
  (of_decide_eq_true rfl : (109 : Nat) < 256)

theorem symC9 (n : Nat) : Statement (.symC9 n) :=
  (of_decide_eq_true rfl : (110 : Nat) < 256)

theorem symC10 (n : Nat) : Statement (.symC10 n) :=
  (of_decide_eq_true rfl : (112 : Nat) < 256)

theorem symC11 (n : Nat) : Statement (.symC11 n) :=
  (of_decide_eq_true rfl : (114 : Nat) < 256)

theorem symC12 (n : Nat) : Statement (.symC12 n) :=
  (of_decide_eq_true rfl : (115 : Nat) < 256)

theorem symC13 (n : Nat) : Statement (.symC13 n) :=
  (of_decide_eq_true rfl : (116 : Nat) < 256)

theorem symC14 (n : Nat) : Statement (.symC14 n) :=
  (of_decide_eq_true rfl : (118 : Nat) < 256)

theorem symC15 (n : Nat) : Statement (.symC15 n) :=
  (of_decide_eq_true rfl : (122 : Nat) < 256)

theorem symC16 (n : Nat) : Statement (.symC16 n) :=
  (of_decide_eq_true rfl : (120 : Nat) < 256)

theorem symHyphen (n : Nat) : Statement (.symHyphen n) :=
  (of_decide_eq_true rfl : (45 : Nat) < 256)

theorem pair (hi : BitVec 2) (mid : BitVec 4) (lo : BitVec 2) (n1 n0 : BitVec 4) :
    Statement (.pair hi mid lo n1 n0) := by
  have := hi.isLt; have := mid.isLt; have := lo.isLt; have := n1.isLt; have := n0.isLt
  simp only [Statement, encode, spaceBits]; omega

theorem byteTail (hi : BitVec 2) (mid : BitVec 4) (lo : BitVec 2) : Statement (.byteTail hi mid lo) := by
  have := hi.isLt; have := mid.isLt; have := lo.isLt
  simp only [Statement, encode, spaceBits]; omega

theorem errNone : Statement .errNone :=
  (of_decide_eq_true rfl : (0 : Nat) < 8)

theorem invalidFraming (pos : Nat) : Statement (.invalidFraming pos) :=
  (of_decide_eq_true rfl : (1 : Nat) < 8)

theorem invalidLength (pos : Nat) : Statement (.invalidLength pos) :=
  (of_decide_eq_true rfl : (2 : Nat) < 8)

theorem invalidCharacter (pos : Nat) : Statement (.invalidCharacter pos) :=
  (of_decide_eq_true rfl : (3 : Nat) < 8)

theorem checksumMismatch (pos : Nat) : Statement (.checksumMismatch pos) :=
  (of_decide_eq_true rfl : (4 : Nat) < 8)

end Sys2Proof.Laws.EncodedWidth
end

