-- ==== Sys2Proof/Laws/Pseudo.lean ====
section
/-! SUPPORT. What each part of a call does, once: one host operation, a list of them, a read, a poll, the read-back. -/

namespace Sys2Proof.Machine

/-- One host operation is one step with its event in front. -/
theorem hostDo_ok {e : Input} {s t : State} : hostDo e s = .ok t ↔ step { s with inputs := e :: s.inputs } = .next t := by
  unfold hostDo
  split <;> simp [*]

/-- In a coherent state the operation is performed on the state itself: what waits at the port is not touched. -/
theorem hostDo_of_perform {e : Input} {s t : State} (hc : s.Coherent) (h : perform e s = .next t) : hostDo e s = .ok t :=
  hostDo_ok.mpr ((step_of_cons (s := { s with inputs := e :: s.inputs }) hc rfl).trans h)

@[simp] theorem hostDoAll_nil (s : State) : hostDoAll [] s = .ok s := rfl

theorem hostDoAll_cons {e : Input} {es : List Input} {s t : State} (h : hostDo e s = .ok t) :
    hostDoAll (e :: es) s = hostDoAll es t := by
  simp [hostDoAll, h]

theorem hostDoAll_append (es fs : List Input) (s : State) :
    hostDoAll (es ++ fs) s = (hostDoAll es s >>= hostDoAll fs) := by
  induction es generalizing s with
  | nil => rfl
  | cons e es ih =>
    cases h : hostDo e s with
    | error x => simp [hostDoAll, h]
    | ok t => simp [hostDoAll, h, ih]

/-- An idle engine's turns change nothing. -/
theorem hostDoAll_engine_idle {s : State} (hc : s.Coherent) (hb : s.busy = false) (n : Nat) :
    hostDoAll (List.replicate n .engine) s = .ok s := by
  induction n with
  | zero => rfl
  | succ n ih =>
    rw [List.replicate_succ, hostDoAll_cons (hostDo_of_perform (e := .engine) hc (engineTurn_idle hb)), ih]

/-- Writing cells of RAW below the capacity while idle stores them, first to last. -/
theorem hostDoAll_writeRaw {s : State} (hc : s.Coherent) (hb : s.busy = false) (cells : List (Byte × Nat))
    (h : ∀ cell ∈ cells, cell.2 < s.cfg.rawCap) :
    hostDoAll (cells.map fun cell => .writeRaw cell.2 cell.1) s =
      .ok { s with raw := Memory.writeAll s.raw (cells.map Prod.swap) } := by
  induction cells generalizing s with
  | nil => rfl
  | cons cell cells ih =>
    have hp : perform (.writeRaw cell.2 cell.1) s = .next { s with raw := Memory.write s.raw cell.2 cell.1 } := by
      simp [perform, hostWriteRaw, hb, h cell (by simp)]
    rw [List.map_cons, hostDoAll_cons (hostDo_of_perform hc hp)]
    exact ih (s := { s with raw := Memory.write s.raw cell.2 cell.1 }) hc hb fun c hm => h c (by simp [hm])

/-- Writing cells of STR the same, whether the code is a symbol's or not. -/
theorem hostDoAll_writeStr {s : State} (hc : s.Coherent) (hb : s.busy = false) (cells : List (Byte × Nat))
    (h : ∀ cell ∈ cells, cell.2 < s.cfg.strCap) :
    hostDoAll (cells.map fun cell => .writeStr cell.2 cell.1) s =
      .ok { s with str := Memory.writeAll s.str (cells.map Prod.swap) } := by
  induction cells generalizing s with
  | nil => rfl
  | cons cell cells ih =>
    have hp : perform (.writeStr cell.2 cell.1) s = .next { s with str := Memory.write s.str cell.2 cell.1 } := by
      simp [perform, writeStr_eq, hostWriteStr, hb, h cell (by simp)]
    rw [List.map_cons, hostDoAll_cons (hostDo_of_perform hc hp)]
    exact ih (s := { s with str := Memory.write s.str cell.2 cell.1 }) hc hb fun c hm => h c (by simp [hm])

/-- A STATUS value shows DONE. -/
@[simp] theorem statusDone_status (s : State) : statusDone s.status = s.done := by
  cases hb : s.busy <;> cases hd : s.done <;> cases he : s.err <;> cases hm : s.mode <;>
    simp [statusDone, State.status, hb, hd, he, hm]

/-- A STATUS value shows ERR. -/
@[simp] theorem statusErr_status (s : State) : statusErr s.status = s.err := by
  cases hb : s.busy <;> cases hd : s.done <;> cases he : s.err <;> cases hm : s.mode <;>
    simp [statusErr, State.status, hb, hd, he, hm]

/-- A read that performs as `answer v` hands `v` over. -/
theorem hostRead_of_answer {e : Input} {s : State} {v : Nat} (hc : s.Coherent) (h : perform e s = .next (answer v s)) :
    hostRead e s = .ok (v, answer v s) := by
  simp [hostRead, hostDo_of_perform hc h]

/-- A read of STATUS is exact in every state. -/
theorem hostRead_status {s : State} (hc : s.Coherent) : hostRead (.readReg 1) s = .ok (s.status, answer s.status s) :=
  hostRead_of_answer hc (by simp [perform, hostReadReg, State.regView])

/-- A read of a register while idle. -/
theorem hostRead_reg {s : State} {r : Nat} (hc : s.Coherent) (hb : s.busy = false) (hr : r ≤ 6) :
    hostRead (.readReg r) s = .ok (s.regView r, answer (s.regView r) s) :=
  hostRead_of_answer hc (by simp [perform, hostReadReg, hb, Nat.not_lt.mpr hr])

/-- A read of a cell of RAW that holds a value, while idle. -/
theorem hostRead_raw {s : State} {i : Nat} {v : Byte} (hc : s.Coherent) (hb : s.busy = false) (hi : i < s.cfg.rawCap)
    (h : Memory.read s.raw i = some v) : hostRead (.readRaw i) s = .ok (v.toNat, answer v.toNat s) :=
  hostRead_of_answer hc (by simp [perform, hostReadRaw, answerCell, hb, h, Nat.not_le.mpr hi])

/-- A read of a cell of STR that holds a value, while idle. -/
theorem hostRead_str {s : State} {i : Nat} {v : Byte} (hc : s.Coherent) (hb : s.busy = false) (hi : i < s.cfg.strCap)
    (h : Memory.read s.str i = some v) : hostRead (.readStr i) s = .ok (v.toNat, answer v.toNat s) :=
  hostRead_of_answer hc (by simp [perform, hostReadStr, answerCell, hb, h, Nat.not_le.mpr hi])

/-- Reads that hand over known values, whatever has been read before, hand them over in order and change nothing but `reads`. -/
theorem hostReadAll_of_answers {es : List Input} {vs : List Nat} {s : State}
    (h : List.Forall₂ (fun e v => ∀ rs, hostRead e { s with reads := rs } = .ok (v, { s with reads := v :: rs })) es vs) :
    hostReadAll es s = .ok (vs, { s with reads := vs.reverse ++ s.reads }) := by
  have gen : ∀ rs, hostReadAll es { s with reads := rs } = .ok (vs, { s with reads := vs.reverse ++ rs }) := by
    induction h with
    | nil => intro rs; rfl
    | cons h1 _ ih => intro rs; simp [hostReadAll, h1 rs, ih]
  exact gen s.reads

/-- A poll: the engine's turns, then STATUS, which ends the polling where DONE is set. -/
theorem awaitDone_cons {n : Nat} {polls : List Nat} {s t : State} (hc : t.Coherent)
    (h : hostDoAll (List.replicate n .engine) s = .ok t) :
    awaitDone (n :: polls) s =
      if t.done = true then .ok (t.status, answer t.status t) else awaitDone polls (answer t.status t) := by
  simp [awaitDone, h, hostRead_status hc]

end Sys2Proof.Machine
end

