-- ==== Sys2Proof/Tests/Slice0.lean ====
section
/-! SUPPORT. Tests: ill-formed terms are refused, words written out from the spec decode to what they stand for, single steps give
the values the spec's examples give (each expected value is the spec's, named beside it), and every statement's hypotheses are
met by a state written here. -/

namespace Sys2Proof.Tests

open Sys2Proof.Machine

/-! ### Small states -/

/-- The code of a character. -/
def ch (c : Char) : Byte := BitVec.ofNat 8 c.toNat

/-- The codes of a string's characters. -/
def codes (l : List Char) : List Byte := l.map ch

/-- A sequence as the cells of a buffer, from cell 0 on. -/
def cells (l : List Byte) : List Host.Cell := l.zipIdx.map fun c => (c.2, c.1)

/-- An ENCODE of `bytes` in progress. -/
def encoding (phase : Phase) (k : Nat) (c : Checksum) (bytes : List Byte) : State :=
  { State.reset with raw := cells bytes, rawLen := bytes.length, busy := true, phase := phase, k := k, c := c }

/-- A DECODE of `chars` in progress. -/
def decoding (phase : Phase) (k : Nat) (c : Checksum) (chars : List Byte) : State :=
  { State.reset with
    str := cells chars, strLen := chars.length, busy := true, phase := phase, mode := .decode, k := k, c := c }

/-- An idle block with `bytes` in RAW and `chars` in STR, and `inputs` waiting. -/
def idle (bytes chars : List Byte) (inputs : List Input) : State :=
  { State.reset with
    raw := cells bytes, rawLen := bytes.length, str := cells chars, strLen := chars.length, inputs := inputs }

/-- A field of the next state, if there is one. -/
def after {α : Type} (r : Result) (f : State → α) : Option α :=
  match r with
  | .next t => some (f t)
  | .fault _ => none
  | .refused _ => none

/-- `n` cells from `a` on. -/
def part (m : List Host.Cell) (a n : Nat) : List (Option Byte) := (List.range n).map fun i => Memory.read m (a + i)

/-- `"Pineapple"` (95_test_vectors.md V3). -/
def pineapple : List Byte := [0x50, 0x69, 0x6E, 0x65, 0x61, 0x70, 0x70, 0x6C, 0x65]

/-- Its string (V3). -/
def pineappleString : List Byte :=
  codes ['x', 'i', 'g', 'a', 'k', '-', 'n', 'y', 'r', 'y', 'k', '-', 'h', 'u', 'm', 'i', 'l', '-', 'b', 'o', 's', 'e', 'k',
    '-', 's', 'o', 'n', 'a', 'x']

/-- `"1234567890"` (V2). -/
def digits : List Byte := [0x31, 0x32, 0x33, 0x34, 0x35, 0x36, 0x37, 0x38, 0x39, 0x30]

/-- The string of the empty sequence (V1). -/
def empty : List Byte := codes ['x', 'e', 'x', 'a', 'x']

/-- The string of `00 00` (V6). -/
def zeros : List Byte := codes ['x', 'e', 'b', 'a', 'b', '-', 'b', 'y', 'x', 'a', 'x']

/-- A full string buffer: 35 characters, five groups, the string of `"1234567890"` (V2). -/
def digitsString : List Byte :=
  codes ['x', 'e', 's', 'e', 'f', '-', 'd', 'i', 's', 'o', 'f', '-', 'g', 'y', 't', 'u', 'f', '-', 'k', 'a', 't', 'o', 'f',
    '-', 'm', 'o', 'v', 'i', 'f', '-', 'b', 'a', 'x', 'u', 'x']

/-- The conditions of the invariant as one computation. -/
def invChecks (s : State) : Bool :=
  decide s.cfg.Legal && decide s.Coherent && Memory.wf s.raw && Memory.wf s.str && Memory.within s.cfg.rawCap s.raw &&
    Memory.within s.cfg.strCap s.str && decide (s.k ≤ s.cfg.kMax) && decide (s.errPos < 2 ^ s.cfg.lenW) &&
    decide (s.err = false → s.errPos = 0) &&
    decide (s.phase = .encOpen ∨ s.phase = .encBody ∨ s.phase = .encClose → s.mode = .encode) &&
    decide (s.phase = .decFrame ∨ s.phase = .decBody → s.mode = .decode) &&
    decide (s.phase = .encClose → s.k = s.rawLen / 2) && decide (s.phase = .decBody → s.strLen % 6 = 5)

theorem inv_of_checks {s : State} (h : invChecks s = true) : s.Inv := by
  simp only [invChecks, Bool.and_eq_true, decide_eq_true_eq] at h
  obtain ⟨⟨⟨⟨⟨⟨⟨⟨⟨⟨⟨⟨h1, h2⟩, h3⟩, h4⟩, h5⟩, h6⟩, h7⟩, h8⟩, h9⟩, h10⟩, h11⟩, h12⟩, h13⟩ := h
  exact ⟨h1, h2, h3, h4, h5, h6, h7, h8, h9, h10, h11, h12, h13⟩

/-! ### Well-formedness: STR_CAP = 35 and LEN_W = 6 in the block of `State.reset` -/

theorem test_wf_refuses_symbol_outside_str :
    Instr.wf Config.hardware (.symC16 34) = true ∧ Instr.wf Config.hardware (.symC16 35) = false ∧
      Instr.wf Config.hardware (.symHyphen 35) = false ∧ Instr.wf Config.hardware (.symV0 35) = false := by decide

theorem test_wf_refuses_wide_position :
    Instr.wf Config.hardware (.invalidLength 63) = true ∧ Instr.wf Config.hardware (.invalidLength 64) = false ∧
      Instr.wf Config.hardware (.invalidFraming 64) = false ∧ Instr.wf Config.hardware (.invalidCharacter 64) = false ∧
      Instr.wf Config.hardware (.checksumMismatch 64) = false := by decide

/-! ### Decoding: words written out from 30_encoding.md -/

/-- R72: `CMD` = bits 1:0, bits above are ignored (H5 of 95_test_vectors.md: 5 is CMD_ENCODE). -/
theorem test_decode_commands :
    decodeCtrl 0b00 = .ok .cmdNop ∧ decodeCtrl 0b01 = .ok .cmdEncode ∧ decodeCtrl 0b10 = .ok .cmdDecode ∧
      decodeCtrl 0b11 = .ok .cmdRsvd ∧ decodeCtrl 0b101 = .ok .cmdEncode := ⟨rfl, rfl, rfl, rfl, rfl⟩

/-- R79: the match column of the dispatch table, with don't-care bits 1 where the mask has 0. -/
theorem test_decode_steps :
    decodeSel 0b00111 = .ok .eopen ∧ decodeSel 0b01001 = .ok .epair ∧ decodeSel 0b01011 = .ok .etailb ∧
      decodeSel 0b01010 = .ok .etailc ∧ decodeSel 0b01111 = .ok .eclose ∧ decodeSel 0b10011 = .ok .dframe ∧
      decodeSel 0b10101 = .ok .dpair ∧ decodeSel 0b10111 = .ok .dtail := ⟨rfl, rfl, rfl, rfl, rfl, rfl, rfl, rfl⟩

/-- R79: PHASE 0 has no step operation, PHASE 6 and 7 are unreachable. -/
theorem test_decode_no_step :
    decodeSel 0b00011 = .error .noStepWhenIdle ∧ decodeSel 0b11000 = .error .unreachableSelector ∧
      decodeSel 0b11111 = .error .unreachableSelector := ⟨rfl, rfl, rfl⟩

/-- R60: the vowels' codes in bits. -/
theorem test_decode_vowels :
    decodeSymbol 0b01100001 7 = .ok (.symV0 7) ∧ decodeSymbol 0b01100101 7 = .ok (.symV1 7) ∧
      decodeSymbol 0b01101001 7 = .ok (.symV2 7) ∧ decodeSymbol 0b01101111 7 = .ok (.symV3 7) ∧
      decodeSymbol 0b01110101 7 = .ok (.symV4 7) ∧ decodeSymbol 0b01111001 7 = .ok (.symV5 7) :=
  ⟨rfl, rfl, rfl, rfl, rfl, rfl⟩

/-- R60: the consonants' codes in decimal, index 0 to 8. -/
theorem test_decode_consonants_low :
    decodeSymbol 98 7 = .ok (.symC0 7) ∧ decodeSymbol 99 7 = .ok (.symC1 7) ∧ decodeSymbol 100 7 = .ok (.symC2 7) ∧
      decodeSymbol 102 7 = .ok (.symC3 7) ∧ decodeSymbol 103 7 = .ok (.symC4 7) ∧ decodeSymbol 104 7 = .ok (.symC5 7) ∧
      decodeSymbol 107 7 = .ok (.symC6 7) ∧ decodeSymbol 108 7 = .ok (.symC7 7) ∧ decodeSymbol 109 7 = .ok (.symC8 7) :=
  ⟨rfl, rfl, rfl, rfl, rfl, rfl, rfl, rfl, rfl⟩

/-- R60: the consonants' codes in decimal, index 9 to 16, and the hyphen; the delimiter in bits. -/
theorem test_decode_consonants_high :
    decodeSymbol 110 7 = .ok (.symC9 7) ∧ decodeSymbol 112 7 = .ok (.symC10 7) ∧ decodeSymbol 114 7 = .ok (.symC11 7) ∧
      decodeSymbol 115 7 = .ok (.symC12 7) ∧ decodeSymbol 116 7 = .ok (.symC13 7) ∧ decodeSymbol 118 7 = .ok (.symC14 7) ∧
      decodeSymbol 122 7 = .ok (.symC15 7) ∧ decodeSymbol 0b01111000 7 = .ok (.symC16 7) ∧
      decodeSymbol 0b00101101 7 = .ok (.symHyphen 7) :=
  ⟨rfl, rfl, rfl, rfl, rfl, rfl, rfl, rfl, rfl⟩

/-- R61: upper case, codes with bit 7 set, digits and wider words are no symbols. -/
theorem test_decode_no_symbol :
    decodeSymbol 0x41 0 = .error .notASymbol ∧ decodeSymbol 0xE1 0 = .error .notASymbol ∧
      decodeSymbol 0x30 0 = .error .notASymbol ∧ decodeSymbol 0x178 0 = .error .wordTooWide := ⟨rfl, rfl, rfl, rfl⟩

/-- R65: `{b0, b1}` = `01 0100 00 0110 1001`, the first pair of V3; R67: `01 1001 01`, its last byte. -/
theorem test_decode_formats :
    decodePair 0b0101000001101001 = .ok (.pair 1 4 0 6 9) ∧ decodePair 65536 = .error .wordTooWide ∧
      decodeTail 0b01100101 = .ok (.byteTail 1 9 1) ∧ decodeTail 256 = .error .wordTooWide := ⟨rfl, rfl, rfl, rfl⟩

/-- R73: the five error codes; 5 to 7 never occur. -/
theorem test_decode_error_codes :
    decodeErr 0b000 9 = .ok .errNone ∧ decodeErr 0b001 9 = .ok (.invalidFraming 9) ∧
      decodeErr 0b010 9 = .ok (.invalidLength 9) ∧ decodeErr 0b011 9 = .ok (.invalidCharacter 9) ∧
      decodeErr 0b100 9 = .ok (.checksumMismatch 9) ∧ decodeErr 0b101 9 = .error .unusedErrorCode ∧
      decodeErr 0b111 9 = .error .unusedErrorCode := ⟨rfl, rfl, rfl, rfl, rfl, rfl, rfl⟩

/-! ### One step each: commands (43_host_commands.md, 95_test_vectors.md 2.5) -/

/-- H16: DONE is not cleared. -/
theorem test_cmdNop_keeps_done :
    after (exec .cmdNop { State.reset with done := true }) State.status = some 0b0010 := by decide

/-- H2. -/
theorem test_cmdRsvd_has_no_effect : after (exec .cmdRsvd State.reset) State.status = some 0b0000 := by decide

/-- H3. -/
theorem test_cmdEncode_starts :
    after (exec .cmdEncode State.reset) (fun t => (t.status, t.phase)) = some (0b0001, .encOpen) := by decide

/-- H15: after a failed decode (STATUS 1110) the accepted command clears the error. -/
theorem test_cmdEncode_clears_error :
    after (exec .cmdEncode { State.reset with mode := .decode, done := true, err := true, errCode := .checksumMismatch, errPos := 25 })
      (fun t => (t.status, t.errCode.code, t.errPos)) = some (0b0001, 0, 0) := by decide

/-- H4. -/
theorem test_cmdDecode_starts :
    after (exec .cmdDecode State.reset) (fun t => (t.status, t.phase)) = some (0b1001, .decFrame) := by decide

/-- H6: the encode continues. -/
theorem test_cmdDecode_ignored_when_busy :
    after (exec .cmdDecode (encoding .encBody 0 1 [])) (fun t => (t.status, t.phase)) = some (0b0001, .encBody) := by decide

/-! ### One step each: the encoder (41_encoder.md) -/

/-- R102's example: `STR[0] = 0x78`, `C = 1`, `K = 0`, whatever they were. -/
theorem test_eopen :
    after (exec .eopen (encoding .encOpen 3 24 [])) (fun t => (part t.str 0 2, t.c, t.k, t.phase)) =
      some ([some 0x78, none], 1, 0, .encBody) := by decide

/-- R103's example: group 0 of V3 is `igak-n`, `C <- 22`. -/
theorem test_epair_first_group :
    after (exec .epair (encoding .encBody 0 1 pineapple)) (fun t => (part t.str 1 6, t.c, t.k)) =
      some ((codes ['i', 'g', 'a', 'k', '-', 'n']).map some, 22, 1) := by decide

/-- Group 2 of V2, where both vowels wrap: `ytuf-k` at 13, `C` from 23 to 0. -/
theorem test_epair_vowels_wrap :
    after (exec .epair (encoding .encBody 2 23 digits)) (fun t => (part t.str 13 6, t.c, t.k)) =
      some ((codes ['y', 't', 'u', 'f', '-', 'k']).map some, 0, 3) := by decide

/-- R104's example: the tail of V3 is `ona` at 25; `C` stays 32. -/
theorem test_etailb :
    after (exec .etailb (encoding .encBody 4 32 pineapple)) (fun t => (part t.str 25 4, t.c, t.k, t.phase)) =
      some ([some (ch 'o'), some (ch 'n'), some (ch 'a'), none], 32, 4, .encClose) := by decide

/-- R105's example: the tail of V2 is `axu` at 31; no cell of RAW is read. -/
theorem test_etailc :
    after (exec .etailc { encoding .encBody 5 24 digits with raw := [] }) (fun t => (part t.str 31 3, t.phase)) =
      some ([some (ch 'a'), some (ch 'x'), some (ch 'u')], .encClose) := by decide

/-- R107's example: `n = 0` closes at 4 with STR_LEN 5 and STATUS 0010. -/
theorem test_eclose :
    after (exec .eclose (encoding .encClose 0 1 [])) (fun t => (part t.str 3 3, t.strLen, t.status)) =
      some ([none, some 0x78, none], 5, 0b0010) := by decide

/-! ### One step each: the decoder (42_decoder.md, 95_test_vectors.md 2.4) -/

/-- R121's example and E9: the leading delimiter is checked first. -/
theorem test_dframe :
    after (exec .dframe (decoding .decFrame 3 24 empty)) (fun t => (t.phase, t.c, t.k)) = some (.decBody, 1, 0) ∧
      after (exec .dframe (decoding .decFrame 3 24 (codes ['a', 'e', 'x', 'a', 'b'])))
        (fun t => (t.status, t.errCode, t.errPos, t.k)) = some (0b1110, .invalidFraming, 0, 0) := by decide

/-- E1 and E5: the length comes before any character, and needs none. -/
theorem test_dframe_length :
    after (exec .dframe (decoding .decFrame 0 1 [])) (fun t => (t.errCode, t.errPos)) = some (.invalidLength, 0) ∧
      after (exec .dframe (decoding .decFrame 0 1 (codes ['a', 'b', 'c']))) (fun t => (t.errCode, t.errPos, t.rawLen)) =
        some (.invalidLength, 3, 0) := by decide

/-- Step 3 of P2's decode: `yryk-h` under `C = 22` is `6E 65`, `C <- 9`. -/
theorem test_dpair :
    after (exec .dpair (decoding .decBody 1 22 pineappleString)) (fun t => (part t.raw 1 4, t.c, t.k)) =
      some ([none, some 0x6E, some 0x65, none], 9, 2) := by decide

/-- E18: letter 4 fails its lookup before letter 0 its range check. -/
theorem test_dpair_lookups_first :
    after (exec .dpair (decoding .decBody 0 1 (codes ['x', 'y', 'g', 'a', 'k', '-', '?', 'e', 'x', 'a', 'x'])))
      (fun t => (t.errCode, t.errPos, t.k, t.c, t.rawLen, t.status)) = some (.invalidCharacter, 6, 0, 1, 0, 0b1110) := by decide

/-- R128's byte tail example: `ona` under `C = 32` is `65`, RAW_LEN 9. -/
theorem test_dtail :
    after (exec .dtail (decoding .decBody 4 32 pineappleString)) (fun t => (Memory.read t.raw 8, t.rawLen, t.status)) =
      some (some 0x65, 9, 0b1010) := by decide

/-- E28: `n` changed to `x` makes a checksum tail that does not match; RAW[0 .. 7] hold no value then (R178). -/
theorem test_dtail_mismatch :
    after (exec .dtail { decoding .decBody 4 32 (pineappleString.set 26 0x78) with raw := cells pineapple })
      (fun t => ((t.errCode, t.errPos), (t.k, t.c), part t.raw 6 3)) =
      some ((.checksumMismatch, 25), (4, 32), [none, none, some 0x65]) := by decide

/-! ### One step each: symbols, formats, error codes -/

/-- R60: the vowels in cell 2. -/
theorem test_vowel_symbols :
    [Instr.symV0 2, .symV1 2, .symV2 2, .symV3 2, .symV4 2, .symV5 2].map
      (fun i => after (exec i State.reset) fun t => part t.str 2 1) =
      (codes ['a', 'e', 'i', 'o', 'u', 'y']).map fun c => some [some c] := by decide

/-- R60: the consonants and the hyphen in cell 2. -/
theorem test_consonant_symbols :
    [Instr.symC0 2, .symC1 2, .symC2 2, .symC3 2, .symC4 2, .symC5 2, .symC6 2, .symC7 2, .symC8 2, .symC9 2, .symC10 2,
      .symC11 2, .symC12 2, .symC13 2, .symC14 2, .symC15 2, .symC16 2, .symHyphen 2].map
      (fun i => after (exec i State.reset) fun t => part t.str 2 1) =
      (codes ['b', 'c', 'd', 'f', 'g', 'h', 'k', 'l', 'm', 'n', 'p', 'r', 's', 't', 'v', 'z', 'x', '-']).map
        fun c => some [some c] := by decide

/-- V3, field by field: `50 69` under `C = 1` is `igak-n`. -/
theorem test_pair :
    after (exec (.pair 1 4 0 6 9) (encoding .encBody 0 1 pineapple)) (fun t => (part t.str 1 6, t.k)) =
      some ((codes ['i', 'g', 'a', 'k', '-', 'n']).map some, 0) := by decide

/-- V3: `65` under `C = 32` is `ona`. -/
theorem test_byteTail :
    after (exec (.byteTail 1 9 1) (encoding .encBody 4 32 pineapple)) (fun t => part t.str 25 3) =
      some ((codes ['o', 'n', 'a']).map some) := by decide

/-- R178: the two kinds DFRAME raises, with ERR_CODE 1 and 2 (R171). -/
theorem test_frame_errors :
    [Instr.invalidFraming 4, .invalidLength 6].map
      (fun i => after (exec i (decoding .decFrame 0 1 empty)) fun t => (t.errCode.code, t.errPos, t.rawLen, t.status, t.strLen)) =
      [some (1, 4, 0, 0b1110, 5), some (2, 6, 0, 0b1110, 5)] := by decide

/-- R178: the two kinds DPAIR and DTAIL raise, with ERR_CODE 3 and 4 (R171); `C` and `K` are kept. -/
theorem test_body_errors :
    [Instr.invalidCharacter 15, .checksumMismatch 25].map
      (fun i => after (exec i (decoding .decBody 2 23 digitsString)) fun t => (t.errCode.code, t.errPos, t.k, t.c, t.status)) =
      [some (3, 15, 2, 23, 0b1110), some (4, 25, 2, 23, 0b1110)] := by decide

/-- R180, R153. -/
theorem test_errNone :
    after (exec .errNone { State.reset with mode := .decode, done := true, err := true, errCode := .invalidLength, errPos := 3 })
      (fun t => (t.status, t.errCode.code, t.errPos)) = some (0b1010, 0, 0) := by decide

/-! ### Steps of the machine -/

/-- A word of the table is performed by the very next step: CMD_ENCODE (H3), ETAILC (row 2 of P1). -/
theorem test_step_runs_placed_word :
    after (step (State.reset.withFetchWord 8 0b01)) State.status = some 0b0001 ∧
      after (step (State.reset.withFetchWord 8 0b01010)) State.phase = some .encClose := by decide

/-- H7, H8: host writes during lockout are ignored. -/
theorem test_lockout :
    after (step { encoding .encBody 0 1 [0x31] with inputs := [.writeRaw 0 0xAA] }) (fun t => part t.raw 0 1) = some [some 0x31] ∧
      after (step { encoding .encBody 0 1 [0x31] with inputs := [.writeReg 2 0] }) State.rawLen = some 1 := by decide

/-- H11 to H14: the capacities of the length registers, and a read-only register. -/
theorem test_length_writes :
    [Input.writeReg 2 12, .writeReg 2 11].map (fun e => after (step (idle [] [] [e])) State.rawLen) = [some 0, some 11] ∧
      after (step (idle [] [] [.writeReg 3 36])) State.strLen = some 0 ∧
      after (step (idle [] [] [.writeReg 6 0])) State.c = some 1 := by decide

/-- T2: reset while busy with K = 2. -/
theorem test_reset_while_busy :
    after (step { encoding .encBody 2 23 digits with inputs := [.reset] })
      (fun t => ([t.status, t.rawLen, t.regView 6, t.k], part t.raw 0 2)) = some ([0, 0, 1, 0], [none, none]) := by decide

/-! ### Witnesses: for every statement with hypotheses, a state and operands that meet them; one for each clause -/

theorem test_witness_DispatchRowsAreDisjointAndComplete :
    [3, 4, 23, 24, 31].map (fun w => (decide (w < 32), (selRows.filter (·.matches w)).length)) =
      [(true, 0), (true, 1), (true, 1), (true, 0), (true, 0)] := by decide

/-- The last group (`K < KT`) and the tail (`K = KT`), the latter also with `KT = K_MAX`. -/
theorem test_witness_BusyStateSelectsTheOneEnabledStep :
    ∀ s ∈ [encoding .encBody 3 8 pineapple, encoding .encBody 5 24 digits, decoding .decBody 5 24 digitsString],
      s.Coherent ∧ s.busy = true := by decide

theorem test_witness_StepRunsDecodedInstruction_turn :
    ∃ (s : State) (i : Instr), s.Coherent ∧ s.inputs = [] ∧ s.busy = true ∧ decode ⟨.sel, s.sel, 0⟩ = .ok i :=
  ⟨encoding .encBody 4 32 pineapple, .etailb, by decide, rfl, rfl, rfl⟩

theorem test_witness_StepRunsDecodedInstruction_event :
    ∃ (s : State) (i : Instr) (rest : List Input),
      s.Coherent ∧ s.inputs = .engine :: rest ∧ s.busy = true ∧ decode ⟨.sel, s.sel, 0⟩ = .ok i :=
  ⟨{ decoding .decFrame 0 1 empty with inputs := [.engine, .readReg 1] }, .dframe, [.readReg 1], by decide, rfl, rfl, rfl⟩

theorem test_witness_StepRunsDecodedInstruction_command :
    ∃ (s : State) (i : Instr) (v : Nat) (rest : List Input),
      s.Coherent ∧ s.inputs = .writeReg 0 v :: rest ∧ decode ⟨.ctrl, v, 0⟩ = .ok i :=
  ⟨idle [] [] [.writeReg 0 2], .cmdDecode, 2, [], by decide, rfl, rfl⟩

theorem test_witness_StepRunsDecodedInstruction_symbol :
    ∃ (s : State) (i : Instr) (n : Nat) (v : Byte) (rest : List Input),
      s.Coherent ∧ s.inputs = .writeStr n v :: rest ∧ decode ⟨.str, v.toNat, n⟩ = .ok i :=
  ⟨idle [] [] [.writeStr 34 0x78], .symC16 34, 34, 0x78, [], by decide, rfl, rfl⟩

theorem test_witness_IdleEngineHasNoStep :
    (∃ s : State, s.Coherent ∧ s.busy = false ∧ s.inputs = []) ∧
      ∃ (s : State) (rest : List Input), s.Coherent ∧ s.busy = false ∧ s.inputs = .engine :: rest :=
  ⟨⟨State.reset, by decide⟩, ⟨idle pineapple [] [.engine, .engine], [.engine], by decide⟩⟩

theorem test_witness_StateWithoutMeaningIsRefused :
    ∀ s ∈ [{ State.reset with busy := true }, { State.reset with done := true, err := true, inputs := [.writeReg 0 1] }],
      ¬ s.Coherent ∧ s.inputs.head? ≠ some .reset := by decide

theorem test_witness_EncodeAndDecodeCommandsAreAccepted :
    State.reset.busy = false ∧ (encoding .encOpen 0 1 []).busy = true ∧
      ∀ v ∈ [1, 2, 5], (idle [] [] [.writeReg 0 v]).Coherent ∧ (v % 4 = 1 ∨ v % 4 = 2) := by decide

theorem test_witness_CtrlWritePerformsItsCommand :
    (∃ (s : State) (v : Nat) (rest : List Input), s.Coherent ∧ s.inputs = .writeReg 0 v :: rest ∧ s.busy = true) ∧
      ∀ v ∈ [0, 1, 2, 3, 5], (idle [] [] [.writeReg 0 v]).Coherent ∧ (idle [] [] [.writeReg 0 v]).busy = false ∧
        (v % 4 = 0 ∨ v % 4 = 3 ∨ v % 4 = 1 ∨ v % 4 = 2) :=
  ⟨⟨{ encoding .encBody 0 1 [] with inputs := [.writeReg 0 2] }, 2, [], by decide⟩, by decide⟩

theorem test_witness_EopenOpensTheString : (encoding .encOpen 3 24 digits).phase = .encOpen := rfl

/-- The first pair, and the last one a full buffer holds (`K = 4`, `KT = K_MAX = 5`). -/
theorem test_witness_EpairEncodesOnePair :
    ∀ k ∈ [0, 4], (encoding .encBody k 9 digits).Coherent ∧ k < (encoding .encBody k 9 digits).rawLen / 2 ∧
      (Memory.read (encoding .encBody k 9 digits).raw (2 * k)).isSome ∧
      (Memory.read (encoding .encBody k 9 digits).raw (2 * k + 1)).isSome := by decide

/-- The last cell of RAW: `n = RAW_CAP = 11`, `K = 5`. -/
theorem test_witness_EtailbEncodesTheLastByte :
    ∃ (s : State) (b0 : Byte), s.Coherent ∧ s.phase = .encBody ∧ s.k = s.rawLen / 2 ∧ s.rawLen % 2 = 1 ∧
      Memory.read s.raw (2 * s.k) = some b0 :=
  ⟨encoding .encBody 5 24 (digits ++ [0]), 0, by decide⟩

/-- `n = 0` after reset (no cell of RAW holds a value), and `KT = K_MAX`. -/
theorem test_witness_EtailcEmitsTheChecksum :
    ∀ s ∈ [encoding .encBody 0 1 [], encoding .encBody 5 24 digits],
      s.Coherent ∧ s.phase = .encBody ∧ s.k = s.rawLen / 2 ∧ s.rawLen % 2 = 0 := by decide

theorem test_witness_TailIsChosenByParity :
    (∃ s : State, s.Coherent ∧ s.phase = .encBody ∧ s.k = s.rawLen / 2 ∧ s.rawLen % 2 = 0) ∧
      ∃ s : State, s.Coherent ∧ s.phase = .encBody ∧ s.k = s.rawLen / 2 ∧ s.rawLen % 2 = 1 :=
  ⟨⟨encoding .encBody 5 24 digits, by decide⟩, ⟨encoding .encBody 4 32 pineapple, by decide⟩⟩

theorem test_witness_EcloseEndsTheOperation :
    ∀ k ∈ [0, 5], (encoding .encClose k 1 []).k ≤ (encoding .encClose k 1 []).cfg.kMax ∧
      (encoding .encClose k 1 []).phase = .encClose := by decide

theorem test_witness_EncoderRaisesNoErrorAndKeepsItsInput :
    (∃ t, exec .eopen (encoding .encOpen 0 1 []) = .next t) ∧ (∃ t, exec .epair (encoding .encBody 0 1 digits) = .next t) ∧
      (∃ t, exec .etailb (encoding .encBody 4 32 pineapple) = .next t) ∧
      (∃ t, exec .etailc (encoding .encBody 5 24 digits) = .next t) ∧
      ∃ t, exec .eclose (encoding .encClose 5 24 digits) = .next t :=
  ⟨⟨_, rfl⟩, ⟨_, rfl⟩, ⟨_, rfl⟩, ⟨_, rfl⟩, ⟨_, rfl⟩⟩

/-- Clause 1: the shortest and the longest string. -/
theorem test_witness_DframeChecksLengthThenFrame_passes :
    ∀ s ∈ [decoding .decFrame 0 1 empty, decoding .decFrame 0 1 digitsString],
      s.Coherent ∧ s.phase = .decFrame ∧ s.strLen % 6 = 5 ∧ Memory.read s.str 0 = some 0x78 ∧
        Memory.read s.str (s.strLen - 1) = some 0x78 := by decide

/-- Clause 2: lengths 0, 4, 6 and 34, with no cell of STR holding a value. -/
theorem test_witness_DframeChecksLengthThenFrame_length :
    ∀ n ∈ [0, 4, 6, 34], ({ decoding .decFrame 0 1 [] with strLen := n } : State).Coherent ∧ n % 6 ≠ 5 := by decide

/-- Clause 3: E9. -/
theorem test_witness_DframeChecksLengthThenFrame_leading :
    ∃ (s : State) (c : Byte), s.Coherent ∧ s.phase = .decFrame ∧ s.strLen % 6 = 5 ∧ Memory.read s.str 0 = some c ∧ c ≠ 0x78 :=
  ⟨decoding .decFrame 0 1 (codes ['a', 'e', 'x', 'a', 'b']), ch 'a', by decide⟩

/-- Clause 4: E10. -/
theorem test_witness_DframeChecksLengthThenFrame_closing :
    ∃ (s : State) (c : Byte), s.Coherent ∧ s.phase = .decFrame ∧ s.strLen % 6 = 5 ∧ Memory.read s.str 0 = some 0x78 ∧
      Memory.read s.str (s.strLen - 1) = some c ∧ c ≠ 0x78 :=
  ⟨decoding .decFrame 0 1 (codes ['x', '!', 'x', 'a', 'b']), ch 'b', by decide⟩

/-- DPAIR is enabled and the five letters of its group are there. -/
def groupRead (s : State) (ch0 ch1 ch2 ch3 ch4 : Byte) : Bool :=
  decide <| s.Coherent ∧ s.phase = .decBody ∧ s.k < (s.strLen - 5) / 6 ∧
    Memory.read s.str (1 + 6 * s.k + letterOffset s.cfg 0) = some ch0 ∧
    Memory.read s.str (1 + 6 * s.k + letterOffset s.cfg 1) = some ch1 ∧
    Memory.read s.str (1 + 6 * s.k + letterOffset s.cfg 2) = some ch2 ∧
    Memory.read s.str (1 + 6 * s.k + letterOffset s.cfg 3) = some ch3 ∧
    Memory.read s.str (1 + 6 * s.k + letterOffset s.cfg 4) = some ch4

/-- A decode of one pair group under `C = 1`. -/
def oneGroup (c0 c1 c2 c3 c4 : Char) : State :=
  decoding .decBody 0 1 (codes ['x', c0, c1, c2, c3, '-', c4, 'e', 'x', 'a', 'x'])

/-- Clause 1, all seven causes: a wrong letter 0 to 4 (the delimiter in each D slot), `hi` (E19), `lo` (E21's group). -/
theorem test_witness_DpairDecodesOneGroup_raises :
    (groupRead (oneGroup '?' 'g' 'a' 'k' 'n') (ch '?') (ch 'g') (ch 'a') (ch 'k') (ch 'n') ∧ vidx (ch '?') = none) ∧
      (groupRead (oneGroup 'i' 'x' 'a' 'k' 'n') (ch 'i') (ch 'x') (ch 'a') (ch 'k') (ch 'n') ∧ didx (ch 'x') = none) ∧
      (groupRead (oneGroup 'i' 'g' 'b' 'k' 'n') (ch 'i') (ch 'g') (ch 'b') (ch 'k') (ch 'n') ∧ vidx (ch 'b') = none) ∧
      groupRead (oneGroup 'i' 'g' 'a' 'x' 'n') (ch 'i') (ch 'g') (ch 'a') (ch 'x') (ch 'n') ∧
      groupRead (oneGroup 'y' 'g' 'a' 'k' 'x') (ch 'y') (ch 'g') (ch 'a') (ch 'k') (ch 'x') ∧
      (groupRead (oneGroup 'y' 'g' 'y' 'k' 'n') (ch 'y') (ch 'g') (ch 'y') (ch 'k') (ch 'n') ∧ (5 + 6 - 1 % 6) % 6 = 4) ∧
      (groupRead (oneGroup 'i' 'g' 'y' 'k' 'n') (ch 'i') (ch 'g') (ch 'y') (ch 'k') (ch 'n') ∧ (5 + 6 - 1 / 6) % 6 = 5) := by
  decide

/-- Clause 2: the last group a full buffer holds, `ovif-b` of V2 under `C = 9` (`i0 = 3`, `i2 = 2`), and the extreme fields
`hi = lo = 3` with all nibbles 15, `uzoz-z` of V7 under `C = 1`. -/
theorem test_witness_DpairDecodesOneGroup_decodes :
    (groupRead (decoding .decBody 4 9 digitsString) (vowel 3) (cons (Fin.ofNat 17 14)) (vowel 2) (cons (Fin.ofNat 17 3))
        (cons (Fin.ofNat 17 0)) ∧ (3 + 6 - 9 % 6) % 6 < 4 ∧ (2 + 6 - 9 / 6) % 6 < 4) ∧
      (groupRead (oneGroup 'u' 'z' 'o' 'z' 'z') (vowel 4) (cons (Fin.ofNat 17 15)) (vowel 3) (cons (Fin.ofNat 17 15))
        (cons (Fin.ofNat 17 15)) ∧ (4 + 6 - 1 % 6) % 6 = 3 ∧ (3 + 6 - 1 / 6) % 6 = 3) := by
  decide

/-- DTAIL is enabled and the three characters of the tail are there. -/
def tailRead (s : State) (ch0 ch1 ch2 : Byte) : Bool :=
  decide <| s.Coherent ∧ s.phase = .decBody ∧ s.k = (s.strLen - 5) / 6 ∧ Memory.read s.str (1 + 6 * s.k) = some ch0 ∧
    Memory.read s.str (2 + 6 * s.k) = some ch1 ∧ Memory.read s.str (3 + 6 * s.k) = some ch2

/-- A decode of a string with no pair group, under `C = 1`. -/
def onlyTail (c0 c1 c2 : Char) : State := decoding .decBody 0 1 (codes ['x', c0, c1, c2, 'x'])

/-- Clause 1, all seven causes: the lookups, the checksum tail's two vowels (E24, E25), the byte tail's two fields (E22, E23). -/
theorem test_witness_DtailEndsTheOperation_raises :
    (tailRead (onlyTail '?' 'x' 'a') (ch '?') (ch 'x') (ch 'a') ∧ vidx (ch '?') = none) ∧
      (tailRead (onlyTail 'e' '-' 'a') (ch 'e') (ch '-') (ch 'a') ∧ midx (ch '-') = none) ∧
      (tailRead (onlyTail 'e' 'x' 'b') (ch 'e') (ch 'x') (ch 'b') ∧ vidx (ch 'b') = none) ∧
      (tailRead (onlyTail 'a' 'x' 'a') (ch 'a') (ch 'x') (ch 'a') ∧ vidx (ch 'a') = some 0) ∧
      (tailRead (onlyTail 'e' 'x' 'e') (ch 'e') (ch 'x') (ch 'e') ∧ vidx (ch 'e') = some 1) ∧
      (tailRead (onlyTail 'y' 'b' 'a') (ch 'y') (ch 'b') (ch 'a') ∧ (5 + 6 - 1 % 6) % 6 = 4) ∧
      (tailRead (onlyTail 'e' 'b' 'y') (ch 'e') (ch 'b') (ch 'y') ∧ (5 + 6 - 1 / 6) % 6 = 5) := by
  decide

/-- Clauses 2 and 3: V2's checksum tail behind the last group, V3's byte tail. -/
theorem test_witness_DtailEndsTheOperation_ends :
    tailRead (decoding .decBody 5 24 digitsString) (vowel (Fin.ofNat 6 (24 % 6))) 0x78 (vowel (Fin.ofNat 6 (24 / 6))) ∧
      tailRead (decoding .decBody 4 32 pineappleString) (vowel 3) (cons (Fin.ofNat 17 9)) (vowel 0) ∧
      (3 + 6 - 32 % 6) % 6 < 4 ∧ (0 + 6 - 32 / 6) % 6 < 4 := by
  decide

/-- A5's string with `?` in its hyphen slot, cell 5. -/
theorem test_witness_HyphenSlotsAreNotRead :
    ∃ (s : State) (m : List Host.Cell), m ≠ s.str ∧
      ∀ a, ¬ IsHyphenSlot s.cfg s.strLen a → Memory.read m a = Memory.read s.str a := by
  refine ⟨decoding .decBody 0 1 zeros, Memory.write (decoding .decBody 0 1 zeros).str 5 0x3F, by decide, fun a ha => ?_⟩
  have h5 : a ≠ 5 := fun h => ha ⟨0, by decide, h⟩
  rw [Memory.read_write, if_neg h5]

theorem test_witness_DecoderKeepsItsInput :
    (∃ t, exec .dframe (decoding .decFrame 0 1 empty) = .next t) ∧
      (∃ t, exec .dpair (decoding .decBody 4 9 digitsString) = .next t) ∧
      ∃ t, exec .dtail (decoding .decBody 4 32 pineappleString) = .next t :=
  ⟨⟨_, rfl⟩, ⟨_, rfl⟩, ⟨_, rfl⟩⟩

theorem test_witness_RaisedErrorsEnterTheErrorState :
    after (exec .dframe (decoding .decFrame 0 1 (codes ['a', 'b', 'c']))) State.err = some true ∧
      after (exec .dpair (oneGroup 'y' 'g' 'a' 'k' 'n')) State.err = some true ∧
      after (exec .dtail (onlyTail 'a' 'x' 'a')) State.err = some true ∧ (onlyTail 'a' 'x' 'a').err = false := by decide

theorem test_witness_ErrorEntryRecordsAndForgets :
    (decoding .decFrame 0 1 empty).phase = .decFrame ∧ (decoding .decBody 4 32 pineappleString).phase = .decBody := by decide

/-- Clauses at the ends of STR: cells 0 and 34 idle and during lockout, cell 35. -/
theorem test_witness_SymbolsAreStoredAsTheirCodes :
    (0 < State.reset.cfg.strCap ∧ 34 < State.reset.cfg.strCap ∧ State.reset.busy = false) ∧
      (34 < (encoding .encBody 0 1 []).cfg.strCap ∧ (encoding .encBody 0 1 []).busy = true) ∧
      State.reset.cfg.strCap ≤ 35 := by decide

theorem test_witness_PairBecomesItsGroup :
    ∀ s ∈ [encoding .encBody 0 1 digits, encoding .encBody 4 9 digits],
      s.Coherent ∧ s.phase = .encBody ∧ s.k < s.rawLen / 2 := by decide

theorem test_witness_ByteTailBecomesItsLetters :
    ∃ s : State, s.Coherent ∧ s.phase = .encBody ∧ s.k = s.rawLen / 2 ∧ s.rawLen % 2 = 1 :=
  ⟨encoding .encBody 4 32 pineapple, by decide⟩

/-- The last cell of each buffer. -/
theorem test_witness_HostWritesStoreOneCell :
    (∃ (s : State) (n : Nat) (v : Byte) (rest : List Input),
        s.Coherent ∧ s.busy = false ∧ s.inputs = .writeRaw n v :: rest ∧ n < s.cfg.rawCap ∧ n = 10) ∧
      ∃ (s : State) (n : Nat) (v : Byte) (rest : List Input),
        s.Coherent ∧ s.busy = false ∧ s.inputs = .writeStr n v :: rest ∧ n < s.cfg.strCap ∧ n = 34 :=
  ⟨⟨idle [] [] [.writeRaw 10 0xFF], 10, 0xFF, [], by decide⟩, ⟨idle [] [] [.writeStr 34 0xFF], 34, 0xFF, [], by decide⟩⟩

theorem test_witness_LockoutIgnoresHostWrites :
    ∀ e ∈ [Input.writeRaw 10 0, .writeStr 34 0, .writeReg 0 1, .writeReg 6 0],
      ({ encoding .encBody 0 1 digits with inputs := [e] } : State).Coherent ∧
        ({ encoding .encBody 0 1 digits with inputs := [e] } : State).busy = true ∧ 10 < State.reset.cfg.rawCap ∧
        34 < State.reset.cfg.strCap := by decide

/-- RAW_CAP = 11 and 12, STR_CAP = 35 and 36, all below `2^LEN_W = 64`, and the four read-only registers. -/
theorem test_witness_LengthWritesStopAtTheCapacity :
    ∀ e ∈ [Input.writeReg 2 11, .writeReg 2 12, .writeReg 3 35, .writeReg 3 36, .writeReg 3 63, .writeReg 1 0, .writeReg 4 1,
        .writeReg 5 1, .writeReg 6 1],
      (idle [] [] [e]).Coherent ∧ (idle [] [] [e]).busy = false ∧ 63 < 2 ^ (idle [] [] [e]).cfg.lenW := by decide

theorem test_witness_HostCannotDisturbAnOperation :
    ∀ e ∈ [Input.writeRaw 0 1, .readRaw 0, .writeStr 0 1, .readStr 0, .writeReg 0 2, .readReg 1],
      e ≠ .engine ∧ e ≠ .reset ∧
        (after (step { encoding .encBody 0 1 digits with inputs := [e] }) State.busy).isSome := by decide

theorem test_witness_HostReadsAnswerTheState_registers :
    ∀ r ∈ [0, 1, 2, 3, 4, 5, 6],
      (idle digits digitsString [.readReg r]).Coherent ∧ (idle digits digitsString [.readReg r]).busy = false := by decide

/-- The last cell of each buffer. -/
theorem test_witness_HostReadsAnswerTheState_cells :
    ∀ e ∈ [Input.readRaw 10, .readStr 34], (idle (digits ++ [7]) digitsString [e]).Coherent ∧
      (idle (digits ++ [7]) digitsString [e]).busy = false ∧
      Memory.read (idle (digits ++ [7]) digitsString [e]).raw 10 = some 7 ∧
      Memory.read (idle (digits ++ [7]) digitsString [e]).str 34 = some 0x78 ∧
      10 < (idle (digits ++ [7]) digitsString [e]).cfg.rawCap ∧ 34 < (idle (digits ++ [7]) digitsString [e]).cfg.strCap := by
  decide

theorem test_witness_UnspecifiedReadsAreFreeValues :
    (∀ e ∈ [Input.readRaw 10, .readStr 34, .readReg 0, .readReg 6],
        ({ encoding .encBody 0 1 digits with inputs := [e] } : State).Coherent ∧
          ({ encoding .encBody 0 1 digits with inputs := [e] } : State).busy = true) ∧
      (∀ e ∈ [Input.readRaw 10, .readStr 34], (idle [] [] [e]).Coherent ∧ (idle [] [] [e]).busy = false) ∧
      Memory.read State.reset.raw 10 = none ∧ 10 < State.reset.cfg.rawCap ∧ Memory.read State.reset.str 34 = none ∧
      34 < State.reset.cfg.strCap := by decide

theorem test_witness_ReadsHaveNoSideEffect :
    (∀ e ∈ [Input.readRaw 10, .readStr 34, .readReg 6],
        (after (step (idle [] [] [e, e])) State.busy).isSome ∧ (idle [] [] [e, e]).busy = false) ∧
      ∀ e ∈ [Input.readRaw 10, .readStr 34, .readReg 6],
        (after (step { encoding .encBody 0 1 digits with inputs := [e] }) State.busy).isSome := by decide

/-- The first index outside each space. -/
theorem test_witness_AccessesOutsideAreRefused :
    (idle [] [] [.writeRaw 11 0]).Coherent ∧ State.reset.cfg.rawCap ≤ 11 ∧ (idle [] [] [.readStr 35]).Coherent ∧
      State.reset.cfg.strCap ≤ 35 ∧ (idle [] [] [.writeReg 7 0]).Coherent ∧ 6 < 7 := by decide

theorem test_witness_UnwrittenInputIsRefused_encode :
    (∃ s : State, s.Coherent ∧ s.phase = .encBody ∧ s.k < s.rawLen / 2 ∧ Memory.read s.raw (2 * s.k) = none) ∧
      (∃ (s : State) (b0 : Byte), s.Coherent ∧ s.phase = .encBody ∧ s.k < s.rawLen / 2 ∧
        Memory.read s.raw (2 * s.k) = some b0 ∧ Memory.read s.raw (2 * s.k + 1) = none) ∧
      ∃ s : State, s.Coherent ∧ s.phase = .encBody ∧ s.k = s.rawLen / 2 ∧ s.rawLen % 2 = 1 ∧
        Memory.read s.raw (2 * s.k) = none :=
  ⟨⟨{ encoding .encBody 0 1 [] with rawLen := 2 }, by decide⟩,
    ⟨{ encoding .encBody 0 1 [0x31] with rawLen := 2 }, 0x31, by decide⟩,
    ⟨{ encoding .encBody 5 1 [] with rawLen := 11 }, by decide⟩⟩

theorem test_witness_UnwrittenInputIsRefused_decode :
    (∃ s : State, s.Coherent ∧ s.phase = .decFrame ∧ s.strLen % 6 = 5 ∧ Memory.read s.str 0 = none) ∧
      (∃ s : State, s.Coherent ∧ s.phase = .decFrame ∧ s.strLen % 6 = 5 ∧ Memory.read s.str 0 = some 0x78 ∧
        Memory.read s.str (s.strLen - 1) = none) ∧
      ∃ s : State, s.Coherent ∧ s.phase = .decBody ∧ s.k = (s.strLen - 5) / 6 ∧
        Memory.read s.str (1 + 6 * s.k) = none :=
  ⟨⟨{ decoding .decFrame 0 1 [] with strLen := 5 }, by decide⟩, ⟨{ decoding .decFrame 0 1 [0x78] with strLen := 35 }, by decide⟩,
    ⟨{ decoding .decBody 5 1 [] with strLen := 35 }, by decide⟩⟩

/-- A DECODE before its last pair group, in which letter `j` was not written. -/
def unwrittenLetter (j : Nat) : State :=
  { decoding .decBody 4 1 [] with
    strLen := 35, str := (cells digitsString).filter fun c => c.1 ≠ 25 + letterOffset Config.hardware j }

theorem unwrittenLetter_earlier : ∀ j : Fin 5, ∀ i, i < j.val → ∃ ch ∈ digitsString,
    Memory.read (unwrittenLetter j).str (25 + letterOffset Config.hardware i) = some ch ∧
      if i = 0 ∨ i = 2 then vidx ch ≠ none else didx ch ≠ none := by decide

/-- Each of the five letters. -/
theorem test_witness_UnwrittenInputIsRefused_letters :
    ∀ j : Fin 5, ∃ s : State, s.Coherent ∧ s.phase = .decBody ∧ s.k < (s.strLen - 5) / 6 ∧
      (∀ i, i < j.val → ∃ ch, Memory.read s.str (1 + 6 * s.k + letterOffset s.cfg i) = some ch ∧
        if i = 0 ∨ i = 2 then vidx ch ≠ none else didx ch ≠ none) ∧
      Memory.read s.str (1 + 6 * s.k + letterOffset s.cfg j) = none := by
  intro j
  refine ⟨unwrittenLetter j, by revert j; decide, rfl, by revert j; decide, fun i hi => ?_, by revert j; decide⟩
  obtain ⟨ch, -, h⟩ := unwrittenLetter_earlier j i hi
  exact ⟨ch, h⟩

theorem test_witness_UnwrittenInputIsRefused_tail :
    (∃ (s : State) (ch0 : Byte), s.Coherent ∧ s.phase = .decBody ∧ s.k = (s.strLen - 5) / 6 ∧
        Memory.read s.str (1 + 6 * s.k) = some ch0 ∧ vidx ch0 ≠ none ∧ Memory.read s.str (2 + 6 * s.k) = none) ∧
      ∃ (s : State) (ch0 ch1 : Byte), s.Coherent ∧ s.phase = .decBody ∧ s.k = (s.strLen - 5) / 6 ∧
        Memory.read s.str (1 + 6 * s.k) = some ch0 ∧ vidx ch0 ≠ none ∧ Memory.read s.str (2 + 6 * s.k) = some ch1 ∧
        midx ch1 ≠ none ∧ Memory.read s.str (3 + 6 * s.k) = none :=
  ⟨⟨{ decoding .decBody 5 1 (digitsString.take 32) with strLen := 35 }, 0x61, by decide⟩,
    ⟨{ decoding .decBody 0 1 (empty.take 3) with strLen := 5 }, 0x65, 0x78, by decide⟩⟩

/-- A running operation, and a state that breaks R33. -/
theorem test_witness_ResetAppliesInEveryState :
    (∃ (s : State) (rest : List Input), s.inputs = .reset :: rest ∧ s.busy = true ∧ s.Coherent) ∧
      ∃ (s : State) (rest : List Input), s.inputs = .reset :: rest ∧ ¬ s.Coherent :=
  ⟨⟨{ encoding .encBody 2 23 digits with inputs := [.reset] }, [], by decide⟩,
    ⟨{ State.reset with busy := true, inputs := [.reset] }, [], by decide⟩⟩

theorem test_witness_EveryStepKeepsTheInvariant :
    ∃ s t : State, s.Inv ∧ step s = .next t ∧ s.busy = true :=
  ⟨encoding .encBody 4 9 digits, _, inv_of_checks (by decide), rfl, rfl⟩

theorem test_witness_EveryInstructionKeepsTheInvariant :
    ∃ (i : Instr) (s t : State), s.Inv ∧ i.wf s.cfg = true ∧ exec i s = .next t :=
  ⟨.invalidCharacter 63, decoding .decBody 5 24 digitsString, _, inv_of_checks (by decide), by decide, rfl⟩

theorem test_witness_EngineStaysInsideTheBuffers :
    ∃ s : State, s.Inv ∧ step s = .refused (.cellHoldsNoValue .raw 8) :=
  ⟨{ encoding .encBody 4 9 digits with raw := [] }, inv_of_checks (by decide), rfl⟩

theorem test_witness_BufferContentsStayCanonical :
    ∃ m m' : List Host.Cell, Memory.wf m = true ∧ Memory.wf m' = true ∧ m = Memory.write (Memory.write [] 3 1) 2 1 ∧
      m' = Memory.write (Memory.write [] 2 1) 3 1 :=
  ⟨_, _, by decide, by decide, rfl, rfl⟩

/-! ### Witnesses of the whole operations -/

/-- A full RAW buffer (`n = 11`) and the empty one, with an old error recorded. -/
theorem test_witness_EncodeOperationComputesEnc :
    ∀ b ∈ [digits ++ [0], []], (idle b [] [.writeReg 0 1]).Inv ∧ (idle b [] [.writeReg 0 1]).busy = false ∧
      (idle b [] [.writeReg 0 1]).HoldsRaw b := by
  simp only [List.forall_mem_cons, List.not_mem_nil, false_implies, implies_true, and_true]
  exact ⟨⟨inv_of_checks (by decide), rfl, by unfold State.HoldsRaw; decide⟩,
    ⟨inv_of_checks (by decide), rfl, by unfold State.HoldsRaw; decide⟩⟩

/-- A7's string: `+` in the first hyphen slot. -/
theorem test_witness_DecodeOperationComputesDec :
    ∃ (s : State) (chars bytes : List Byte), s.Inv ∧ s.busy = false ∧ s.inputs = [.writeReg 0 2] ∧ s.HoldsStr chars ∧
      dec s.cfg chars = .ok bytes := by
  refine ⟨idle [] (pineappleString.set 5 0x2B) [.writeReg 0 2], pineappleString.set 5 0x2B, pineapple,
    inv_of_checks (by decide), rfl, rfl, ⟨rfl, fun i hi _ => ?_⟩, rfl⟩
  exact (by decide : ∀ i, i < 29 →
    Memory.read (cells (pineappleString.set 5 0x2B)) i = (pineappleString.set 5 0x2B)[i]?) i hi

/-- E26: group 1 fails, so `K = 1` and `RAW[0 .. 1]` lose their values. -/
theorem test_witness_DecodeOperationRecordsTheFailure :
    ∃ (s : State) (chars : List Byte), s.Inv ∧ s.busy = false ∧ s.inputs = [.writeReg 0 2] ∧ s.HoldsStr chars ∧
      dec s.cfg chars = .error (.checksumMismatch, 7) := by
  refine ⟨idle digits (pineappleString.set 1 0x75) [.writeReg 0 2], pineappleString.set 1 0x75, inv_of_checks (by decide), rfl,
    rfl, ⟨rfl, fun i hi _ => ?_⟩, rfl⟩
  exact (by decide : ∀ i, i < 29 →
    Memory.read (cells (pineappleString.set 1 0x75)) i = (pineappleString.set 1 0x75)[i]?) i hi

/-- V3: all four groups of `"Pineapple"`, encoding and decoding. -/
theorem test_witness_ChecksumIsMirrored :
    (4 ≤ pineapple.length / 2 ∧ (idle pineapple [] [.writeReg 0 1]).Inv ∧ (idle pineapple [] [.writeReg 0 1]).busy = false ∧
        (idle pineapple [] [.writeReg 0 1]).HoldsRaw pineapple) ∧
      (idle [] pineappleString [.writeReg 0 2]).Inv ∧ (idle [] pineappleString [.writeReg 0 2]).busy = false ∧
      (idle [] pineappleString [.writeReg 0 2]).HoldsStr (enc Config.hardware pineapple) :=
  ⟨⟨by decide, inv_of_checks (by decide), rfl, by unfold State.HoldsRaw; decide⟩, inv_of_checks (by decide), rfl, rfl,
    fun i hi _ => (by decide : ∀ i, i < 29 →
      Memory.read (cells pineappleString) i = (enc Config.hardware pineapple)[i]?) i hi⟩

/-- V3's string has each class; E13's `X` belongs to none of the letter slots. -/
theorem test_witness_CharactersBelongToTheirSlots :
    (enc Config.hardware pineapple)[5]? = some (ch '-') ∧ dec Config.hardware pineappleString = .ok pineapple ∧
      pineappleString[26]? = some (ch 'n') ∧ slotClass Config.hardware 5 2 = .m ∧ ¬ slotAccepts .m (ch 'X') :=
  ⟨by decide, rfl, by decide, by decide, by unfold slotAccepts; decide⟩

/-- R63 on V3, whose groups read V D V D - D and whose tail reads V M V. -/
theorem test_slot_classes :
    (List.range 7).map (slotClass Config.hardware 29) = [.x, .v, .d, .v, .d, .h, .d] ∧
      [24, 25, 26, 27, 28].map (slotClass Config.hardware 29) = [.d, .v, .m, .v, .x] := by decide

/-- P2, with its wipe left out. -/
theorem test_witness_RoundTripInPlace :
    ∃ s : State, s.Inv ∧ s.busy = false ∧ s.HoldsRaw pineapple ∧
      s.inputs = .writeReg 0 1 :: (List.replicate (pineapple.length / 2 + 3) .engine ++ [.writeReg 0 2]) :=
  ⟨idle pineapple [] (.writeReg 0 1 :: (List.replicate 7 .engine ++ [.writeReg 0 2])), inv_of_checks (by decide), rfl,
    by unfold State.HoldsRaw; decide, rfl⟩

/-- A7 beside A3. -/
theorem test_witness_AcceptedStringsAreCanonical :
    dec Config.hardware (pineappleString.set 5 0x2B) = .ok pineapple ∧ dec Config.hardware pineappleString = .ok pineapple :=
  ⟨rfl, rfl⟩

/-- E34 (the last offset), the first, and at a V, a D and the M slot a character outside the class. -/
theorem test_witness_CorruptionIsNotSilentlyUndone :
    ∀ q ∈ [(pineappleString.set 28 0x79, 28), (pineappleString.set 0 0x61, 0), (pineappleString.set 1 0x62, 1),
        (pineappleString.set 2 0x78, 2), (pineappleString.set 26 0x61, 26)],
      q.1.length = (enc Config.hardware pineapple).length ∧ q.2 < q.1.length ∧
        (∀ a, a < 29 → a ≠ q.2 → q.1[a]? = (enc Config.hardware pineapple)[a]?) ∧
        q.1[q.2]? ≠ (enc Config.hardware pineapple)[q.2]? ∧
        (∀ g, g < 4 → q.2 ≠ hyphenAt Config.hardware g) := by decide

theorem test_witness_CorruptionIsNotSilentlyUndone_class :
    slotClass Config.hardware 29 1 = .v ∧ vidx 0x62 = none ∧ slotClass Config.hardware 29 2 = .d ∧ didx 0x78 = none ∧
      slotClass Config.hardware 29 26 = .m ∧ midx 0x61 = none := by decide

/-- A vowel out of range in the first and the last pair group and in the byte tail of `"Pineapple"`, each in both places. -/
theorem test_witness_CorruptionIsNotSilentlyUndone_range :
    ∀ q : Nat × Fin 6 × Nat, q ∈ [(1, 5, 0), (3, 4, 0), (19, 0, 3), (21, 5, 3), (25, 1, 4), (27, 3, 4)] →
      q.2.2 < (pineapple.length + 1) / 2 ∧ pineappleString[q.1]? ≠ some (vowel q.2.1) ∧
        ((q.1 = 1 + 6 * q.2.2 ∧ 4 ≤ (q.2.1.val + 6 - (checksumAt pineapple q.2.2).val % 6) % 6) ∨
          (q.1 = 3 + 6 * q.2.2 ∧ 4 ≤ (q.2.1.val + 6 - (checksumAt pineapple q.2.2).val / 6) % 6)) := by decide

/-- Another vowel in each place of the checksum tail of the empty sequence and of `"1234567890"`. -/
theorem test_witness_CorruptionIsNotSilentlyUndone_tail :
    empty.length = 5 ∧ empty[1]? ≠ some (vowel 0) ∧ empty[3]? ≠ some (vowel 5) ∧ digits.length % 2 = 0 ∧
      31 = 1 + 6 * (digits.length / 2) ∧ digitsString[31]? ≠ some (vowel 5) ∧ digitsString[33]? ≠ some (vowel 0) := by decide

theorem test_witness_WrongLengthAlwaysFails :
    (codes ['x', 'e', 'x', 'a']).length % 6 ≠ 5 ∧ (decoding .decFrame 0 1 (codes ['x', 'e', 'x', 'a'])).phase = .decFrame ∧
      (decoding .decFrame 0 1 (codes ['x', 'e', 'x', 'a'])).strLen % 6 ≠ 5 := by decide

/-- A full raw buffer, polled until done, in one poll and in several, and not long enough. -/
theorem test_witness_EncodeCallAnswersEnc :
    ∃ (s : State) (bytes : List Byte), s.Inv ∧ s.busy = false ∧ bytes.length = s.cfg.rawCap ∧
      bytes.length / 2 + 3 ≤ [8].sum ∧ bytes.length / 2 + 3 ≤ [0, 3, 1, 4].sum ∧ [0, 7].sum < bytes.length / 2 + 3 :=
  ⟨State.reset, digits ++ [0], inv_of_checks (by decide), rfl, rfl, by decide⟩

/-- A full string buffer. -/
theorem test_witness_DecodeCallAnswersDec :
    ∃ (s : State) (chars : List Byte), s.Inv ∧ s.busy = false ∧ chars.length = s.cfg.strCap ∧
      (chars.length - 5) / 6 + 2 ≤ [0, 3, 4].sum :=
  ⟨State.reset, digitsString, inv_of_checks (by decide), rfl, rfl, by decide⟩

/-- `decode("xexa")` answers InvalidLength, code 2, at 4 (R73, R121): the string fits the buffer, and a call does answer. -/
theorem test_decodeCall_answers :
    (match decodeCall (codes ['x', 'e', 'x', 'a']) [0, 1] State.reset with
      | .ok (.error f, _) => some f
      | _ => none) = some (2, 4) := by decide

/-- `encode` of nothing, polled after 1 turn and after 2 more, answers "xexax" (V1). -/
theorem test_encodeCall_answers :
    (encodeCall [] [1, 2] State.reset).toOption.map Prod.fst = some (empty.map BitVec.toNat) := by decide

/-- And while the engine has had 2 turns only, the host is still polling a busy block. -/
theorem test_encodeCall_polls :
    (match encodeCall [] [1, 1] State.reset with
      | .error (.stillPolling t) => some (t.busy, t.phase)
      | _ => none) = some (true, .encClose) := by decide

end Sys2Proof.Tests
end

section
/-! The reset state as the host reads it (10_state.md R32). -/

namespace Sys2Proof.Machine

/-- R26: no flag is set after reset and MODE is encode. -/
@[simp] theorem State.status_resetWith (cfg : Config) : (State.resetWith cfg).status = 0 := rfl

/-- R24 to R32: CSUM (register 6) is the one register that does not read 0 after reset, whatever the parameters. -/
theorem State.regView_resetWith (cfg : Config) (r : Nat) :
    (State.resetWith cfg).regView r = if r = 6 then 1 else 0 := by
  unfold State.regView
  split
  case h_1 => exact State.status_resetWith cfg
  case h_6 => rfl
  case h_7 _ _ _ _ _ _ hCsum => exact (if_neg hCsum).symm
  all_goals rfl

/-- R32, R52: no cell of `RAW` holds a value after reset. -/
@[simp] theorem State.read_raw_resetWith (cfg : Config) (a : Nat) :
    Memory.read (State.resetWith cfg).raw a = none := Memory.read_nil a

/-- R32, R52: no cell of `STR` holds a value after reset. -/
@[simp] theorem State.read_str_resetWith (cfg : Config) (a : Nat) :
    Memory.read (State.resetWith cfg).str a = none := Memory.read_nil a

/-- Settles O42, from what each register and each cell reads as after reset; `K` and PHASE, which no register shows (R34),
are the fields themselves. -/
theorem resetStateReadsAsTheSpecSays : Obligations.ResetStateReadsAsTheSpecSays := by
  have view := State.regView_resetWith Config.hardware
  exact ⟨view 1, view 2, view 3, view 4, view 5, view 6, rfl, rfl,
    State.read_raw_resetWith _, State.read_str_resetWith _⟩

end Sys2Proof.Machine
end

section
/-! CTRL writes: what each command does by BUSY, and which one the two low bits name (30_encoding.md R72, 43_host_commands.md
R152 to R156). -/

namespace Sys2Proof.Machine

/-- R153: an idle block accepts CMD_ENCODE. -/
theorem execCmdEncode_idle {s : State} (hb : s.busy = false) :
    execCmdEncode s = .next (acceptCommand .encode .encOpen s) := by
  simp [execCmdEncode, hb]

/-- R154: an idle block accepts CMD_DECODE. -/
theorem execCmdDecode_idle {s : State} (hb : s.busy = false) :
    execCmdDecode s = .next (acceptCommand .decode .decFrame s) := by
  simp [execCmdDecode, hb]

/-- R156: a busy block ignores CMD_ENCODE. -/
theorem execCmdEncode_busy {s : State} (hb : s.busy = true) : execCmdEncode s = .next s := if_pos hb

/-- R156: a busy block ignores CMD_DECODE. -/
theorem execCmdDecode_busy {s : State} (hb : s.busy = true) : execCmdDecode s = .next s := if_pos hb

/-- R152, R155: low bits 0 and 3 name the two commands without an effect. -/
theorem writeCtrl_inert {v : Nat} (hv : v % 4 = 0 ∨ v % 4 = 3) (s : State) : writeCtrl v s = .next s := by
  rcases hv with hv | hv <;> rw [writeCtrl_eq, hv] <;> rfl

theorem writeCtrl_encode {v : Nat} (hv : v % 4 = 1) (s : State) : writeCtrl v s = execCmdEncode s := by
  rw [writeCtrl_eq, hv]; rfl

theorem writeCtrl_decode {v : Nat} (hv : v % 4 = 2) (s : State) : writeCtrl v s = execCmdDecode s := by
  rw [writeCtrl_eq, hv]; rfl

/-- R156: a busy block ignores a CTRL write, whatever its value. -/
theorem writeCtrl_busy (v : Nat) {s : State} (hb : s.busy = true) : writeCtrl v s = .next s := by
  have hcode : (v % 4 = 0 ∨ v % 4 = 3) ∨ v % 4 = 1 ∨ v % 4 = 2 := by omega
  rcases hcode with hv | hv | hv
  · exact writeCtrl_inert hv s
  · rw [writeCtrl_encode hv, execCmdEncode_busy hb]
  · rw [writeCtrl_decode hv, execCmdDecode_busy hb]

/-- Register 0 is CTRL (R25): a step that takes a write to it from the queue is that CTRL write. -/
theorem step_writeCtrl {s : State} {v : Nat} {rest : List Input} (hc : s.Coherent)
    (hi : s.inputs = .writeReg 0 v :: rest) : step s = writeCtrl v { s with inputs := rest } :=
  step_of_cons hc hi

/-- Settles O13: the step is the CTRL write, which a busy block ignores and which otherwise is the command its two low bits
name. -/
theorem ctrlWritePerformsItsCommand : Obligations.CtrlWritePerformsItsCommand := by
  intro s v rest hc hi
  rw [step_writeCtrl hc hi]
  refine ⟨fun hb => writeCtrl_busy v hb, fun hv => writeCtrl_inert hv _, fun hv hb => ?_, fun hv hb => ?_⟩
  · exact ⟨_, (writeCtrl_encode hv _).trans (execCmdEncode_idle hb), rfl, rfl, rfl⟩
  · exact ⟨_, (writeCtrl_decode hv _).trans (execCmdDecode_idle hb), rfl, rfl, rfl⟩

end Sys2Proof.Machine
end

section
/-! The encoder's five step operations (41_encoder.md R102 to R107): what each stores, that it completes wherever it is enabled, and
what it leaves unchanged. -/

namespace Sys2Proof.Machine

/-! ### Stores to several cells -/

/-- Several stores to different cells: each of them then reads as the value it was given. -/
theorem Memory.read_writeAll_of_mem {m cells : List Host.Cell} {a : Nat} {v : Byte}
    (hd : (cells.map Prod.fst).Nodup) (hm : (a, v) ∈ cells) : Memory.read (Memory.writeAll m cells) a = some v := by
  induction cells generalizing m with
  | nil => cases hm
  | cons cell rest ih =>
    obtain ⟨hfresh, hrest⟩ := List.nodup_cons.mp hd
    rcases List.mem_cons.mp hm with rfl | hm
    · have hkept := Memory.read_writeAll_of_not_mem (Memory.write m a v) rest a
        fun c hc he => hfresh (List.mem_map.mpr ⟨c, hc, he⟩)
      rw [Memory.writeAll_cons, hkept, Memory.read_write, if_pos rfl]
    · exact ih hrest hm

/-- A single store (the delimiter of EOPEN and of ECLOSE): what its cell and every other cell reads as. -/
theorem Memory.read_writeAll_singleton (m : List Host.Cell) (a : Nat) (v : Byte) :
    Memory.read (Memory.writeAll m [(a, v)]) a = some v ∧
      ∀ b, b ≠ a → Memory.read (Memory.writeAll m [(a, v)]) b = Memory.read m b :=
  ⟨(Memory.read_write m a a v).trans (if_pos rfl), fun b hb => (Memory.read_write m a b v).trans (if_neg hb)⟩

/-- Stores to the three cells of a tail (both tails of R106): what they and all other cells read as. -/
theorem Memory.read_writeAll_tail (m : List Host.Cell) (k : Nat) (u v w : Byte) :
    let m' := Memory.writeAll m [(1 + 6 * k, u), (2 + 6 * k, v), (3 + 6 * k, w)]
    Memory.read m' (1 + 6 * k) = some u ∧ Memory.read m' (2 + 6 * k) = some v ∧ Memory.read m' (3 + 6 * k) = some w ∧
      ∀ a, (a < 1 + 6 * k ∨ 3 + 6 * k < a) → Memory.read m' a = Memory.read m a := by
  have hd : ([(1 + 6 * k, u), (2 + 6 * k, v), (3 + 6 * k, w)].map Prod.fst).Nodup := by simp
  refine ⟨Memory.read_writeAll_of_mem hd (by simp), Memory.read_writeAll_of_mem hd (by simp),
    Memory.read_writeAll_of_mem hd (by simp), fun a ha => Memory.read_writeAll_of_not_mem _ _ _ ?_⟩
  simp only [List.mem_cons, List.not_mem_nil, or_false]
  rintro c (rfl | rfl | rfl) <;> simp only <;> omega

/-! ### The stored letters, by the numbers of the rules -/

@[simp] theorem toNat_hiField (b : Byte) : (hiField b).toNat = b.toNat / 64 := by
  have := b.isLt
  simp only [hiField, BitVec.extractLsb'_toNat, Nat.shiftRight_eq_div_pow]
  omega

@[simp] theorem toNat_midField (b : Byte) : (midField b).toNat = b.toNat / 4 % 16 := by
  simp only [midField, BitVec.extractLsb'_toNat, Nat.shiftRight_eq_div_pow, Nat.reducePow]

@[simp] theorem toNat_loField (b : Byte) : (loField b).toNat = b.toNat % 4 := by
  simp only [loField, BitVec.extractLsb'_toNat, Nat.shiftRight_zero, Nat.reducePow]

@[simp] theorem toNat_upperNibble (b : Byte) : (upperNibble b).toNat = b.toNat / 16 := by
  have := b.isLt
  simp only [upperNibble, BitVec.extractLsb'_toNat, Nat.shiftRight_eq_div_pow]
  omega

@[simp] theorem toNat_lowerNibble (b : Byte) : (lowerNibble b).toNat = b.toNat % 16 := by
  simp only [lowerNibble, BitVec.extractLsb'_toNat, Nat.shiftRight_zero, Nat.reducePow]

/-- R64: the first vowel of a byte under the checksum. -/
theorem highIndex_hiField (c : Checksum) (b : Byte) : highIndex c (hiField b) = Fin.ofNat 6 (b.toNat / 64 + c.val) :=
  Fin.ext (congrArg (fun n => (n + c.val) % 6) (toNat_hiField b))

/-- R64: the second vowel of a byte under the checksum. -/
theorem lowIndex_loField (c : Checksum) (b : Byte) : lowIndex c (loField b) = Fin.ofNat 6 (b.toNat % 4 + c.val / 6) :=
  Fin.ext (congrArg (fun n => (n + c.val / 6) % 6) (toNat_loField b))

/-- A data consonant is `CONS` at its index: 16, the delimiter, is out of its range. -/
theorem dataCons_eq (i : BitVec 4) : dataCons i = cons (Fin.ofNat 17 i.toNat) :=
  congrArg cons (Fin.ext (Nat.mod_eq_of_lt (Nat.lt_succ_of_lt i.isLt)).symm)

theorem tailHighIndex_eq (c : Checksum) : tailHighIndex c = Fin.ofNat 6 (c.val % 6) :=
  Fin.ext (Nat.mod_mod c.val 6).symm

theorem tailLowIndex_eq (c : Checksum) : tailLowIndex c = Fin.ofNat 6 (c.val / 6) :=
  Fin.ext (Nat.mod_eq_of_lt (ckOffLo_lt c)).symm

/-! ### The stored cells -/

/-- R103: the cells EPAIR stores, by the numbers of R64 to R66. -/
theorem groupCells_of_bytes (cfg : Config) (k : Nat) (c : Checksum) (b0 b1 : Byte) :
    groupCells cfg k c (hiField b0) (midField b0) (loField b0) (upperNibble b1) (lowerNibble b1) =
      [(1 + 6 * k + letterOffset cfg 0, vowel (Fin.ofNat 6 (b0.toNat / 64 + c.val))),
       (1 + 6 * k + letterOffset cfg 1, cons (Fin.ofNat 17 (b0.toNat / 4 % 16))),
       (1 + 6 * k + letterOffset cfg 2, vowel (Fin.ofNat 6 (b0.toNat % 4 + c.val / 6))),
       (1 + 6 * k + letterOffset cfg 3, cons (Fin.ofNat 17 (b1.toNat / 16))),
       (1 + 6 * k + cfg.hyphenSlot.offset, 0x2D),
       (1 + 6 * k + letterOffset cfg 4, cons (Fin.ofNat 17 (b1.toNat % 16)))] := by
  simp only [groupCells, letterAt, hyphenAt, groupStart, hyphen, highIndex_hiField, lowIndex_loField, dataCons_eq,
    toNat_midField, toNat_upperNibble, toNat_lowerNibble]

/-- The six cells of a pair group are six different ones, whatever the hyphen slot. -/
theorem groupCells_nodup (cfg : Config) (k : Nat) (c : Checksum) (hi : BitVec 2) (mid : BitVec 4) (lo : BitVec 2)
    (n1 n0 : BitVec 4) : ((groupCells cfg k c hi mid lo n1 n0).map Prod.fst).Nodup := by
  rcases hyphenSlot_offset_cases cfg.hyphenSlot with h | h | h <;>
    simp [groupCells, letterAt, hyphenAt, letterOffset, h]

/-- R104: the cells ETAILB stores, by the numbers of R64 and R67. -/
theorem byteTailCells_of_byte (k : Nat) (c : Checksum) (b : Byte) :
    byteTailCells (groupStart k) c (hiField b) (midField b) (loField b) =
      [(1 + 6 * k, vowel (Fin.ofNat 6 (b.toNat / 64 + c.val))),
       (2 + 6 * k, cons (Fin.ofNat 17 (b.toNat / 4 % 16))),
       (3 + 6 * k, vowel (Fin.ofNat 6 (b.toNat % 4 + c.val / 6)))] := by
  have h1 : groupStart k + 1 = 2 + 6 * k := by unfold groupStart; omega
  have h2 : groupStart k + 2 = 3 + 6 * k := by unfold groupStart; omega
  rw [byteTailCells, h1, h2, highIndex_hiField, lowIndex_loField, dataCons_eq, toNat_midField, groupStart]

/-- R105: the cells ETAILC stores; `CONS[16]` is the delimiter. -/
theorem checksumTailCells_of_checksum (k : Nat) (c : Checksum) :
    checksumTailCells (groupStart k) c =
      [(1 + 6 * k, vowel (Fin.ofNat 6 (c.val % 6))), (2 + 6 * k, 0x78), (3 + 6 * k, vowel (Fin.ofNat 6 (c.val / 6)))] := by
  have h1 : groupStart k + 1 = 2 + 6 * k := by unfold groupStart; omega
  have h2 : groupStart k + 2 = 3 + 6 * k := by unfold groupStart; omega
  have hx : cons 16 = 0x78 := rfl
  rw [checksumTailCells, h1, h2, hx, tailHighIndex_eq, tailLowIndex_eq, groupStart]

/-! ### Where a step operation is enabled it completes -/

/-- R33 (h): in ENC_BODY the pair groups of the operation fit the buffers. -/
theorem State.Coherent.encBody_groups_le {s : State} (hc : s.Coherent) (hp : s.phase = .encBody) :
    s.rawLen / 2 ≤ s.cfg.kMax := by
  obtain ⟨-, -, -, -, -, hk⟩ := hc
  have hkt : s.kt = s.rawLen / 2 := by simp [State.kt, hp]
  exact hkt ▸ (hk (.inl hp)).2

/-- The three cells of a tail are inside `STR` when the pair groups before it are at most K_MAX. -/
theorem tail_inside {cfg : Config} {k : Nat} (hk : k ≤ cfg.kMax) (u v w : Byte) :
    ∀ cell ∈ [(groupStart k, u), (groupStart k + 1, v), (groupStart k + 2, w)], cell.1 < cfg.strCap := by
  simp only [List.mem_cons, List.not_mem_nil, or_false, groupStart, Config.strCap]
  rintro cell (rfl | rfl | rfl) <;> simp only <;> omega

theorem execEopen_of_enabled {s : State} (hp : s.phase = .encOpen) :
    execEopen s =
      .next { s with str := Memory.writeAll s.str [(0, delimiter)], c := ckInit, k := 0, phase := .encBody } := by
  have hin : ∀ cell ∈ [(0, delimiter)], cell.1 < s.cfg.strCap :=
    List.forall_mem_singleton.mpr (Nat.succ_pos _)
  rw [execEopen, whenEnabled_pos hp]
  simp only [storeStr_of_inside hin, ok_bind, settle_ok]

theorem execEpair_of_enabled {s : State} {b0 b1 : Byte} (hc : s.Coherent) (hp : s.phase = .encBody)
    (hk : s.k < s.rawLen / 2) (h0 : Memory.read s.raw (2 * s.k) = some b0)
    (h1 : Memory.read s.raw (2 * s.k + 1) = some b1) :
    execEpair s = .next { s with
      str := Memory.writeAll s.str
        (groupCells s.cfg s.k s.c (hiField b0) (midField b0) (loField b0) (upperNibble b1) (lowerNibble b1))
      c := ckUpd s.c b0 b1
      k := s.k + 1 } := by
  have hle := hc.encBody_groups_le hp
  have hraw : 2 * s.k + 1 < s.cfg.rawCap := by unfold Config.rawCap; omega
  have hin : ∀ cell ∈ groupCells s.cfg s.k s.c (hiField b0) (midField b0) (loField b0) (upperNibble b1) (lowerNibble b1),
      cell.1 < s.cfg.strCap := fun cell hm => by
    have hub := (groupCells_bounds _ _ _ _ _ _ _ _ cell hm).2
    unfold Config.strCap
    omega
  rw [execEpair, whenEnabled_pos ⟨hp, hk⟩]
  simp only [readRaw_of_read (Nat.lt_of_succ_lt hraw) h0, readRaw_of_read hraw h1, storeStr_of_inside hin, ok_bind,
    settle_ok]

theorem execEtailb_of_enabled {s : State} {b0 : Byte} (hc : s.Coherent) (hp : s.phase = .encBody)
    (hk : s.k = s.rawLen / 2) (ho : s.rawLen % 2 = 1) (h0 : Memory.read s.raw (2 * s.k) = some b0) :
    execEtailb s = .next { s with
      str := Memory.writeAll s.str (byteTailCells (groupStart s.k) s.c (hiField b0) (midField b0) (loField b0))
      phase := .encClose } := by
  have hle := hc.encBody_groups_le hp
  have hraw : 2 * s.k < s.cfg.rawCap := by unfold Config.rawCap; omega
  have hin : ∀ cell ∈ byteTailCells (groupStart s.k) s.c (hiField b0) (midField b0) (loField b0),
      cell.1 < s.cfg.strCap := tail_inside (hk ▸ hle) _ _ _
  rw [execEtailb, whenEnabled_pos ⟨hp, hk, ho⟩]
  simp only [readRaw_of_read hraw h0, storeStr_of_inside hin, ok_bind, settle_ok]

theorem execEtailc_of_enabled {s : State} (hc : s.Coherent) (hp : s.phase = .encBody) (hk : s.k = s.rawLen / 2)
    (he : s.rawLen % 2 = 0) :
    execEtailc s = .next { s with
      str := Memory.writeAll s.str (checksumTailCells (groupStart s.k) s.c), phase := .encClose } := by
  have hle := hc.encBody_groups_le hp
  have hin : ∀ cell ∈ checksumTailCells (groupStart s.k) s.c, cell.1 < s.cfg.strCap :=
    tail_inside (hk ▸ hle) _ _ _
  rw [execEtailc, whenEnabled_pos ⟨hp, hk, he⟩]
  simp only [storeStr_of_inside hin, ok_bind, settle_ok]

theorem execEclose_of_enabled {s : State} (hk : s.k ≤ s.cfg.kMax) (hp : s.phase = .encClose) :
    execEclose s = .next (endOperation
      { s with str := Memory.writeAll s.str [(6 * s.k + 4, delimiter)], strLen := 6 * s.k + 5 }) := by
  have hin : ∀ cell ∈ [(6 * s.k + 4, delimiter)], cell.1 < s.cfg.strCap :=
    List.forall_mem_singleton.mpr (by unfold Config.strCap; omega)
  rw [execEclose, whenEnabled_pos hp]
  simp only [storeStr_of_inside hin, ok_bind, settle_ok]

/-! ### The statements -/

/-- Settles O14: EOPEN completes with its one store, of the delimiter to cell 0. -/
theorem eopenOpensTheString : Obligations.EopenOpensTheString := by
  intro s hp
  obtain ⟨hcell, hframe⟩ := Memory.read_writeAll_singleton s.str 0 delimiter
  exact ⟨_, execEopen_of_enabled hp, rfl, hcell, hframe⟩

/-- Settles O15: the six stores of EPAIR go to six different cells inside the group, so each cell reads as its own letter. -/
theorem epairEncodesOnePair : Obligations.EpairEncodesOnePair := by
  intro s b0 b1 hc hp hk h0 h1
  have hd := groupCells_nodup s.cfg s.k s.c (hiField b0) (midField b0) (loField b0) (upperNibble b1) (lowerNibble b1)
  have hbounds := groupCells_bounds s.cfg s.k s.c (hiField b0) (midField b0) (loField b0) (upperNibble b1) (lowerNibble b1)
  have hexec := execEpair_of_enabled hc hp hk h0 h1
  rw [groupCells_of_bytes] at hd hbounds hexec
  refine ⟨_, hexec, rfl, Memory.read_writeAll_of_mem hd (by simp), Memory.read_writeAll_of_mem hd (by simp),
    Memory.read_writeAll_of_mem hd (by simp), Memory.read_writeAll_of_mem hd (by simp),
    Memory.read_writeAll_of_mem hd (by simp), Memory.read_writeAll_of_mem hd (by simp),
    fun a ha => Memory.read_writeAll_of_not_mem _ _ _ fun cell hm => ?_⟩
  have := hbounds cell hm
  omega

/-- Settles O16: ETAILB completes with its three stores; PHASE is all else it changes. -/
theorem etailbEncodesTheLastByte : Obligations.EtailbEncodesTheLastByte := by
  intro s b0 hc hp hk ho h0
  have hexec := execEtailb_of_enabled hc hp hk ho h0
  rw [byteTailCells_of_byte] at hexec
  exact ⟨_, hexec, rfl, Memory.read_writeAll_tail s.str s.k _ _ _⟩

/-- Settles O17: ETAILC completes with its three stores, none of which needs a cell of `RAW`. -/
theorem etailcEmitsTheChecksum : Obligations.EtailcEmitsTheChecksum := by
  intro s hc hp hk he
  have hexec := execEtailc_of_enabled hc hp hk he
  rw [checksumTailCells_of_checksum] at hexec
  exact ⟨_, hexec, rfl, Memory.read_writeAll_tail s.str s.k _ _ _⟩

/-- Settles O19: ECLOSE completes with its one store, inside `STR` because K is at most K_MAX. -/
theorem ecloseEndsTheOperation : Obligations.EcloseEndsTheOperation := by
  intro s hk hp
  obtain ⟨hcell, hframe⟩ := Memory.read_writeAll_singleton s.str (6 * s.k + 4) delimiter
  exact ⟨_, execEclose_of_enabled hk hp, rfl, hcell, hframe⟩

end Sys2Proof.Machine
end

section
/-! The decoder's DFRAME and DPAIR (42_decoder.md R121, R127): what each check raises and what success leaves; and that no decode
step reads a hyphen slot (R126). -/

namespace Sys2Proof.Machine

/-! ### The delimiter check and the two ends of DFRAME -/

/-- R173: a character other than the delimiter in an X slot. -/
theorem expectDelimiter_of_read_ne {p : Nat} {s : State} {ch : Byte} (hp : p < s.cfg.strCap)
    (h : Memory.read s.str p = some ch) (hne : ch ≠ delimiter) :
    expectDelimiter p s = .error (.raise (.invalidFraming, p)) := by
  simp [expectDelimiter, readStr_of_read hp h, hne]

/-- R121: a length that passes the check is at least 5, so the closing delimiter has an offset. -/
theorem five_le_of_mod_six {n : Nat} (h : n % 6 = 5) : 5 ≤ n := h ▸ Nat.mod_le n 6

/-- R33 (g): in a state R33 admits a string of legal length has both its ends inside `STR`. -/
theorem State.Coherent.frame_inside {s : State} (hc : s.Coherent) (hl : s.strLen % 6 = 5) :
    0 < s.cfg.strCap ∧ s.strLen - 1 < s.cfg.strCap := by
  obtain ⟨-, -, -, -, ⟨-, hlen⟩, -⟩ := hc
  have := five_le_of_mod_six hl
  omega

/-- With a legal length DFRAME is its two delimiter checks, which do not depend on `C` and `K` (R121). -/
theorem execDframe_of_length {s : State} (hp : s.phase = .decFrame) (hl : s.strLen % 6 = 5) :
    execDframe s = settle { s with c := ckInit, k := 0 } (do
      expectDelimiter 0 s
      expectDelimiter (s.strLen - 1) s
      .ok { s with c := ckInit, k := 0, phase := .decBody }) := by
  rw [execDframe, whenEnabled_pos hp]
  simp only [hl, ne_eq, not_true_eq_false, if_false]
  rfl

/-- R172: a wrong length is raised before any cell of `STR` is read. -/
theorem execDframe_of_wrong_length {s : State} (hp : s.phase = .decFrame) (hl : s.strLen % 6 ≠ 5) :
    execDframe s = .next (raiseError .invalidLength s.strLen { s with c := ckInit, k := 0 }) := by
  rw [execDframe, whenEnabled_pos hp]
  simp only [hl, ne_eq, not_false_eq_true, if_true, error_bind, settle_raise]

/-- The error entry out of DFRAME: `K` is 0, so `RAW` loses no value (R178). -/
theorem raiseError_of_dframe (kind : ErrorKind) (pos : Nat) (s : State) :
    raiseError kind pos { s with c := ckInit, k := 0 } =
      { s with c := 1, k := 0, errCode := kind.errCode, errPos := pos, rawLen := 0, err := true, done := true,
               busy := false, phase := .idle, losses := s.losses + 1 } := by
  simp [raiseError, ckInit]

/-- Settles O21: the length is checked before the leading delimiter and that before the closing one; each check that fails is
the error entry with `C = 1` and `K = 0`. -/
theorem dframeChecksLengthThenFrame : Obligations.DframeChecksLengthThenFrame := by
  intro s hc hp
  refine ⟨fun hl h0 h1 => ?_, fun hl => ⟨s.losses + 1, ?_⟩, fun ch hl h0 hne => ⟨s.losses + 1, ?_⟩,
    fun ch hl h0 h1 hne => ⟨s.losses + 1, ?_⟩⟩
  · obtain ⟨hin0, hin1⟩ := hc.frame_inside hl
    refine (execDframe_of_length hp hl).trans ?_
    rw [expectDelimiter_of_read hin0 h0, expectDelimiter_of_read hin1 h1]
    rfl
  · exact (execDframe_of_wrong_length hp hl).trans (congrArg _ (raiseError_of_dframe .invalidLength _ s))
  · obtain ⟨hin0, -⟩ := hc.frame_inside hl
    refine (execDframe_of_length hp hl).trans ?_
    rw [expectDelimiter_of_read_ne hin0 h0 hne]
    exact congrArg _ (raiseError_of_dframe .invalidFraming _ s)
  · obtain ⟨hin0, hin1⟩ := hc.frame_inside hl
    refine (execDframe_of_length hp hl).trans ?_
    rw [expectDelimiter_of_read hin0 h0, expectDelimiter_of_read_ne hin1 h1 hne]
    exact congrArg _ (raiseError_of_dframe .invalidFraming _ s)

/-! ### The field pass, by the numbers of R70 and R71 -/

theorem rawHigh_eq (c : Checksum) (i : Fin 6) : rawHigh c i = (i.val + 6 - c.val % 6) % 6 :=
  removeOffset_eq i _ (ckOffHi_lt c)

theorem rawLow_eq (c : Checksum) (i : Fin 6) : rawLow c i = (i.val + 6 - c.val / 6) % 6 :=
  removeOffset_eq i _ (ckOffLo_lt c)

/-- R70: the byte that three fields are assembled to. -/
theorem joinFields_eq (hi : BitVec 2) (mid : BitVec 4) (lo : BitVec 2) :
    joinFields hi mid lo = BitVec.ofNat 8 (hi.toNat * 64 + mid.toNat * 4 + lo.toNat) := by
  revert hi mid lo; decide

/-- R71: the byte that two nibbles are assembled to. -/
theorem joinNibbles_eq (n1 n0 : BitVec 4) : joinNibbles n1 n0 = BitVec.ofNat 8 (n1.toNat * 16 + n0.toNat) := by
  revert n1 n0; decide

/-- R70, R125: the range checks, `hi` before `lo`, and the byte they let through. -/
theorem assemble_eq (c : Checksum) (i0 i2 : Fin 6) (i1 : BitVec 4) (p0 p2 : Nat) :
    assemble c i0 i1 i2 p0 p2 =
      if 4 ≤ (i0.val + 6 - c.val % 6) % 6 then .error p0
      else if 4 ≤ (i2.val + 6 - c.val / 6) % 6 then .error p2
      else .ok (BitVec.ofNat 8 ((i0.val + 6 - c.val % 6) % 6 * 64 + i1.toNat * 4 + (i2.val + 6 - c.val / 6) % 6)) := by
  rw [assemble, rawHigh_eq, rawLow_eq]
  split
  · rfl
  next hhi =>
    split
    · rfl
    next hlo =>
      rw [joinFields_eq, BitVec.toNat_ofNat, BitVec.toNat_ofNat, Nat.mod_eq_of_lt (Nat.lt_of_not_le hhi),
        Nat.mod_eq_of_lt (Nat.lt_of_not_le hlo)]

/-- R125: the same, its failures as they are raised. -/
theorem assembleOf_eq (c : Checksum) (i0 i2 : Fin 6) (i1 : BitVec 4) (p0 p2 : Nat) :
    assembleOf c i0 i1 i2 p0 p2 =
      if 4 ≤ (i0.val + 6 - c.val % 6) % 6 then .error (.checksumMismatch, p0)
      else if 4 ≤ (i2.val + 6 - c.val / 6) % 6 then .error (.checksumMismatch, p2)
      else .ok (BitVec.ofNat 8 ((i0.val + 6 - c.val % 6) % 6 * 64 + i1.toNat * 4 + (i2.val + 6 - c.val / 6) % 6)) := by
  rw [assembleOf, assemble_eq]
  split_ifs <;> rfl

/-- R91, for two bytes given as numbers. -/
theorem ckUpd_ofNat (c : Checksum) {m n : Nat} (hm : m < 256) (hn : n < 256) :
    ckUpd c (BitVec.ofNat 8 m) (BitVec.ofNat 8 n) = Fin.ofNat 36 (c.val * 5 + m * 7 + n) := by
  apply Fin.ext
  simp only [ckUpd, BitVec.toNat_ofNat, Nat.reducePow, Nat.mod_eq_of_lt hm, Nat.mod_eq_of_lt hn, Fin.val_ofNat]

/-! ### The letters of a pair group -/

theorem lookupV_eq {p : Nat} {s : State} {ch : Byte} (hp : p < s.cfg.strCap) (h : Memory.read s.str p = some ch) :
    lookupV p s = orRaise (vowelOf p ch) := by
  rw [lookupV, readStr_of_read hp h, ok_bind]

theorem lookupD_eq {p : Nat} {s : State} {ch : Byte} (hp : p < s.cfg.strCap) (h : Memory.read s.str p = some ch) :
    lookupD p s = orRaise (dataOf p ch) := by
  rw [lookupD, readStr_of_read hp h, ok_bind]

/-- R33 (h): in DEC_BODY the pair groups of the operation fit the buffers. -/
theorem State.Coherent.decBody_groups_le {s : State} (hc : s.Coherent) (hp : s.phase = .decBody) :
    (s.strLen - 5) / 6 ≤ s.cfg.kMax := by
  obtain ⟨-, -, -, -, -, hk⟩ := hc
  have hkt : s.kt = (s.strLen - 5) / 6 := by simp [State.kt, hp]
  exact hkt ▸ (hk (.inr hp)).2

/-- The letters of a pair group below K_MAX are inside `STR`. -/
theorem letterAt_inside {cfg : Config} {k j : Nat} (hk : k < cfg.kMax) (hj : j ≤ 4) : letterAt cfg k j < cfg.strCap := by
  have := (letterOffset_bounds cfg hj).1
  unfold letterAt groupStart Config.strCap
  omega

/-- DPAIR raises what its pair group raises, from the state it found (R127). -/
theorem execDpair_of_raise {s : State} {f : Failure} (hp : s.phase = .decBody) (hk : s.k < (s.strLen - 5) / 6)
    (h : decodeGroup s = .error (.raise f)) : execDpair s = .next (raiseError f.1 f.2 s) := by
  rw [execDpair, whenEnabled_pos ⟨hp, hk⟩, h, error_bind, settle_raise]

/-- DPAIR stores a pair group that is decoded: two bytes of `RAW`, `C` and `K` (R127). -/
theorem execDpair_of_group {s : State} {b : Byte × Byte} (hc : s.Coherent) (hp : s.phase = .decBody)
    (hk : s.k < (s.strLen - 5) / 6) (h : decodeGroup s = .ok b) :
    execDpair s = .next { s with
      raw := Memory.writeAll s.raw [(2 * s.k, b.1), (2 * s.k + 1, b.2)]
      c := ckUpd s.c b.1 b.2
      k := s.k + 1 } := by
  have hle := hc.decBody_groups_le hp
  have hin : ∀ cell ∈ [(2 * s.k, b.1), (2 * s.k + 1, b.2)], cell.1 < s.cfg.rawCap := by
    simp only [List.mem_cons, List.not_mem_nil, or_false, Config.rawCap]
    rintro cell (rfl | rfl) <;> simp only <;> omega
  rw [execDpair, whenEnabled_pos ⟨hp, hk⟩]
  simp only [h, storeRaw_of_inside hin, ok_bind, settle_ok]

/-- Stores to the two cells of a byte pair: what they and all other cells read as. -/
theorem Memory.read_writeAll_pair (m : List Host.Cell) (k : Nat) (u v : Byte) :
    let m' := Memory.writeAll m [(2 * k, u), (2 * k + 1, v)]
    Memory.read m' (2 * k) = some u ∧ Memory.read m' (2 * k + 1) = some v ∧
      ∀ a, a ≠ 2 * k → a ≠ 2 * k + 1 → Memory.read m' a = Memory.read m a := by
  have hd : ([(2 * k, u), (2 * k + 1, v)].map Prod.fst).Nodup := by simp
  refine ⟨Memory.read_writeAll_of_mem hd (by simp), Memory.read_writeAll_of_mem hd (by simp),
    fun a h0 h1 => Memory.read_writeAll_of_not_mem _ _ _ ?_⟩
  simp only [List.mem_cons, List.not_mem_nil, or_false]
  rintro c (rfl | rfl)
  · exact h0.symm
  · exact h1.symm

section
variable {s : State} {ch0 ch1 ch2 ch3 ch4 : Byte} (hk : s.k < s.cfg.kMax)
  (h0 : Memory.read s.str (letterAt s.cfg s.k 0) = some ch0) (h1 : Memory.read s.str (letterAt s.cfg s.k 1) = some ch1)
  (h2 : Memory.read s.str (letterAt s.cfg s.k 2) = some ch2) (h3 : Memory.read s.str (letterAt s.cfg s.k 3) = some ch3)
  (h4 : Memory.read s.str (letterAt s.cfg s.k 4) = some ch4)
include hk h0 h1 h2 h3 h4

/-- R127: with its five letters there, a pair group is the lookup pass over them and then the field pass. -/
theorem decodeGroup_of_letters :
    decodeGroup s = (do
      let i0 ← orRaise (vowelOf (letterAt s.cfg s.k 0) ch0)
      let i1 ← orRaise (dataOf (letterAt s.cfg s.k 1) ch1)
      let i2 ← orRaise (vowelOf (letterAt s.cfg s.k 2) ch2)
      let i3 ← orRaise (dataOf (letterAt s.cfg s.k 3) ch3)
      let i4 ← orRaise (dataOf (letterAt s.cfg s.k 4) ch4)
      let b0 ← orRaise (assembleOf s.c i0 i1 i2 (letterAt s.cfg s.k 0) (letterAt s.cfg s.k 2))
      .ok (b0, joinNibbles i3 i4)) := by
  rw [decodeGroup, lookupV_eq (letterAt_inside hk (by decide)) h0, lookupD_eq (letterAt_inside hk (by decide)) h1,
    lookupV_eq (letterAt_inside hk (by decide)) h2, lookupD_eq (letterAt_inside hk (by decide)) h3,
    lookupD_eq (letterAt_inside hk (by decide)) h4]

/-- R127, R132: the first check of a pair group that fails, in their order, is what it raises. -/
theorem decodeGroup_first_failure {f : Failure}
    (hf : (if vidx ch0 = none then some (ErrorKind.invalidCharacter, letterAt s.cfg s.k 0)
      else if didx ch1 = none then some (.invalidCharacter, letterAt s.cfg s.k 1)
      else if vidx ch2 = none then some (.invalidCharacter, letterAt s.cfg s.k 2)
      else if didx ch3 = none then some (.invalidCharacter, letterAt s.cfg s.k 3)
      else if didx ch4 = none then some (.invalidCharacter, letterAt s.cfg s.k 4)
      else if 4 ≤ (((vidx ch0).getD 0).val + 6 - s.c.val % 6) % 6 then some (.checksumMismatch, letterAt s.cfg s.k 0)
      else if 4 ≤ (((vidx ch2).getD 0).val + 6 - s.c.val / 6) % 6 then some (.checksumMismatch, letterAt s.cfg s.k 2)
      else none) = some f) :
    decodeGroup s = .error (.raise f) := by
  rw [decodeGroup_of_letters hk h0 h1 h2 h3 h4]
  rcases e0 : vidx ch0 with _ | i0
  · simpa [vowelOf, e0] using hf
  rcases e1 : didx ch1 with _ | i1
  · simpa [vowelOf, dataOf, e0, e1] using hf
  rcases e2 : vidx ch2 with _ | i2
  · simpa [vowelOf, dataOf, e0, e1, e2] using hf
  rcases e3 : didx ch3 with _ | i3
  · simpa [vowelOf, dataOf, e0, e1, e2, e3] using hf
  rcases e4 : didx ch4 with _ | i4
  · simpa [vowelOf, dataOf, e0, e1, e2, e3, e4] using hf
  simp only [e0, e1, e2, e3, e4, vowelOf, dataOf, reduceCtorEq, if_false, Option.getD_some, orRaise_ok_eq, ok_bind,
    assembleOf_eq] at hf ⊢
  split_ifs at hf ⊢ with hhi hlo
  · simpa using hf
  · simpa using hf

end

/-- R127: five letters of their classes whose two fields are below 4 are decoded to their byte pair. -/
theorem decodeGroup_of_fields {s : State} {i0 i2 : Fin 6} {i1 i3 i4 : BitVec 4} (hk : s.k < s.cfg.kMax)
    (h0 : Memory.read s.str (letterAt s.cfg s.k 0) = some (vowel i0))
    (h1 : Memory.read s.str (letterAt s.cfg s.k 1) = some (dataCons i1))
    (h2 : Memory.read s.str (letterAt s.cfg s.k 2) = some (vowel i2))
    (h3 : Memory.read s.str (letterAt s.cfg s.k 3) = some (dataCons i3))
    (h4 : Memory.read s.str (letterAt s.cfg s.k 4) = some (dataCons i4))
    (hhi : (i0.val + 6 - s.c.val % 6) % 6 < 4) (hlo : (i2.val + 6 - s.c.val / 6) % 6 < 4) :
    decodeGroup s = .ok
      (BitVec.ofNat 8 ((i0.val + 6 - s.c.val % 6) % 6 * 64 + i1.toNat * 4 + (i2.val + 6 - s.c.val / 6) % 6),
        BitVec.ofNat 8 (i3.toNat * 16 + i4.toNat)) := by
  rw [decodeGroup_of_letters hk h0 h1 h2 h3 h4]
  simp only [vowelOf, dataOf, vidx_vowel, didx_dataCons, orRaise_ok_eq, ok_bind, assembleOf_eq, if_neg (Nat.not_le.mpr hhi),
    if_neg (Nat.not_le.mpr hlo), joinNibbles_eq]

/-- Settles O22: a failing check of the group is DPAIR's error entry; otherwise DPAIR stores the byte pair that the fields
name. -/
theorem dpairDecodesOneGroup : Obligations.DpairDecodesOneGroup := by
  intro s ch0 ch1 ch2 ch3 ch4 hc hp hk h0 h1 h2 h3 h4
  have hkMax : s.k < s.cfg.kMax := Nat.lt_of_lt_of_le hk (hc.decBody_groups_le hp)
  refine ⟨fun kind pos hf => execDpair_of_raise hp hk (decodeGroup_first_failure hkMax h0 h1 h2 h3 h4 hf), ?_⟩
  rintro i0 i2 i1 i3 i4 hi lo rfl rfl rfl rfl rfl rfl hhi rfl hlo
  have hgroup := decodeGroup_of_fields (i1 := .ofFin i1) (i3 := .ofFin i3) (i4 := .ofFin i4) hkMax h0
    (h1.trans (congrArg some (dataCons_eq _).symm)) h2 (h3.trans (congrArg some (dataCons_eq _).symm))
    (h4.trans (congrArg some (dataCons_eq _).symm)) hhi hlo
  have hexec := execDpair_of_group hc hp hk hgroup
  simp only [BitVec.toNat_ofFin] at hexec
  rw [ckUpd_ofNat s.c (by omega) (by omega)] at hexec
  exact ⟨_, hexec, rfl, Memory.read_writeAll_pair s.raw s.k _ _⟩

/-! ### What the decoder does with another content of `STR` -/

/-- The state with `m` in place of the content of `STR`. -/
def State.setStr (m : List Host.Cell) (s : State) : State := { s with str := m }

/-- An outcome with `f` applied to the state it goes on to. -/
def mapNext (f : State → State) : Result → Result
  | .next t => .next (f t)
  | .fault r => .fault r
  | .refused r => .refused r

theorem whenEnabled_mapNext (p : Prop) [Decidable p] (f : State → State) (r : Result) :
    whenEnabled p (mapNext f r) = mapNext f (whenEnabled p r) := by
  unfold whenEnabled
  split <;> rfl

/-- The error entry does not touch `STR` (R178), so a step operation that keeps `STR` ends the same way with another content. -/
theorem settle_setStr (m : List Host.Cell) (s : State) (r : Except Stop State) :
    settle (s.setStr m) (State.setStr m <$> r) = mapNext (State.setStr m) (settle s r) := by
  rcases r with (f | r | r) | t <;> rfl

/-- So does the whole step operation, when its pseudocode does. -/
theorem enabled_setStr {p : Prop} [Decidable p] {m : List Host.Cell} {s : State} {x y : Except Stop State}
    (h : x = State.setStr m <$> y) :
    whenEnabled p (settle (s.setStr m) x) = mapNext (State.setStr m) (whenEnabled p (settle s y)) := by
  rw [h, settle_setStr, whenEnabled_mapNext]

theorem storeRaw_setStr (m : List Host.Cell) (cells : List Host.Cell) (s : State) :
    storeRaw cells (s.setStr m) = State.setStr m <$> storeRaw cells s := by
  have hcap : (s.setStr m).cfg.rawCap = s.cfg.rawCap := rfl
  rw [storeRaw, storeRaw, hcap]
  split <;> rfl

section
variable {m : List Host.Cell} {s : State} {p : Nat} (h : Memory.read m p = Memory.read s.str p)
include h

/-- A read of the engine depends on the cell it reads only. -/
theorem readStr_setStr : readStr p (s.setStr m) = readStr p s := by
  simp only [readStr, State.setStr, h]

theorem lookupV_setStr : lookupV p (s.setStr m) = lookupV p s := by
  rw [lookupV, readStr_setStr h, lookupV]

theorem lookupD_setStr : lookupD p (s.setStr m) = lookupD p s := by
  rw [lookupD, readStr_setStr h, lookupD]

theorem lookupM_setStr : lookupM p (s.setStr m) = lookupM p s := by
  rw [lookupM, readStr_setStr h, lookupM]

theorem expectDelimiter_setStr : expectDelimiter p (s.setStr m) = expectDelimiter p s := by
  rw [expectDelimiter, readStr_setStr h, expectDelimiter]

end

/-! ### The cells the decoder reads are no hyphen slots -/

theorem not_isHyphenSlot_zero (cfg : Config) (len : Nat) : ¬ IsHyphenSlot cfg len 0 := by
  rintro ⟨g, -, h⟩
  unfold hyphenAt groupStart at h
  omega

/-- A letter is no hyphen of any group: inside a group the two have different offsets (R66). -/
theorem not_isHyphenSlot_letterAt (cfg : Config) (len k : Nat) {j : Nat} (hj : j ≤ 4) :
    ¬ IsHyphenSlot cfg len (letterAt cfg k j) := by
  rintro ⟨g, -, h⟩
  obtain ⟨hlt, hne⟩ := letterOffset_bounds cfg hj
  have hoff := hyphenSlot_offset_cases cfg.hyphenSlot
  unfold letterAt hyphenAt groupStart at h
  omega

/-- From the tail on there is no hyphen slot. -/
theorem not_isHyphenSlot_of_tail (cfg : Config) {len a : Nat} (ha : groupStart ((len - 5) / 6) ≤ a) :
    ¬ IsHyphenSlot cfg len a := by
  rintro ⟨g, hg, rfl⟩
  have hoff := hyphenSlot_offset_cases cfg.hyphenSlot
  unfold hyphenAt groupStart at ha
  omega

section
variable {m : List Host.Cell} {s : State}
  (h : ∀ a, ¬ IsHyphenSlot s.cfg s.strLen a → Memory.read m a = Memory.read s.str a)
include h

theorem decodeGroup_setStr : decodeGroup (s.setStr m) = decodeGroup s := by
  have hletter : ∀ j, j ≤ 4 → Memory.read m (letterAt s.cfg s.k j) = Memory.read s.str (letterAt s.cfg s.k j) :=
    fun j hj => h _ (not_isHyphenSlot_letterAt s.cfg s.strLen s.k hj)
  have hcfg : (s.setStr m).cfg = s.cfg := rfl
  have hk : (s.setStr m).k = s.k := rfl
  have hc : (s.setStr m).c = s.c := rfl
  rw [decodeGroup, hcfg, hk, hc, lookupV_setStr (hletter 0 (by decide)), lookupD_setStr (hletter 1 (by decide)),
    lookupV_setStr (hletter 2 (by decide)), lookupD_setStr (hletter 3 (by decide)), lookupD_setStr (hletter 4 (by decide)),
    decodeGroup]

/-- R126: DFRAME reads the two ends of the string. -/
theorem execDframe_setStr : execDframe (s.setStr m) = mapNext (State.setStr m) (execDframe s) := by
  by_cases hp : s.phase = .decFrame
  · by_cases hl : s.strLen % 6 = 5
    · have hlast : groupStart ((s.strLen - 5) / 6) ≤ s.strLen - 1 := by
        have := five_le_of_mod_six hl
        unfold groupStart
        omega
      have h0 := expectDelimiter_setStr (h 0 (not_isHyphenSlot_zero _ _))
      have h1 := expectDelimiter_setStr (h _ (not_isHyphenSlot_of_tail s.cfg hlast))
      have hlen : (s.setStr m).strLen = s.strLen := rfl
      rw [execDframe_of_length hp hl, execDframe_of_length (s := s.setStr m) hp hl, hlen, h0, h1, ← settle_setStr]
      simp only [map_bind]
      rfl
    · rw [execDframe_of_wrong_length hp hl, execDframe_of_wrong_length (s := s.setStr m) hp hl]
      rfl
  · exact (whenEnabled_neg hp _).trans (congrArg (mapNext _) (whenEnabled_neg hp _)).symm

/-- R126: DPAIR reads the five letters of its group. -/
theorem execDpair_setStr : execDpair (s.setStr m) = mapNext (State.setStr m) (execDpair s) := by
  refine enabled_setStr (p := s.phase = .decBody ∧ s.k < (s.strLen - 5) / 6) ?_
  rw [decodeGroup_setStr h, map_bind]
  refine bind_congr fun b => ?_
  rw [storeRaw_setStr, map_bind, bind_map_left]
  rfl

/-- R126: DTAIL reads the three characters behind the last group. -/
theorem execDtail_setStr : execDtail (s.setStr m) = mapNext (State.setStr m) (execDtail s) := by
  by_cases hen : s.phase = .decBody ∧ s.k = (s.strLen - 5) / 6
  · have htail : ∀ a, groupStart s.k ≤ a → Memory.read m a = Memory.read s.str a :=
      fun a ha => h a (not_isHyphenSlot_of_tail s.cfg (hen.2 ▸ ha))
    refine enabled_setStr (p := s.phase = .decBody ∧ s.k = (s.strLen - 5) / 6) ?_
    have hk : (s.setStr m).k = s.k := rfl
    rw [hk, lookupV_setStr (htail _ (by omega)), lookupM_setStr (htail _ (by omega)), lookupV_setStr (htail _ (by omega))]
    simp only [map_bind]
    refine bind_congr fun i0 => bind_congr fun i1 => bind_congr fun i2 => bind_congr fun last => ?_
    cases last with
    | none => rfl
    | some b0 =>
      simp only [storeRaw_setStr, map_bind, bind_map_left]
      rfl
  · exact (whenEnabled_neg hen _).trans (congrArg (mapNext _) (whenEnabled_neg hen _)).symm

end

/-- Settles O24: each decode step reads cells that are no hyphen slots, so it does the same with another content of these. -/
theorem hyphenSlotsAreNotRead : Obligations.HyphenSlotsAreNotRead := by
  intro s m i hi h
  have hstep : exec i (s.setStr m) = mapNext (State.setStr m) (exec i s) := by
    simp only [List.mem_cons, List.not_mem_nil, or_false] at hi
    rcases hi with rfl | rfl | rfl
    · exact execDframe_setStr h
    · exact execDpair_setStr h
    · exact execDtail_setStr h
  refine hstep.trans ?_
  unfold mapNext
  rfl

end Sys2Proof.Machine
end

section
/-! Writes to the registers other than CTRL of an idle block (43_host_commands.md R157), and what the acceptance of CMD_ENCODE and
CMD_DECODE leaves (R153, R154). -/

namespace Sys2Proof.Machine

/-! ### Register writes of an idle block -/

/-- R24, R157: an idle block cuts the written value to the register's width and compares what is left with the capacity. -/
theorem hostWriteReg_idle {r v : Nat} {s : State} (hr : r ≤ 6) (hb : s.busy = false) :
    hostWriteReg r v s =
      if r = 2 ∧ v % 2 ^ regWidth s.cfg r ≤ s.cfg.rawCap then .next { s with rawLen := v % 2 ^ regWidth s.cfg r }
      else if r = 3 ∧ v % 2 ^ regWidth s.cfg r ≤ s.cfg.strCap then .next { s with strLen := v % 2 ^ regWidth s.cfg r }
      else .next s := by
  simp only [hostWriteReg, if_neg (Nat.not_lt.mpr hr), hb, Bool.false_eq_true, if_false]

/-- R157: `RAW_LEN` takes a value up to `RAW_CAP` and keeps its own otherwise. -/
theorem hostWriteReg_rawLen {v : Nat} {s : State} (hb : s.busy = false) (hv : v < 2 ^ s.cfg.lenW) :
    hostWriteReg 2 v s = .next { s with rawLen := if v ≤ s.cfg.rawCap then v else s.rawLen } := by
  have hw : v % 2 ^ regWidth s.cfg 2 = v := Nat.mod_eq_of_lt hv
  rw [hostWriteReg_idle (by decide) hb, hw]
  by_cases hcap : v ≤ s.cfg.rawCap <;> simp [hcap]

/-- R157: `STR_LEN` takes a value up to `STR_CAP` and keeps its own otherwise. -/
theorem hostWriteReg_strLen {v : Nat} {s : State} (hb : s.busy = false) (hv : v < 2 ^ s.cfg.lenW) :
    hostWriteReg 3 v s = .next { s with strLen := if v ≤ s.cfg.strCap then v else s.strLen } := by
  have hw : v % 2 ^ regWidth s.cfg 3 = v := Nat.mod_eq_of_lt hv
  rw [hostWriteReg_idle (by decide) hb, hw]
  by_cases hcap : v ≤ s.cfg.strCap <;> simp [hcap]

/-- R157: an idle block stores nothing in a register that is neither of the two lengths, whatever the value. -/
theorem hostWriteReg_ignored {r : Nat} (v : Nat) {s : State} (hr : r ≤ 6) (h2 : r ≠ 2) (h3 : r ≠ 3) (hb : s.busy = false) :
    hostWriteReg r v s = .next s := by
  rw [hostWriteReg_idle hr hb, if_neg (fun h => h2 h.1), if_neg (fun h => h3 h.1)]

/-- A step that takes a write to a register other than CTRL from the queue is that register write. -/
theorem step_hostWriteReg {s : State} {r v : Nat} {rest : List Input} (hc : s.Coherent) (hr : r ≠ 0)
    (hi : s.inputs = .writeReg r v :: rest) : step s = hostWriteReg r v { s with inputs := rest } :=
  (step_of_cons hc hi).trans (if_neg hr)

/-- Settles O34: the step is the register write, by the register it goes to. -/
theorem lengthWritesStopAtTheCapacity : Obligations.LengthWritesStopAtTheCapacity := by
  intro s v rest hc hb
  refine ⟨fun hv hi => ?_, fun hv hi => ?_, fun r hr hi => ?_⟩
  · exact (step_hostWriteReg hc (by decide) hi).trans (hostWriteReg_rawLen hb hv)
  · exact (step_hostWriteReg hc (by decide) hi).trans (hostWriteReg_strLen hb hv)
  · exact (step_hostWriteReg hc (by omega) hi).trans
      (hostWriteReg_ignored v (by omega) (by omega) (by omega) hb)

/-! ### Acceptance of a command -/

/-- The meaning of the word CMD_ENCODE. -/
theorem exec_cmdEncode (s : State) : exec .cmdEncode s = execCmdEncode s := rfl

/-- The meaning of the word CMD_DECODE. -/
theorem exec_cmdDecode (s : State) : exec .cmdDecode s = execCmdDecode s := rfl

/-- Settles O12: an idle block accepts both commands, a busy one ignores them, and a CTRL write with low bits 1 or 2 performs
the one they name. -/
theorem encodeAndDecodeCommandsAreAccepted : Obligations.EncodeAndDecodeCommandsAreAccepted := by
  intro s
  simp only [exec_cmdEncode, exec_cmdDecode]
  refine ⟨execCmdEncode_idle, execCmdDecode_idle, fun hb => ⟨execCmdEncode_busy hb, execCmdDecode_busy hb⟩, ?_⟩
  intro v rest hc hi
  rw [step_writeCtrl hc hi]
  exact ⟨fun hv => writeCtrl_encode hv _, fun hv => writeCtrl_decode hv _⟩

end Sys2Proof.Machine
end

section
/-! The error entry of the decode steps: what each of them may raise (60_exceptions.md R171) and what the entry leaves (R178). -/

namespace Sys2Proof.Machine

section
variable {s t : State} (hs : s.err = false) (ht : t.err = true)
include hs ht

/-- R171: a DFRAME that sets ERR raised InvalidFraming or InvalidLength, with `C = 1` and `K = 0`. -/
theorem execDframe_raised (h : execDframe s = .next t) :
    ∃ kind pos, (kind = .invalidFraming ∨ kind = .invalidLength) ∧
      t = raiseError kind pos { s with c := 1, k := 0 } := by
  obtain ⟨-, ⟨-, -, -, rfl⟩ | ⟨f, rfl, hf⟩⟩ := execDframe_next h
  · exact absurd (hs.symm.trans ht) Bool.false_ne_true
  · refine ⟨f.1, f.2, ?_, rfl⟩
    rcases hf with ⟨-, rfl⟩ | ⟨-, hkind, -⟩
    · exact .inr rfl
    · exact .inl hkind

/-- R171: a DPAIR that sets ERR raised InvalidCharacter or ChecksumMismatch. -/
theorem execDpair_raised (h : execDpair s = .next t) :
    ∃ kind pos, (kind = .invalidCharacter ∨ kind = .checksumMismatch) ∧ t = raiseError kind pos s := by
  obtain ⟨-, -, ⟨b, -, -, rfl⟩ | ⟨f, rfl, hgroup⟩⟩ := execDpair_next h
  · exact absurd (hs.symm.trans ht) Bool.false_ne_true
  · exact ⟨f.1, f.2, (decodeGroup_raise hgroup).1, rfl⟩

/-- R171: a DTAIL that sets ERR raised InvalidCharacter or ChecksumMismatch. -/
theorem execDtail_raised (h : execDtail s = .next t) :
    ∃ kind pos, (kind = .invalidCharacter ∨ kind = .checksumMismatch) ∧ t = raiseError kind pos s := by
  obtain ⟨-, -, rfl | ⟨b, -, rfl⟩ | ⟨f, rfl, hkind, -⟩⟩ := execDtail_next h
  · exact absurd (hs.symm.trans ht) Bool.false_ne_true
  · exact absurd (hs.symm.trans ht) Bool.false_ne_true
  · exact ⟨f.1, f.2, hkind, rfl⟩

/-- R171, R178: a decode step that sets ERR ends in the error entry of a kind of its own; DFRAME enters it with `C = 1` and
`K = 0`. -/
theorem decodeStep_raised {i : Instr} (hi : i ∈ [Instr.dframe, .dpair, .dtail]) (h : exec i s = .next t) :
    ∃ kind pos,
      (if i = .dframe then kind = .invalidFraming ∨ kind = .invalidLength
        else kind = .invalidCharacter ∨ kind = .checksumMismatch) ∧
      t = raiseError kind pos { s with c := if i = .dframe then 1 else s.c, k := if i = .dframe then 0 else s.k } := by
  simp only [List.mem_cons, List.not_mem_nil, or_false] at hi
  rcases hi with rfl | rfl | rfl
  · exact execDframe_raised hs ht h
  · exact execDpair_raised hs ht h
  · exact execDtail_raised hs ht h

end

/-- R178: the error entry takes the values of the cells of `RAW` below `2K`. -/
theorem read_raiseError_raw_of_lt {s : State} {a : Nat} (kind : ErrorKind) (pos : Nat) (h : a < 2 * s.k) :
    Memory.read (raiseError kind pos s).raw a = none :=
  (Memory.read_forgetBelow s.raw _ a).trans (if_pos h)

/-- R178: the error entry keeps the cells of `RAW` from `2K` on. -/
theorem read_raiseError_raw_of_le {s : State} {a : Nat} (kind : ErrorKind) (pos : Nat) (h : 2 * s.k ≤ a) :
    Memory.read (raiseError kind pos s).raw a = Memory.read s.raw a :=
  (Memory.read_forgetBelow s.raw _ a).trans (if_neg (Nat.not_lt.mpr h))

/-- Settles O26: a decode step that sets ERR ends in the error entry, whose cells of `RAW` are lost below `2K` and kept from
there on. -/
theorem raisedErrorsEnterTheErrorState : Obligations.RaisedErrorsEnterTheErrorState := by
  intro s t i hi h hs ht
  obtain ⟨kind, pos, hkind, rfl⟩ := decodeStep_raised hs ht hi h
  exact ⟨kind, pos, hkind, rfl, fun a ha => read_raiseError_raw_of_lt kind pos ha,
    fun a ha => read_raiseError_raw_of_le kind pos ha⟩

end Sys2Proof.Machine
end

section
/-! The encodings (30_encoding.md section 1 to 5): decoding inverts encoding, the dispatch table is a partition, the lookups invert
their tables, and a byte's fields and nibbles assemble back to it. -/

namespace Sys2Proof.Machine

/-! ### Words -/

/-- R65: the field map of a byte pair reads back the fields it was packed from. -/
theorem decodePair_encode (hi : BitVec 2) (mid : BitVec 4) (lo : BitVec 2) (n1 n0 : BitVec 4) :
    decodePair (encode (.pair hi mid lo n1 n0)).word = .ok (.pair hi mid lo n1 n0) := by
  have := hi.isLt; have := mid.isLt; have := lo.isLt; have := n1.isLt; have := n0.isLt
  simp only [encode, decodePair, Nat.shiftRight_eq_div_pow]
  rw [if_neg (by omega)]
  congr 2 <;> apply BitVec.eq_of_toNat_eq <;> simp only [BitVec.toNat_ofNat] <;> omega

/-- R67: the same for the last byte. -/
theorem decodeTail_encode (hi : BitVec 2) (mid : BitVec 4) (lo : BitVec 2) :
    decodeTail (encode (.byteTail hi mid lo)).word = .ok (.byteTail hi mid lo) := by
  have := hi.isLt; have := mid.isLt; have := lo.isLt
  simp only [encode, decodeTail, Nat.shiftRight_eq_div_pow]
  rw [if_neg (by omega)]
  congr 2 <;> apply BitVec.eq_of_toNat_eq <;> simp only [BitVec.toNat_ofNat] <;> omega

/-- R60: each of the 24 symbols is found by its own code, whatever cell it is written to. -/
theorem decodeSymbol_of_row (i : Nat) : ∀ r ∈ symbolRows i, decodeSymbol r.value i = .ok r.instr := by
  simp only [symbolRows, vowelRows, consonantRows, List.cons_append, List.nil_append, List.forall_mem_cons,
    List.not_mem_nil, false_imp_iff, implies_true, and_true, decodeSymbol, matchRow, List.find?_cons, Row.matches]
  simp

/-- R73: each error code is found by its own number, whatever position it records. -/
theorem decodeErr_of_row (pos : Nat) : ∀ r ∈ errRows pos, decodeErr r.value pos = .ok r.instr := by
  simp [errRows, decodeErr, matchRow, List.find?_cons, Row.matches]

/-- Settles O1: commands and step operations are constants of their tables, symbols and error codes rows of theirs, and the two
data formats go by their field maps. -/
theorem decodeInvertsEncode : Obligations.DecodeInvertsEncode := by
  intro i
  cases i
  case pair hi mid lo n1 n0 => exact decodePair_encode hi mid lo n1 n0
  case byteTail hi mid lo => exact decodeTail_encode hi mid lo
  case invalidFraming pos => exact decodeErr_of_row pos ⟨0x7, 0x1, _⟩ (by simp [errRows])
  case invalidLength pos => exact decodeErr_of_row pos ⟨0x7, 0x2, _⟩ (by simp [errRows])
  case invalidCharacter pos => exact decodeErr_of_row pos ⟨0x7, 0x3, _⟩ (by simp [errRows])
  case checksumMismatch pos => exact decodeErr_of_row pos ⟨0x7, 0x4, _⟩ (by simp [errRows])
  case cmdNop | cmdEncode | cmdDecode | cmdRsvd => rfl
  case eopen | epair | etailb | etailc | eclose | dframe | dpair | dtail => rfl
  case errNone => rfl
  all_goals exact decodeSymbol_of_row _ ⟨0xFF, _, _⟩ (by simp [encode, symbolRows, vowelRows, consonantRows])

/-- Settles O2, word by word. -/
theorem dispatchRowsAreDisjointAndComplete : Obligations.DispatchRowsAreDisjointAndComplete := by
  unfold Obligations.DispatchRowsAreDisjointAndComplete
  decide

/-- Settles O3: each word is looked up in the table of its space. -/
theorem specWordsDecode : Obligations.SpecWordsDecode :=
  ⟨rfl, rfl, rfl, rfl, rfl, rfl, rfl, rfl, rfl, rfl, rfl, rfl, rfl⟩

/-! ### Tables -/

/-- R61: each lookup is defined exactly on the characters of its table, with the index they have there. -/
theorem vidx_eq_some_iff {ch : Byte} {i : Fin 6} : vidx ch = some i ↔ vowel i = ch :=
  ⟨vowel_of_vidx, fun h => h ▸ vidx_vowel i⟩

theorem midx_eq_some_iff {ch : Byte} {i : Fin 17} : midx ch = some i ↔ cons i = ch :=
  ⟨cons_of_midx, fun h => h ▸ midx_cons i⟩

theorem didx_eq_some_iff {ch : Byte} {i : BitVec 4} : didx ch = some i ↔ dataCons i = ch :=
  ⟨dataCons_of_didx, fun h => h ▸ didx_dataCons i⟩

theorem didx_delimiter : didx delimiter = none := rfl

/-- R35: no character is in both tables. -/
theorem vowel_ne_cons : ∀ i j, vowel i ≠ cons j := by decide

/-- R35: the hyphen is in neither table. -/
theorem vowel_ne_hyphen : ∀ i, vowel i ≠ hyphen := by decide

theorem cons_ne_hyphen : ∀ i, cons i ≠ hyphen := by decide

/-- Settles O8. -/
theorem lookupsInvertTables : Obligations.LookupsInvertTables :=
  ⟨fun _ _ => vidx_eq_some_iff, fun _ _ => midx_eq_some_iff, fun _ _ => didx_eq_some_iff, didx_delimiter,
    vowel_ne_cons, vowel_ne_hyphen, cons_ne_hyphen⟩

/-! ### Fields and nibbles -/

/-- R70: the fields of a byte assemble to it. -/
theorem joinFields_fields (b : Byte) : joinFields (hiField b) (midField b) (loField b) = b := by
  rw [joinFields_eq, toNat_hiField, toNat_midField, toNat_loField]
  apply BitVec.eq_of_toNat_eq
  have := b.isLt
  rw [BitVec.toNat_ofNat]
  omega

/-- R71: the nibbles of a byte assemble to it. -/
theorem joinNibbles_nibbles (b : Byte) : joinNibbles (upperNibble b) (lowerNibble b) = b := by
  rw [joinNibbles_eq, toNat_upperNibble, toNat_lowerNibble]
  apply BitVec.eq_of_toNat_eq
  have := b.isLt
  rw [BitVec.toNat_ofNat]
  omega

/-- R70: assembly inverts the field map under every checksum: what R64 makes of three fields is assembled to their byte. -/
theorem assemble_indices (c : Checksum) (hi : BitVec 2) (mid : BitVec 4) (lo : BitVec 2) (p0 p2 : Nat) :
    assemble c (highIndex c hi) mid (lowIndex c lo) p0 p2 = .ok (joinFields hi mid lo) := by
  have hhi := hi.isLt
  have hlo := lo.isLt
  rw [assemble, rawHigh_highIndex, rawLow_lowIndex, if_neg (by omega), if_neg (by omega), BitVec.ofNat_toNat,
    BitVec.ofNat_toNat, BitVec.setWidth_eq, BitVec.setWidth_eq]

theorem ofNat_eq_midField (b : Byte) : BitVec.ofNat 4 (b.toNat / 4) = midField b :=
  BitVec.eq_of_toNat_eq ((BitVec.toNat_ofNat _ _).trans (toNat_midField b).symm)

theorem ofNat_eq_upperNibble (b : Byte) : BitVec.ofNat 4 (b.toNat / 16) = upperNibble b := by
  apply BitVec.eq_of_toNat_eq
  have := b.isLt
  rw [BitVec.toNat_ofNat, toNat_upperNibble]
  omega

theorem ofNat_eq_lowerNibble (b : Byte) : BitVec.ofNat 4 b.toNat = lowerNibble b :=
  BitVec.eq_of_toNat_eq ((BitVec.toNat_ofNat _ _).trans (toNat_lowerNibble b).symm)

/-- Settles O9: the range checks and values in numbers, and both inversions by the fields and nibbles of the byte. -/
theorem assemblyInvertsTheFieldMap : Obligations.AssemblyInvertsTheFieldMap := by
  refine ⟨assemble_eq, fun c b p0 p2 => ?_, joinNibbles_eq, fun b => ?_⟩
  · rw [← highIndex_hiField, ← lowIndex_loField, ofNat_eq_midField, assemble_indices, joinFields_fields]
  · rw [ofNat_eq_upperNibble, ofNat_eq_lowerNibble, joinNibbles_nibbles]

/-- Settles O10: the remainder of a sum is that of the sum of the remainders. -/
theorem checksumUpdateOnReducedTerms : Obligations.ChecksumUpdateOnReducedTerms := by
  intro c b0 b1
  have hval : (ckUpd c b0 b1).val = (c.val * 5 + b0.toNat * 7 + b1.toNat) % 36 := rfl
  refine ⟨hval, hval.trans ?_⟩
  omega

end Sys2Proof.Machine
end

section
/-! Dispatch (30_encoding.md R79): which step operation a busy state selects, that it is the only one enabled, and that a step runs
what is decoded; what the meanings without a case distinction do. -/

namespace Sys2Proof.Machine

/-! ### The one enabled step operation -/

/-- R33 (c), (d), (e): a busy state is in a phase of an operation, not done and without an error. -/
theorem State.Coherent.of_busy {s : State} (hc : s.Coherent) (hb : s.busy = true) :
    s.phase ≠ .idle ∧ s.done = false ∧ s.err = false := by
  obtain ⟨hphase, hdone, herr, -⟩ := hc
  have hd : s.done = false := by simpa [hb] using hdone
  exact ⟨hphase.mp hb, hd, by simpa [hd] using herr⟩

/-- R33 (h): in ENC_BODY `K` does not exceed the number of pairs. -/
theorem State.Coherent.encBody_k_le {s : State} (hc : s.Coherent) (hp : s.phase = .encBody) : s.k ≤ s.rawLen / 2 := by
  obtain ⟨-, -, -, -, -, hk⟩ := hc
  have hkt : s.kt = s.rawLen / 2 := by simp [State.kt, hp]
  exact hkt ▸ (hk (.inl hp)).1

/-- R33 (h): in DEC_BODY `K` does not exceed the number of pair groups. -/
theorem State.Coherent.decBody_k_le {s : State} (hc : s.Coherent) (hp : s.phase = .decBody) :
    s.k ≤ (s.strLen - 5) / 6 := by
  obtain ⟨-, -, -, -, -, hk⟩ := hc
  have hkt : s.kt = (s.strLen - 5) / 6 := by simp [State.kt, hp]
  exact hkt ▸ (hk (.inr hp)).1

/-- Settles O4: by the phase, and in the two body phases by whether `K` has reached `KT`; the tail of an encode by parity. -/
theorem busyStateSelectsTheOneEnabledStep : Obligations.BusyStateSelectsTheOneEnabledStep := by
  intro s hc hb
  cases hp : s.phase with
  | idle => exact absurd hp (hc.of_busy hb).1
  | encOpen => exact ⟨_, decode_sel_encOpen hp, fun j => by simp [StepEnabled, hp]⟩
  | encBody =>
    rcases Nat.lt_or_eq_of_le (hc.encBody_k_le hp) with hk | hk
    · exact ⟨_, decode_sel_epair hp hk.ne, fun j => by simp [StepEnabled, hp, hk, hk.ne]⟩
    · refine ⟨_, decode_sel_etail hp hk, fun j => ?_⟩
      rcases Nat.mod_two_eq_zero_or_one s.rawLen with ho | ho <;> simp [StepEnabled, hp, hk, ho]
  | encClose => exact ⟨_, decode_sel_encClose hp, fun j => by simp [StepEnabled, hp]⟩
  | decFrame => exact ⟨_, decode_sel_decFrame hp, fun j => by simp [StepEnabled, hp]⟩
  | decBody =>
    rcases Nat.lt_or_eq_of_le (hc.decBody_k_le hp) with hk | hk
    · exact ⟨_, decode_sel_dpair hp hk.ne, fun j => by simp [StepEnabled, hp, hk, hk.ne]⟩
    · exact ⟨_, decode_sel_dtail hp hk, fun j => by simp [StepEnabled, hp, hk]⟩

/-- Settles O18: the selection, and that neither tail is enabled for the other parity. -/
theorem tailIsChosenByParity : Obligations.TailIsChosenByParity := by
  intro s hc hp hk
  refine ⟨decode_sel_etail hp hk, fun he => ?_, fun ho => ?_⟩
  · exact whenEnabled_neg (by simp [he]) _
  · exact whenEnabled_neg (by simp [ho]) _

/-! ### A step runs what is decoded -/

theorem writeCtrl_of_decode {v : Nat} {i : Instr} (s : State) (h : decode ⟨.ctrl, v, 0⟩ = .ok i) :
    writeCtrl v s = exec i s := by
  simp [writeCtrl, h]

theorem writeStr_of_decode {n : Nat} {v : Byte} {i : Instr} (s : State) (h : decode ⟨.str, v.toNat, n⟩ = .ok i) :
    writeStr n v s = exec i s := by
  simp [writeStr, h]

/-- Settles O5: the step is the engine's turn or the event it takes, and either performs what it decodes. -/
theorem stepRunsDecodedInstruction : Obligations.StepRunsDecodedInstruction := by
  intro s i rest hc
  refine ⟨fun hi hb hd => ?_, fun hi hb hd => ?_, fun v hi hd => ?_, fun n v hi hd => ?_⟩
  · exact (step_of_nil hc hi).trans (engineTurn_of_decode hb hd)
  · exact (step_of_cons hc hi).trans (engineTurn_of_decode (s := { s with inputs := rest }) hb hd)
  · exact (step_writeCtrl hc hi).trans (writeCtrl_of_decode _ hd)
  · exact (step_of_cons hc hi).trans (writeStr_of_decode _ hd)

/-- Settles O6. -/
theorem idleEngineHasNoStep : Obligations.IdleEngineHasNoStep := by
  intro s rest hc hb
  refine ⟨fun hi => ?_, fun hi => ?_⟩
  · exact (step_of_nil hc hi).trans (engineTurn_idle hb)
  · exact (step_of_cons hc hi).trans (engineTurn_idle (s := { s with inputs := rest }) hb)

/-- Settles O7: the step checks R33 before it performs anything, and only reset passes without it. -/
theorem stateWithoutMeaningIsRefused : Obligations.StateWithoutMeaningIsRefused := by
  intro s hc hreset
  unfold step turn
  split
  next => exact if_neg hc
  next e rest hi =>
    have he : e ≠ .reset := by simpa [hi] using hreset
    exact if_neg (not_or.mpr ⟨hc, he⟩)

/-- A reset at the head of the queue is performed in every state (R196). -/
theorem step_of_reset {s : State} {rest : List Input} (hi : s.inputs = .reset :: rest) :
    step s = .next (resetBlock { s with inputs := rest }) := by
  simp [step, turn, hi, perform]

/-- Settles O41: the step is `resetBlock`. -/
theorem resetAppliesInEveryState : Obligations.ResetAppliesInEveryState :=
  fun s _ hi => ⟨s.losses + 1, step_of_reset hi⟩

/-! ### Meanings without a case distinction -/

/-- Settles O11: both commands are the identity. -/
theorem nopAndReservedCommandChangeNothing : Obligations.NopAndReservedCommandChangeNothing :=
  fun _ => ⟨rfl, rfl⟩

/-- Settles O28: the meaning of ERR_NONE is `clearError`. -/
theorem errNoneClearsTheRecord : Obligations.ErrNoneClearsTheRecord := fun _ => rfl

/-- Settles O20: each encoder step that completes ends in a state built from the one it found without touching the error record, `RAW`
or `RAW_LEN`. -/
theorem encoderRaisesNoErrorAndKeepsItsInput : Obligations.EncoderRaisesNoErrorAndKeepsItsInput := by
  intro s t i hi h
  simp only [List.mem_cons, List.not_mem_nil, or_false] at hi
  rcases hi with rfl | rfl | rfl | rfl | rfl
  · obtain ⟨-, rfl⟩ := execEopen_next h
    exact ⟨rfl, rfl, rfl, rfl, rfl⟩
  · obtain ⟨-, -, b0, b1, -, -, -, rfl⟩ := execEpair_next h
    exact ⟨rfl, rfl, rfl, rfl, rfl⟩
  · obtain ⟨-, -, -, b0, -, -, rfl⟩ := execEtailb_next h
    exact ⟨rfl, rfl, rfl, rfl, rfl⟩
  · obtain ⟨-, -, -, -, rfl⟩ := execEtailc_next h
    exact ⟨rfl, rfl, rfl, rfl, rfl⟩
  · obtain ⟨-, -, rfl⟩ := execEclose_next h
    exact ⟨rfl, rfl, rfl, rfl, rfl⟩

end Sys2Proof.Machine
end

section
/-! The host's port (43_host_commands.md R150, 20_memory.md R46, R50 to R53): writes and reads by BUSY and by whether they address
anything; the symbols as writes of their codes (30_encoding.md R60). -/

namespace Sys2Proof.Machine

/-! ### Writes -/

theorem hostWriteRaw_idle {i : Nat} (v : Byte) {s : State} (hi : i < s.cfg.rawCap) (hb : s.busy = false) :
    hostWriteRaw i v s = .next { s with raw := Memory.write s.raw i v } := by
  simp [hostWriteRaw, Nat.not_le.mpr hi, hb]

theorem hostWriteRaw_busy {i : Nat} (v : Byte) {s : State} (hi : i < s.cfg.rawCap) (hb : s.busy = true) :
    hostWriteRaw i v s = .next s := by
  simp [hostWriteRaw, Nat.not_le.mpr hi, hb]

theorem hostWriteRaw_outside {i : Nat} (v : Byte) {s : State} (hi : s.cfg.rawCap ≤ i) :
    hostWriteRaw i v s = .refused (.noSuchCell .raw i) := if_pos hi

theorem hostWriteStr_idle {i : Nat} (v : Byte) {s : State} (hi : i < s.cfg.strCap) (hb : s.busy = false) :
    hostWriteStr i v s = .next { s with str := Memory.write s.str i v } := by
  simp [hostWriteStr, Nat.not_le.mpr hi, hb]

theorem hostWriteStr_busy {i : Nat} (v : Byte) {s : State} (hi : i < s.cfg.strCap) (hb : s.busy = true) :
    hostWriteStr i v s = .next s := by
  simp [hostWriteStr, Nat.not_le.mpr hi, hb]

theorem hostWriteStr_outside {i : Nat} (v : Byte) {s : State} (hi : s.cfg.strCap ≤ i) :
    hostWriteStr i v s = .refused (.noSuchCell .str i) := if_pos hi

/-- R50: a busy block ignores a write to any register it has. -/
theorem writeReg_busy {r : Nat} (v : Nat) {s : State} (hr : r ≤ 6) (hb : s.busy = true) : writeReg r v s = .next s := by
  unfold writeReg
  split
  · exact writeCtrl_busy v hb
  · simp [hostWriteReg, Nat.not_lt.mpr hr, hb]

theorem writeReg_outside {r : Nat} (v : Nat) (s : State) (hr : 6 < r) : writeReg r v s = .refused (.noSuchRegister r) :=
  (if_neg (Nat.ne_zero_of_lt hr)).trans (if_pos hr)

/-- A write changes one cell, which then reads as the value written. -/
theorem Memory.read_write_cell (m : List Host.Cell) (a : Nat) (v : Byte) :
    Memory.read (Memory.write m a v) a = some v ∧ ∀ b, b ≠ a → Memory.read (Memory.write m a v) b = Memory.read m b :=
  Memory.read_writeAll_singleton m a v

/-- Settles O32: the step is the write of one cell. -/
theorem hostWritesStoreOneCell : Obligations.HostWritesStoreOneCell := by
  intro s n v rest hc hb
  refine ⟨fun hi hn => ?_, fun hi hn => ?_⟩
  · exact ⟨_, (step_of_cons hc hi).trans (hostWriteRaw_idle v (s := { s with inputs := rest }) hn hb), rfl,
      Memory.read_write_cell s.raw n v⟩
  · exact ⟨_, (step_of_cons hc hi).trans ((writeStr_eq n v _).trans
      (hostWriteStr_idle v (s := { s with inputs := rest }) hn hb)), rfl, Memory.read_write_cell s.str n v⟩

/-- Settles O33: the step is a write, which a busy block ignores. -/
theorem lockoutIgnoresHostWrites : Obligations.LockoutIgnoresHostWrites := by
  intro s n r v b rest hc hb
  refine ⟨fun hi hn => ?_, fun hi hn => ?_, fun hi hr => ?_⟩
  · exact (step_of_cons hc hi).trans (hostWriteRaw_busy b (s := { s with inputs := rest }) hn hb)
  · exact (step_of_cons hc hi).trans ((writeStr_eq n b _).trans
      (hostWriteStr_busy b (s := { s with inputs := rest }) hn hb))
  · exact (step_of_cons hc hi).trans (writeReg_busy v (s := { s with inputs := rest }) hr hb)

/-- Settles O29: each symbol's meaning is the write of its row's code. -/
theorem symbolsAreStoredAsTheirCodes : Obligations.SymbolsAreStoredAsTheirCodes := by
  intro s n i code hmem
  obtain ⟨r, hr, hrow⟩ : ∃ r ∈ symbolRows n, (r.instr, BitVec.ofNat 8 r.value) = (i, code) := List.mem_map.mp hmem
  obtain ⟨rfl, rfl⟩ := Prod.mk.inj hrow
  have hexec := exec_symbolRow n s r hr
  refine ⟨fun hn hb => ?_, fun hn hb => ?_, fun hn => ?_⟩
  · exact ⟨_, hexec.trans (hostWriteStr_idle _ hn hb), rfl, Memory.read_write_cell s.str n _⟩
  · exact hexec.trans (hostWriteStr_busy _ hn hb)
  · exact hexec.trans (hostWriteStr_outside _ hn)

/-! ### Reads -/

theorem hostReadRaw_idle {i : Nat} {s : State} (hi : i < s.cfg.rawCap) (hb : s.busy = false) :
    hostReadRaw i s = .next (answer ((Memory.read s.raw i).getD (Config.freeRawCell i s.losses)).toNat s) := by
  simp [hostReadRaw, answerCell_eq, Nat.not_le.mpr hi, hb]

theorem hostReadRaw_busy {i : Nat} {s : State} (hi : i < s.cfg.rawCap) (hb : s.busy = true) :
    hostReadRaw i s = .next (answerFree 8 s) := by
  simp [hostReadRaw, answerCell_eq, Nat.not_le.mpr hi, hb]

theorem hostReadRaw_outside {i : Nat} {s : State} (hi : s.cfg.rawCap ≤ i) :
    hostReadRaw i s = .refused (.noSuchCell .raw i) := if_pos hi

theorem hostReadStr_idle {i : Nat} {s : State} (hi : i < s.cfg.strCap) (hb : s.busy = false) :
    hostReadStr i s = .next (answer ((Memory.read s.str i).getD (Config.freeStrCell i s.losses)).toNat s) := by
  simp [hostReadStr, answerCell_eq, Nat.not_le.mpr hi, hb]

theorem hostReadStr_busy {i : Nat} {s : State} (hi : i < s.cfg.strCap) (hb : s.busy = true) :
    hostReadStr i s = .next (answerFree 8 s) := by
  simp [hostReadStr, answerCell_eq, Nat.not_le.mpr hi, hb]

theorem hostReadStr_outside {i : Nat} {s : State} (hi : s.cfg.strCap ≤ i) :
    hostReadStr i s = .refused (.noSuchCell .str i) := if_pos hi

/-- R26: STATUS is read in every state. -/
theorem hostReadReg_status (s : State) : hostReadReg 1 s = .next (answer s.status s) := by
  simp [hostReadReg, State.regView]

theorem hostReadReg_idle {r : Nat} {s : State} (hr : r ≤ 6) (hb : s.busy = false) :
    hostReadReg r s = .next (answer (s.regView r) s) := by
  simp [hostReadReg, Nat.not_lt.mpr hr, hb]

theorem hostReadReg_busy {r : Nat} {s : State} (hr : r ≤ 6) (h1 : r ≠ 1) (hb : s.busy = true) :
    hostReadReg r s = .next (answerFree (regWidth s.cfg r) s) := by
  simp [hostReadReg, Nat.not_lt.mpr hr, h1, hb]

theorem hostReadReg_outside {r : Nat} (s : State) (hr : 6 < r) : hostReadReg r s = .refused (.noSuchRegister r) :=
  if_pos hr

/-- R26: STATUS as the sum of its flags' weights. -/
theorem State.status_eq (s : State) :
    s.status = (if s.busy then 1 else 0) + (if s.done then 2 else 0) + (if s.err then 4 else 0) +
      (if s.mode = .decode then 8 else 0) := by
  unfold State.status
  cases s.busy <;> cases s.done <;> cases s.err <;> cases s.mode <;> rfl

/-- Settles O36: the step is a read, which hands over STATUS in any state and the register's or the cell's value while idle. -/
theorem hostReadsAnswerTheState : Obligations.HostReadsAnswerTheState := by
  intro s rest hc
  refine ⟨fun hi => ?_, fun r v hb hv hi => ?_, fun n v hb hn hv hi => ?_, fun n v hb hn hv hi => ?_⟩
  · rw [← State.status_eq]
    exact (step_of_cons hc hi).trans (hostReadReg_status _)
  · have hview : r ≤ 6 ∧ v = s.regView r := by
      simp only [List.mem_cons, List.not_mem_nil, or_false, Prod.mk.injEq] at hv
      rcases hv with ⟨rfl, rfl⟩ | ⟨rfl, rfl⟩ | ⟨rfl, rfl⟩ | ⟨rfl, rfl⟩ | ⟨rfl, rfl⟩ | ⟨rfl, rfl⟩ <;>
        exact ⟨by decide, rfl⟩
    obtain ⟨hr, rfl⟩ := hview
    exact (step_of_cons hc hi).trans (hostReadReg_idle (s := { s with inputs := rest }) hr hb)
  · refine (step_of_cons hc hi).trans ((hostReadRaw_idle (s := { s with inputs := rest }) hn hb).trans ?_)
    rw [hv]
    rfl
  · refine (step_of_cons hc hi).trans ((hostReadStr_idle (s := { s with inputs := rest }) hn hb).trans ?_)
    rw [hv]
    rfl

/-- Settles O37: the step is a read, which draws a free value of the right width during lockout and hands over the cell's own while
idle. -/
theorem unspecifiedReadsAreFreeValues : Obligations.UnspecifiedReadsAreFreeValues := by
  intro s e rest hc hi
  refine ⟨fun w hb he => ?_, fun n hb he hn hv => ?_, fun n hb he hn hv => ?_⟩
  · rcases he with ⟨n, rfl, hn, rfl⟩ | ⟨n, rfl, hn, rfl⟩ | ⟨r, rfl, hr⟩
    · exact (step_of_cons hc hi).trans (hostReadRaw_busy (s := { s with inputs := rest }) hn hb)
    · exact (step_of_cons hc hi).trans (hostReadStr_busy (s := { s with inputs := rest }) hn hb)
    · have hwidth : r ≤ 6 ∧ r ≠ 1 ∧ w = regWidth s.cfg r := by
        simp only [List.mem_cons, List.not_mem_nil, or_false, Prod.mk.injEq] at hr
        rcases hr with ⟨rfl, rfl⟩ | ⟨rfl, rfl⟩ | ⟨rfl, rfl⟩ | ⟨rfl, rfl⟩ | ⟨rfl, rfl⟩ | ⟨rfl, rfl⟩ <;>
          exact ⟨by decide, by decide, rfl⟩
      obtain ⟨hle, hne, rfl⟩ := hwidth
      exact (step_of_cons hc hi).trans (hostReadReg_busy (s := { s with inputs := rest }) hle hne hb)
  · subst he
    refine (step_of_cons hc hi).trans ((hostReadRaw_idle (s := { s with inputs := rest }) hn hb).trans ?_)
    rw [hv]
    rfl
  · subst he
    refine (step_of_cons hc hi).trans ((hostReadStr_idle (s := { s with inputs := rest }) hn hb).trans ?_)
    rw [hv]
    rfl

/-- Settles O39: each access checks that it addresses something before it looks at BUSY. -/
theorem accessesOutsideAreRefused : Obligations.AccessesOutsideAreRefused := by
  intro s n v b e rest hc hi
  refine ⟨fun hn he => ?_, fun hn he => ?_, fun hn he => ?_⟩
  · rcases he with rfl | rfl
    · exact (step_of_cons hc hi).trans (hostWriteRaw_outside b (s := { s with inputs := rest }) hn)
    · exact (step_of_cons hc hi).trans (hostReadRaw_outside (s := { s with inputs := rest }) hn)
  · rcases he with rfl | rfl
    · exact (step_of_cons hc hi).trans ((writeStr_eq n b _).trans
        (hostWriteStr_outside b (s := { s with inputs := rest }) hn))
    · exact (step_of_cons hc hi).trans (hostReadStr_outside (s := { s with inputs := rest }) hn)
  · rcases he with rfl | rfl
    · exact (step_of_cons hc hi).trans (writeReg_outside v _ hn)
    · exact (step_of_cons hc hi).trans (hostReadReg_outside _ hn)

/-! ### What a host operation that goes on can do -/

/-- A read of a cell or a register: it hands over a fresh free value while busy, or a value that the block's state determines, so
that an idle block hands it over again. -/
theorem perform_read_next {e : Input} {s t : State} (he : ∃ n, e = .readRaw n ∨ e = .readStr n ∨ e = .readReg n)
    (h : perform e s = .next t) :
    (s.busy = true ∧ ∃ w, t = answerFree w s) ∨
      ∃ v, t = answer v s ∧ (s.busy = false →
        ∀ inputs reads, perform e { s with inputs := inputs, reads := reads } =
          .next (answer v { s with inputs := inputs, reads := reads })) := by
  have hbusy := Bool.eq_false_or_eq_true s.busy
  obtain ⟨n, rfl | rfl | rfl⟩ := he
  · rcases Nat.lt_or_ge n s.cfg.rawCap with hn | hn
    · rcases hbusy with hb | hb
      · exact .inl ⟨hb, 8, by simpa [perform, hostReadRaw_busy hn hb] using h.symm⟩
      · refine .inr ⟨_, by simpa [perform, hostReadRaw_idle hn hb] using h.symm, fun _ inputs reads => ?_⟩
        exact hostReadRaw_idle (s := { s with inputs := inputs, reads := reads }) hn hb
    · simp [perform, hostReadRaw_outside hn] at h
  · rcases Nat.lt_or_ge n s.cfg.strCap with hn | hn
    · rcases hbusy with hb | hb
      · exact .inl ⟨hb, 8, by simpa [perform, hostReadStr_busy hn hb] using h.symm⟩
      · refine .inr ⟨_, by simpa [perform, hostReadStr_idle hn hb] using h.symm, fun _ inputs reads => ?_⟩
        exact hostReadStr_idle (s := { s with inputs := inputs, reads := reads }) hn hb
    · simp [perform, hostReadStr_outside hn] at h
  · rcases Nat.lt_or_ge 6 n with hn | hn
    · simp [perform, hostReadReg_outside s hn] at h
    · rcases hbusy with hb | hb
      · by_cases h1 : n = 1
        · subst h1
          exact .inr ⟨_, by simpa [perform, hostReadReg_status] using h.symm, fun hf => by simp [hb] at hf⟩
        · exact .inl ⟨hb, _, by simpa [perform, hostReadReg_busy hn h1 hb] using h.symm⟩
      · refine .inr ⟨_, by simpa [perform, hostReadReg_idle hn hb] using h.symm, fun _ inputs reads => ?_⟩
        exact hostReadReg_idle (s := { s with inputs := inputs, reads := reads }) hn hb

/-- Settles O38: a read changes the host's side only, and an idle block answers it the same way a second time. -/
theorem readsHaveNoSideEffect : Obligations.ReadsHaveNoSideEffect := by
  intro s t e rest he
  have hne : e ≠ .reset := by
    rintro rfl
    obtain ⟨n, h | h | h⟩ := he <;> cases h
  refine ⟨fun hi h => ?_, fun hi hb h => ?_⟩
  · obtain ⟨hnil, -⟩ | ⟨e', rest', hi', -, h⟩ := step_next h
    · simp [hi] at hnil
    obtain ⟨rfl, rfl⟩ := List.cons.inj (hi.symm.trans hi')
    obtain ⟨-, w, rfl⟩ | ⟨v, rfl, -⟩ := perform_read_next he h
    · exact ⟨rfl, _, rfl⟩
    · exact ⟨rfl, _, rfl⟩
  · obtain ⟨hnil, -⟩ | ⟨e', rest', hi', hc, h⟩ := step_next h
    · simp [hi] at hnil
    obtain ⟨rfl, rfl⟩ := List.cons.inj (hi.symm.trans hi')
    obtain ⟨hb', -⟩ | ⟨v, rfl, hagain⟩ := perform_read_next he h
    · exact absurd (hb.symm.trans hb') Bool.false_ne_true
    · have hc : s.Coherent := hc.resolve_right hne
      exact ⟨v, rfl, (step_of_cons (s := answer v { s with inputs := e :: rest }) hc rfl).trans (hagain hb rest _)⟩

/-- Settles O35: while busy a write is ignored and a read changes the host's side only. -/
theorem hostCannotDisturbAnOperation : Obligations.HostCannotDisturbAnOperation := by
  intro s t e rest hb hi hengine hreset h
  obtain ⟨hnil, -⟩ | ⟨e', rest', hi', -, h⟩ := step_next h
  · simp [hi] at hnil
  obtain ⟨rfl, rfl⟩ := List.cons.inj (hi.symm.trans hi')
  have hread : (∃ n, e = .readRaw n ∨ e = .readStr n ∨ e = .readReg n) →
      t = { s with inputs := rest, reads := t.reads, draws := t.draws } := fun he => by
    obtain ⟨-, w, rfl⟩ | ⟨v, rfl, -⟩ := perform_read_next he h <;> rfl
  have hwrite : t = { s with inputs := rest } → t = { s with inputs := rest, reads := t.reads, draws := t.draws } := by
    rintro rfl
    rfl
  cases e with
  | engine => exact absurd rfl hengine
  | reset => exact absurd rfl hreset
  | readRaw n => exact hread ⟨n, .inl rfl⟩
  | readStr n => exact hread ⟨n, .inr (.inl rfl)⟩
  | readReg n => exact hread ⟨n, .inr (.inr rfl)⟩
  | writeRaw n v => exact hwrite ((hostWriteRaw_next h).2.trans (if_pos hb))
  | writeStr n v => exact hwrite ((hostWriteStr_next ((writeStr_eq n v _).symm.trans h)).2.trans (if_pos hb))
  | writeReg r v =>
    rcases Nat.lt_or_ge 6 r with hr | hr
    · simp [perform, writeReg_outside v _ hr] at h
    · refine hwrite ?_
      simpa [perform, writeReg_busy v (s := { s with inputs := rest }) hr hb] using h.symm

end Sys2Proof.Machine
end

section
/-! The formats (30_encoding.md R64, R67), the error codes (60_exceptions.md R178), DTAIL (42_decoder.md R128), what a decode step may
change (20_memory.md R55), and unwritten operand cells (R52). -/

namespace Sys2Proof.Machine

/-! ### The two data formats -/

/-- R64 to R66: the cells of a pair group, by the numbers of its fields. -/
theorem groupCells_eq (cfg : Config) (k : Nat) (c : Checksum) (hi : BitVec 2) (mid : BitVec 4) (lo : BitVec 2)
    (n1 n0 : BitVec 4) :
    groupCells cfg k c hi mid lo n1 n0 =
      [(1 + 6 * k + letterOffset cfg 0, vowel (Fin.ofNat 6 (hi.toNat + c.val))),
       (1 + 6 * k + letterOffset cfg 1, cons (Fin.ofNat 17 mid.toNat)),
       (1 + 6 * k + letterOffset cfg 2, vowel (Fin.ofNat 6 (lo.toNat + c.val / 6))),
       (1 + 6 * k + letterOffset cfg 3, cons (Fin.ofNat 17 n1.toNat)),
       (1 + 6 * k + cfg.hyphenSlot.offset, 0x2D),
       (1 + 6 * k + letterOffset cfg 4, cons (Fin.ofNat 17 n0.toNat))] := by
  simp only [groupCells, letterAt, hyphenAt, groupStart, dataCons_eq]
  rfl

/-- R67: the cells of a byte tail, by the numbers of its fields. -/
theorem byteTailCells_eq (k : Nat) (c : Checksum) (hi : BitVec 2) (mid : BitVec 4) (lo : BitVec 2) :
    byteTailCells (groupStart k) c hi mid lo =
      [(1 + 6 * k, vowel (Fin.ofNat 6 (hi.toNat + c.val))), (2 + 6 * k, cons (Fin.ofNat 17 mid.toNat)),
       (3 + 6 * k, vowel (Fin.ofNat 6 (lo.toNat + c.val / 6)))] := by
  have h1 : groupStart k + 1 = 2 + 6 * k := by unfold groupStart; omega
  have h2 : groupStart k + 2 = 3 + 6 * k := by unfold groupStart; omega
  rw [byteTailCells, h1, h2, dataCons_eq]
  rfl

/-- A pair group below K_MAX is inside `STR`. -/
theorem groupCells_inside {cfg : Config} {k : Nat} (hk : k < cfg.kMax) (c : Checksum) (hi : BitVec 2) (mid : BitVec 4)
    (lo : BitVec 2) (n1 n0 : BitVec 4) : ∀ cell ∈ groupCells cfg k c hi mid lo n1 n0, cell.1 < cfg.strCap := fun cell hm => by
  have := (groupCells_bounds cfg k c hi mid lo n1 n0 cell hm).2
  unfold Config.strCap
  omega

theorem execPair_of_enabled {hi : BitVec 2} {mid : BitVec 4} {lo : BitVec 2} {n1 n0 : BitVec 4} {s : State}
    (hc : s.Coherent) (hp : s.phase = .encBody) (hk : s.k < s.rawLen / 2) :
    execPair hi mid lo n1 n0 s =
      .next { s with str := Memory.writeAll s.str (groupCells s.cfg s.k s.c hi mid lo n1 n0) } := by
  have hkMax : s.k < s.cfg.kMax := Nat.lt_of_lt_of_le hk (hc.encBody_groups_le hp)
  rw [execPair, whenEnabled_pos ⟨hp, hk⟩, storeStr_of_inside (groupCells_inside hkMax _ _ _ _ _ _), settle_ok]

theorem execByteTail_of_enabled {hi : BitVec 2} {mid : BitVec 4} {lo : BitVec 2} {s : State}
    (hc : s.Coherent) (hp : s.phase = .encBody) (hk : s.k = s.rawLen / 2) (ho : s.rawLen % 2 = 1) :
    execByteTail hi mid lo s =
      .next { s with str := Memory.writeAll s.str (byteTailCells (groupStart s.k) s.c hi mid lo) } := by
  have hin : ∀ cell ∈ byteTailCells (groupStart s.k) s.c hi mid lo, cell.1 < s.cfg.strCap :=
    tail_inside (hk ▸ hc.encBody_groups_le hp) _ _ _
  rw [execByteTail, whenEnabled_pos ⟨hp, hk, ho⟩, storeStr_of_inside hin, settle_ok]

/-- Settles O30: the six stores go to six different cells inside the group. -/
theorem pairBecomesItsGroup : Obligations.PairBecomesItsGroup := by
  intro s hi mid lo n1 n0 hc hp hk
  have hd := groupCells_nodup s.cfg s.k s.c hi mid lo n1 n0
  have hbounds := groupCells_bounds s.cfg s.k s.c hi mid lo n1 n0
  have hexec := execPair_of_enabled (hi := hi) (mid := mid) (lo := lo) (n1 := n1) (n0 := n0) hc hp hk
  rw [groupCells_eq] at hd hbounds hexec
  refine ⟨_, hexec, rfl, Memory.read_writeAll_of_mem hd (by simp), Memory.read_writeAll_of_mem hd (by simp),
    Memory.read_writeAll_of_mem hd (by simp), Memory.read_writeAll_of_mem hd (by simp),
    Memory.read_writeAll_of_mem hd (by simp), Memory.read_writeAll_of_mem hd (by simp),
    fun a ha => Memory.read_writeAll_of_not_mem _ _ _ fun cell hm => ?_⟩
  have := hbounds cell hm
  omega

/-- Settles O31: the three stores of a tail. -/
theorem byteTailBecomesItsLetters : Obligations.ByteTailBecomesItsLetters := by
  intro s hi mid lo hc hp hk ho
  have hexec := execByteTail_of_enabled (hi := hi) (mid := mid) (lo := lo) hc hp hk ho
  rw [byteTailCells_eq] at hexec
  exact ⟨_, hexec, rfl, Memory.read_writeAll_tail s.str s.k _ _ _⟩

/-! ### The error codes -/

/-- Settles O27: each code performed in its phase is the error entry. -/
theorem errorEntryRecordsAndForgets : Obligations.ErrorEntryRecordsAndForgets := by
  intro s pos i p code hmem hp
  have hentry : ∃ kind : ErrorKind, kind.errCode = code ∧ exec i s = .next (raiseError kind pos s) := by
    simp only [List.mem_cons, List.not_mem_nil, or_false, Prod.mk.injEq] at hmem
    rcases hmem with ⟨rfl, rfl, rfl⟩ | ⟨rfl, rfl, rfl⟩ | ⟨rfl, rfl, rfl⟩ | ⟨rfl, rfl, rfl⟩
    · exact ⟨.invalidFraming, rfl, whenEnabled_pos hp _⟩
    · exact ⟨.invalidLength, rfl, whenEnabled_pos hp _⟩
    · exact ⟨.invalidCharacter, rfl, whenEnabled_pos hp _⟩
    · exact ⟨.checksumMismatch, rfl, whenEnabled_pos hp _⟩
  obtain ⟨kind, rfl, hexec⟩ := hentry
  exact ⟨_, hexec, rfl, fun a ha => read_raiseError_raw_of_lt kind pos ha,
    fun a ha => read_raiseError_raw_of_le kind pos ha⟩

/-! ### DTAIL -/

/-- R128: how DTAIL ends after a tail that is accepted: at once, or after its byte is stored. -/
def tailEnd (s : State) (last : Option Byte) : Except Stop State :=
  match last with
  | none => .ok (endOperation { s with rawLen := 2 * s.k })
  | some b0 => do
    let t ← storeRaw [(2 * s.k, b0)] s
    .ok (endOperation { t with rawLen := 2 * s.k + 1 })

theorem lookupM_eq {p : Nat} {s : State} {ch : Byte} (hp : p < s.cfg.strCap) (h : Memory.read s.str p = some ch) :
    lookupM p s = orRaise (middleOf p ch) := by
  rw [lookupM, readStr_of_read hp h, ok_bind]

theorem orRaise_bind {α β : Type} (x : Except Failure α) (f : α → Except Failure β) :
    orRaise (x >>= f) = (orRaise x >>= fun a => orRaise (f a)) := by
  cases x <;> rfl

/-- The three characters of a tail behind at most K_MAX groups are inside `STR`. -/
theorem tail_offset_inside {cfg : Config} {k p : Nat} (hk : k ≤ cfg.kMax) (hp : p ≤ groupStart k + 2) :
    p < cfg.strCap := by
  unfold groupStart at hp
  unfold Config.strCap
  omega

section
variable {s : State} {ch0 ch1 ch2 : Byte} (hc : s.Coherent) (hp : s.phase = .decBody)
  (hk : s.k = (s.strLen - 5) / 6) (h0 : Memory.read s.str (groupStart s.k) = some ch0)
  (h1 : Memory.read s.str (groupStart s.k + 1) = some ch1) (h2 : Memory.read s.str (groupStart s.k + 2) = some ch2)
include hc hp hk h0 h1 h2

/-- R128: with its three characters there, DTAIL is `decTail` of them and the end it names. -/
theorem execDtail_of_letters :
    execDtail s = settle s (orRaise (decTail s.c (groupStart s.k) ch0 ch1 ch2) >>= tailEnd s) := by
  have hkMax : s.k ≤ s.cfg.kMax := hk ▸ hc.decBody_groups_le hp
  rw [execDtail, whenEnabled_pos ⟨hp, hk⟩, lookupV_eq (tail_offset_inside hkMax (by omega)) h0,
    lookupM_eq (tail_offset_inside hkMax (by omega)) h1, lookupV_eq (tail_offset_inside hkMax (by omega)) h2]
  simp only [decTail, orRaise_bind, bind_assoc]
  rfl

theorem execDtail_of_failure {f : Failure} (h : decTail s.c (groupStart s.k) ch0 ch1 ch2 = .error f) :
    execDtail s = .next (raiseError f.1 f.2 s) := by
  rw [execDtail_of_letters hc hp hk h0 h1 h2, h, orRaise_error_eq, error_bind, settle_raise]

/-- A checksum tail ends the operation. -/
theorem execDtail_of_checksum (h : decTail s.c (groupStart s.k) ch0 ch1 ch2 = .ok none) :
    execDtail s = .next (endOperation { s with rawLen := 2 * s.k }) := by
  rw [execDtail_of_letters hc hp hk h0 h1 h2, h, orRaise_ok_eq, ok_bind, tailEnd, settle_ok]

/-- A byte tail ends it after its byte is stored. -/
theorem execDtail_of_byte {b : Byte} (h : decTail s.c (groupStart s.k) ch0 ch1 ch2 = .ok (some b)) :
    execDtail s =
      .next (endOperation { s with raw := Memory.writeAll s.raw [(2 * s.k, b)], rawLen := 2 * s.k + 1 }) := by
  have hkMax : s.k ≤ s.cfg.kMax := hk ▸ hc.decBody_groups_le hp
  have hin : ∀ cell ∈ [(2 * s.k, b)], cell.1 < s.cfg.rawCap :=
    List.forall_mem_singleton.mpr (by unfold Config.rawCap; omega)
  rw [execDtail_of_letters hc hp hk h0 h1 h2, h, orRaise_ok_eq, ok_bind, tailEnd]
  simp only [storeRaw_of_inside hin, ok_bind, settle_ok]

end

/-- R60: the middle of a tail is the delimiter exactly when its index is 16. -/
theorem cons_eq_delimiter_iff : ∀ i : Fin 17, cons i = 0x78 ↔ i = 16 := by decide

/-- R128: the range checks of a byte tail are those of a byte. -/
theorem tailOf_of_ne {c : Checksum} {t : Nat} {i0 i2 : Fin 6} {i1 : Fin 17} (h : i1 ≠ 16) :
    tailOf c t i0 i1 i2 = some <$> assembleOf c i0 (BitVec.ofNat 4 i1.val) i2 t (t + 2) := by
  rw [tailOf, if_neg h]
  split <;> simp [*]

/-- R128, R132: the first check of a tail that fails, in their order, is what it reports. -/
theorem decTail_first_failure {c : Checksum} {t : Nat} {ch0 ch1 ch2 : Byte} {f : Failure}
    (hf : (if vidx ch0 = none then some (ErrorKind.invalidCharacter, t)
      else if midx ch1 = none then some (.invalidCharacter, t + 1)
      else if vidx ch2 = none then some (.invalidCharacter, t + 2)
      else if ch1 = 0x78 then
        (if ((vidx ch0).getD 0).val ≠ c.val % 6 then some (.checksumMismatch, t)
         else if ((vidx ch2).getD 0).val ≠ c.val / 6 then some (.checksumMismatch, t + 2)
         else none)
      else if 4 ≤ (((vidx ch0).getD 0).val + 6 - c.val % 6) % 6 then some (.checksumMismatch, t)
      else if 4 ≤ (((vidx ch2).getD 0).val + 6 - c.val / 6) % 6 then some (.checksumMismatch, t + 2)
      else none) = some f) :
    decTail c t ch0 ch1 ch2 = .error f := by
  unfold decTail
  rcases e0 : vidx ch0 with _ | i0
  · simpa [vowelOf, e0] using hf
  rcases e1 : midx ch1 with _ | i1
  · simpa [vowelOf, middleOf, e0, e1] using hf
  rcases e2 : vidx ch2 with _ | i2
  · simpa [vowelOf, middleOf, e0, e1, e2] using hf
  obtain rfl := cons_of_midx e1
  simp only [e0, e1, e2, vowelOf, middleOf, reduceCtorEq, if_false, Option.getD_some, ok_bind,
    cons_eq_delimiter_iff] at hf ⊢
  by_cases hx : i1 = 16
  · rw [if_pos hx] at hf
    rw [tailOf, if_pos hx, ckOffHi, ckOffLo]
    split_ifs at hf ⊢
    · simpa using hf
    · simpa using hf
  · rw [if_neg hx] at hf
    rw [tailOf_of_ne hx, assembleOf_eq]
    split_ifs at hf ⊢
    · simpa using hf
    · simpa using hf

/-- R68, R128: the checksum's own two vowels around the delimiter. -/
theorem decTail_of_checksum (c : Checksum) (t : Nat) :
    decTail c t (vowel (tailHighIndex c)) (cons 16) (vowel (tailLowIndex c)) = .ok none := by
  simp only [decTail, vowelOf, middleOf, vidx_vowel, midx_cons, ok_bind, tailOf, if_true]
  simp [tailHighIndex, tailLowIndex]

/-- R128: three letters of their classes, the middle one a data consonant, are assembled as a byte. -/
theorem decTail_of_data (c : Checksum) (t : Nat) (i0 i2 : Fin 6) (i1 : BitVec 4) :
    decTail c t (vowel i0) (dataCons i1) (vowel i2) = some <$> assembleOf c i0 i1 i2 t (t + 2) := by
  have hlt := i1.isLt
  have hne : (⟨i1.toNat, by omega⟩ : Fin 17) ≠ 16 := fun h => by
    have := congrArg Fin.val h
    simp only at this
    omega
  simp only [decTail, vowelOf, middleOf, vidx_vowel, dataCons, midx_cons, ok_bind, tailOf_of_ne hne, BitVec.ofNat_toNat,
    BitVec.setWidth_eq]

/-- R128: the same with both fields in range. -/
theorem decTail_of_fields {c : Checksum} (t : Nat) {i0 i2 : Fin 6} (i1 : BitVec 4)
    (hhi : (i0.val + 6 - c.val % 6) % 6 < 4) (hlo : (i2.val + 6 - c.val / 6) % 6 < 4) :
    decTail c t (vowel i0) (dataCons i1) (vowel i2) = .ok (some
      (BitVec.ofNat 8 ((i0.val + 6 - c.val % 6) % 6 * 64 + i1.toNat * 4 + (i2.val + 6 - c.val / 6) % 6))) := by
  rw [decTail_of_data, assembleOf_eq, if_neg (Nat.not_le.mpr hhi), if_neg (Nat.not_le.mpr hlo)]
  rfl

/-- Settles O23: DTAIL is `decTail` of its three characters, and the end it names. -/
theorem dtailEndsTheOperation : Obligations.DtailEndsTheOperation := by
  intro s ch0 ch1 ch2 hc hp hk h0 h1 h2
  have e1 : 2 + 6 * s.k = groupStart s.k + 1 := by unfold groupStart; omega
  have e2 : 3 + 6 * s.k = groupStart s.k + 2 := by unfold groupStart; omega
  rw [e1] at h1
  rw [e2] at h2
  refine ⟨fun kind pos hf => ?_, ?_, ?_⟩
  · rw [e1, e2] at hf
    exact execDtail_of_failure hc hp hk h0 h1 h2 (decTail_first_failure hf)
  · rintro rfl rfl rfl
    rw [← tailHighIndex_eq] at h0
    rw [← tailLowIndex_eq] at h2
    exact execDtail_of_checksum hc hp hk h0 h1 h2 (decTail_of_checksum s.c _)
  · rintro i0 i2 i1 hi lo rfl rfl rfl rfl hhi rfl hlo
    have h1' := h1.trans (congrArg some (dataCons_eq (.ofFin i1)).symm)
    obtain ⟨hcell, hframe⟩ := Memory.read_writeAll_singleton s.raw (2 * s.k)
      (BitVec.ofNat 8 ((i0.val + 6 - s.c.val % 6) % 6 * 64 + i1.val * 4 + (i2.val + 6 - s.c.val / 6) % 6))
    exact ⟨_, execDtail_of_byte hc hp hk h0 h1' h2 (decTail_of_fields _ (.ofFin i1) hhi hlo), rfl, hcell, hframe⟩

/-! ### What a decode step may change -/

/-- R55, R178: what the error entry does to `RAW`. -/
theorem raiseError_keeps_input (kind : ErrorKind) (pos : Nat) (s : State) :
    (∀ a, 2 * s.k + 1 < a → Memory.read (raiseError kind pos s).raw a = Memory.read s.raw a) ∧
      ∀ a, a < 2 * s.k → Memory.read (raiseError kind pos s).raw a = none :=
  ⟨fun a ha => read_raiseError_raw_of_le kind pos (by omega), fun a ha => read_raiseError_raw_of_lt kind pos ha⟩

/-- Settles O25: by what each decode step can do; only the error entry takes values from `RAW`. -/
theorem decoderKeepsItsInput : Obligations.DecoderKeepsItsInput := by
  intro s t i hi h
  simp only [List.mem_cons, List.not_mem_nil, or_false] at hi
  rcases hi with rfl | rfl | rfl
  · obtain ⟨-, ⟨-, -, -, rfl⟩ | ⟨f, rfl, -⟩⟩ := execDframe_next h
    · exact ⟨rfl, rfl, rfl, rfl, rfl, rfl, rfl, fun _ _ => rfl, fun _ _ => .inl rfl⟩
    · have hraw : (raiseError f.1 f.2 { s with c := ckInit, k := 0 }).raw = s.raw := by simp
      exact ⟨rfl, rfl, rfl, rfl, rfl, rfl, rfl, fun _ _ => by rw [hraw], fun _ _ => .inl (by rw [hraw])⟩
  · obtain ⟨-, -, ⟨b, -, -, rfl⟩ | ⟨f, rfl, -⟩⟩ := execDpair_next h
    · obtain ⟨-, -, hframe⟩ := Memory.read_writeAll_pair s.raw s.k b.1 b.2
      exact ⟨rfl, rfl, rfl, rfl, rfl, rfl, rfl, fun a ha => hframe a (by omega) (by omega),
        fun a ha => .inl (hframe a (by omega) (by omega))⟩
    · obtain ⟨habove, hbelow⟩ := raiseError_keeps_input f.1 f.2 s
      exact ⟨rfl, rfl, rfl, rfl, rfl, rfl, rfl, habove, fun a ha => .inr ⟨rfl, hbelow a ha⟩⟩
  · obtain ⟨-, -, rfl | ⟨b, -, rfl⟩ | ⟨f, rfl, -⟩⟩ := execDtail_next h
    · exact ⟨rfl, rfl, rfl, rfl, rfl, rfl, rfl, fun _ _ => rfl, fun _ _ => .inl rfl⟩
    · obtain ⟨-, hframe⟩ := Memory.read_writeAll_singleton s.raw (2 * s.k) b
      exact ⟨rfl, rfl, rfl, rfl, rfl, rfl, rfl, fun a ha => hframe a (by omega), fun a ha => .inl (hframe a (by omega))⟩
    · obtain ⟨habove, hbelow⟩ := raiseError_keeps_input f.1 f.2 s
      exact ⟨rfl, rfl, rfl, rfl, rfl, rfl, rfl, habove, fun a ha => .inr ⟨rfl, hbelow a ha⟩⟩

/-! ### Unwritten operand cells -/

theorem readRaw_of_none {i : Nat} {s : State} (hi : i < s.cfg.rawCap) (h : Memory.read s.raw i = none) :
    readRaw i s = .error (.refuse (.cellHoldsNoValue .raw i)) := by
  simp [readRaw, h, Nat.not_le.mpr hi]

theorem readStr_of_none {i : Nat} {s : State} (hi : i < s.cfg.strCap) (h : Memory.read s.str i = none) :
    readStr i s = .error (.refuse (.cellHoldsNoValue .str i)) := by
  simp [readStr, h, Nat.not_le.mpr hi]

section
variable {p : Nat} {s : State} (hp : p < s.cfg.strCap) (h : Memory.read s.str p = none)
include hp h

theorem lookupV_of_none : lookupV p s = .error (.refuse (.cellHoldsNoValue .str p)) := by
  rw [lookupV, readStr_of_none hp h, error_bind]

theorem lookupD_of_none : lookupD p s = .error (.refuse (.cellHoldsNoValue .str p)) := by
  rw [lookupD, readStr_of_none hp h, error_bind]

theorem lookupM_of_none : lookupM p s = .error (.refuse (.cellHoldsNoValue .str p)) := by
  rw [lookupM, readStr_of_none hp h, error_bind]

theorem expectDelimiter_of_none : expectDelimiter p s = .error (.refuse (.cellHoldsNoValue .str p)) := by
  rw [expectDelimiter, readStr_of_none hp h, error_bind]

end

section
variable {p : Nat} {s : State} {ch : Byte} (hp : p < s.cfg.strCap) (h : Memory.read s.str p = some ch)
include hp h

theorem lookupV_passes (hv : vidx ch ≠ none) : ∃ i, lookupV p s = .ok i := by
  obtain ⟨i, hi⟩ := Option.ne_none_iff_exists'.mp hv
  exact ⟨i, lookupV_of_read hp (h.trans (congrArg some (vowel_of_vidx hi).symm))⟩

theorem lookupD_passes (hd : didx ch ≠ none) : ∃ i, lookupD p s = .ok i := by
  obtain ⟨i, hi⟩ := Option.ne_none_iff_exists'.mp hd
  exact ⟨i, lookupD_of_read hp (h.trans (congrArg some (dataCons_of_didx hi).symm))⟩

theorem lookupM_passes (hm : midx ch ≠ none) : ∃ i, lookupM p s = .ok i := by
  obtain ⟨i, hi⟩ := Option.ne_none_iff_exists'.mp hm
  exact ⟨i, lookupM_of_read hp (h.trans (congrArg some (cons_of_midx hi).symm))⟩

end

/-- R127: DPAIR stops at the first letter that is not there when those before it pass their lookup. -/
theorem decodeGroup_of_none {s : State} (hk : s.k < s.cfg.kMax) {j : Nat} (hj : j ≤ 4)
    (hpass : ∀ i, i < j → ∃ ch, Memory.read s.str (letterAt s.cfg s.k i) = some ch ∧
      if i = 0 ∨ i = 2 then vidx ch ≠ none else didx ch ≠ none)
    (h : Memory.read s.str (letterAt s.cfg s.k j) = none) :
    decodeGroup s = .error (.refuse (.cellHoldsNoValue .str (letterAt s.cfg s.k j))) := by
  have hin : ∀ i, i ≤ 4 → letterAt s.cfg s.k i < s.cfg.strCap := fun i hi => letterAt_inside hk hi
  have hV : ∀ i, i < j → i = 0 ∨ i = 2 → ∃ x, lookupV (letterAt s.cfg s.k i) s = .ok x := fun i hi hi02 => by
    obtain ⟨ch, hr, hc⟩ := hpass i hi
    exact lookupV_passes (hin i (by omega)) hr (by simpa [hi02] using hc)
  have hD : ∀ i, i < j → ¬ (i = 0 ∨ i = 2) → ∃ x, lookupD (letterAt s.cfg s.k i) s = .ok x := fun i hi hi02 => by
    obtain ⟨ch, hr, hc⟩ := hpass i hi
    exact lookupD_passes (hin i (by omega)) hr (by simpa [hi02] using hc)
  rw [decodeGroup]
  rcases Nat.eq_zero_or_pos j with rfl | hj0
  · rw [lookupV_of_none (hin 0 hj) h, error_bind]
  obtain ⟨i0, h0⟩ := hV 0 hj0 (by decide)
  rw [h0, ok_bind]
  rcases Nat.eq_or_lt_of_le hj0 with rfl | hj1
  · rw [lookupD_of_none (hin 1 hj) h, error_bind]
  obtain ⟨i1, h1⟩ := hD 1 hj1 (by decide)
  rw [h1, ok_bind]
  rcases Nat.eq_or_lt_of_le hj1 with rfl | hj2
  · rw [lookupV_of_none (hin 2 hj) h, error_bind]
  obtain ⟨i2, h2⟩ := hV 2 hj2 (by decide)
  rw [h2, ok_bind]
  rcases Nat.eq_or_lt_of_le hj2 with rfl | hj3
  · rw [lookupD_of_none (hin 3 hj) h, error_bind]
  obtain ⟨i3, h3⟩ := hD 3 hj3 (by decide)
  obtain rfl : j = 4 := Nat.le_antisymm hj hj3
  rw [h3, ok_bind, lookupD_of_none (hin 4 hj) h, error_bind]

/-- Settles O40: the operands before the empty cell pass, so the operation gets to that cell and stops there. -/
theorem unwrittenInputIsRefused : Obligations.UnwrittenInputIsRefused := by
  intro s hc
  have rawIn : s.phase = .encBody → s.k ≤ s.rawLen / 2 → 2 * s.k < s.cfg.rawCap := fun hp hk => by
    have := hc.encBody_groups_le hp
    unfold Config.rawCap
    omega
  have strIn : s.phase = .decBody → s.k = (s.strLen - 5) / 6 → ∀ p, p ≤ groupStart s.k + 2 → p < s.cfg.strCap :=
    fun hp hk p hle => tail_offset_inside (hk ▸ hc.decBody_groups_le hp) hle
  have e1 : 2 + 6 * s.k = groupStart s.k + 1 := by unfold groupStart; omega
  have e2 : 3 + 6 * s.k = groupStart s.k + 2 := by unfold groupStart; omega
  have e0 : 1 + 6 * s.k = groupStart s.k := rfl
  rw [e0, e1, e2]
  refine ⟨fun hp hk h => ?_, fun b0 hp hk h0 h => ?_, fun hp hk ho h => ?_, fun hp hl h => ?_, fun hp hl h0 h => ?_,
    fun j hj hp hk hpass h => ?_, fun hp hk h => ?_, fun ch0 hp hk h0 hv0 h => ?_, fun ch0 ch1 hp hk h0 hv0 h1 hm1 h => ?_⟩
  · change execEpair s = _
    rw [execEpair, whenEnabled_pos ⟨hp, hk⟩, readRaw_of_none (rawIn hp hk.le) h, error_bind, settle_refuse]
  · have hin : 2 * s.k + 1 < s.cfg.rawCap := by
      have := hc.encBody_groups_le hp
      unfold Config.rawCap
      omega
    change execEpair s = _
    rw [execEpair, whenEnabled_pos ⟨hp, hk⟩, readRaw_of_read (rawIn hp hk.le) h0, ok_bind, readRaw_of_none hin h,
      error_bind, settle_refuse]
  · change execEtailb s = _
    rw [execEtailb, whenEnabled_pos ⟨hp, hk, ho⟩, readRaw_of_none (rawIn hp hk.le) h, error_bind, settle_refuse]
  · change execDframe s = _
    rw [execDframe_of_length hp hl, expectDelimiter_of_none (hc.frame_inside hl).1 h, error_bind, settle_refuse]
  · obtain ⟨hin0, hin1⟩ := hc.frame_inside hl
    change execDframe s = _
    rw [execDframe_of_length hp hl, expectDelimiter_of_read hin0 h0, ok_bind, expectDelimiter_of_none hin1 h,
      error_bind, settle_refuse]
  · have hkMax : s.k < s.cfg.kMax := Nat.lt_of_lt_of_le hk (hc.decBody_groups_le hp)
    change execDpair s = _
    rw [execDpair, whenEnabled_pos ⟨hp, hk⟩, decodeGroup_of_none hkMax hj hpass h, error_bind, settle_refuse]
    rfl
  · change execDtail s = _
    rw [execDtail, whenEnabled_pos ⟨hp, hk⟩, lookupV_of_none (strIn hp hk _ (by omega)) h, error_bind, settle_refuse]
  · obtain ⟨i0, hi0⟩ := lookupV_passes (strIn hp hk _ (by omega)) h0 hv0
    change execDtail s = _
    rw [execDtail, whenEnabled_pos ⟨hp, hk⟩, hi0, ok_bind, lookupM_of_none (strIn hp hk _ (by omega)) h, error_bind,
      settle_refuse]
  · obtain ⟨i0, hi0⟩ := lookupV_passes (strIn hp hk _ (by omega)) h0 hv0
    obtain ⟨i1, hi1⟩ := lookupM_passes (strIn hp hk _ (by omega)) h1 hm1
    change execDtail s = _
    rw [execDtail, whenEnabled_pos ⟨hp, hk⟩, hi0, ok_bind, hi1, ok_bind, lookupV_of_none (strIn hp hk _ (by omega)) h,
      error_bind, settle_refuse]

end Sys2Proof.Machine
end

section
/-! One canonical form of a buffer's contents (20_memory.md R41 to R46), the invariant of the machine (10_state.md R33) along every
step and every instruction, and that the engine stays inside the buffers (20_memory.md R49). -/

namespace Sys2Proof.Machine

/-! ### The canonical form -/

/-- A cell below all listed ones holds no value. -/
theorem Memory.read_of_lt {m : List Host.Cell} {a : Nat} (h : ∀ c ∈ m, a < c.1) : Memory.read m a = none := by
  induction m with
  | nil => rfl
  | cons cell rest ih =>
    obtain ⟨b, v⟩ := cell
    obtain ⟨hb, hrest⟩ := List.forall_mem_cons.mp h
    rw [Memory.read_cons, if_neg (Nat.ne_of_lt hb), ih hrest]

/-- Two canonical contents that read alike have the same first index. -/
theorem Memory.first_index_le {a b : Nat} {v w : Byte} {m m' : List Host.Cell} (hm' : Memory.wf ((b, w) :: m') = true)
    (h : Memory.read ((a, v) :: m) a = Memory.read ((b, w) :: m') a) : b ≤ a := by
  obtain ⟨hb, -⟩ := (Memory.wf_cons b w m').mp hm'
  by_contra hlt
  have hnone : Memory.read ((b, w) :: m') a = none :=
    Memory.read_of_lt (List.forall_mem_cons.mpr ⟨Nat.lt_of_not_le hlt, fun c hc => Nat.lt_trans (Nat.lt_of_not_le hlt) (hb c hc)⟩)
  simp [hnone, Memory.read_cons] at h

/-- Canonical contents that read alike everywhere are equal. -/
theorem Memory.eq_of_read_eq {m m' : List Host.Cell} (hm : Memory.wf m = true) (hm' : Memory.wf m' = true)
    (h : ∀ b, Memory.read m b = Memory.read m' b) : m = m' := by
  induction m generalizing m' with
  | nil =>
    cases m' with
    | nil => rfl
    | cons cell rest =>
      obtain ⟨b, w⟩ := cell
      simpa [Memory.read_cons] using h b
  | cons cell rest ih =>
    obtain ⟨a, v⟩ := cell
    cases m' with
    | nil => simpa [Memory.read_cons] using h a
    | cons cell' rest' =>
      obtain ⟨b, w⟩ := cell'
      obtain rfl : a = b := Nat.le_antisymm (Memory.first_index_le hm (h b).symm) (Memory.first_index_le hm' (h a))
      obtain rfl : v = w := by simpa [Memory.read_cons] using h a
      obtain ⟨ha, hrest⟩ := (Memory.wf_cons a v rest).mp hm
      obtain ⟨ha', hrest'⟩ := (Memory.wf_cons a v rest').mp hm'
      refine congrArg _ (ih hrest hrest' fun c => ?_)
      by_cases hc : c = a
      · rw [hc, Memory.read_of_lt ha, Memory.read_of_lt ha']
      · simpa [Memory.read_cons, hc] using h c

/-- Settles O47. -/
theorem bufferContentsStayCanonical : Obligations.BufferContentsStayCanonical := fun m a n v hm =>
  ⟨fun b => Memory.read_write m a b v, Memory.wf_write m a v hm, Memory.wf_forgetBelow m n hm,
    fun _ hm' h => Memory.eq_of_read_eq hm hm' h⟩

/-! ### The two ways to keep R33 -/

/-- R33 of a state with an operation in progress. -/
theorem State.coherent_of_running {s : State} (hb : s.busy = true) (hp : s.phase ≠ .idle) (hd : s.done = false)
    (he : s.err = false) (hcode : s.errCode = .noError) (hlen : s.rawLen ≤ s.cfg.rawCap ∧ s.strLen ≤ s.cfg.strCap)
    (hk : s.phase = .encBody ∨ s.phase = .decBody → s.k ≤ s.kt ∧ s.kt ≤ s.cfg.kMax) : s.Coherent :=
  ⟨iff_of_true hb hp, by simp [hd], by simp [he], by simp [he, hcode], hlen, hk⟩

/-- R33 of an idle state. -/
theorem State.coherent_of_idle {s : State} (hb : s.busy = false) (hp : s.phase = .idle)
    (he : s.err = true → s.done = true ∧ s.mode = .decode) (hcode : s.err = true ↔ s.errCode ≠ .noError)
    (hlen : s.rawLen ≤ s.cfg.rawCap ∧ s.strLen ≤ s.cfg.strCap) : s.Coherent :=
  ⟨by simp [hb, hp], by simp [hb], he, hcode, hlen, by simp [hp]⟩

/-- R33 (c) to (f), (g): what holds in every phase of an operation. -/
theorem State.Coherent.of_phase {s : State} (hc : s.Coherent) (hp : s.phase ≠ .idle) :
    s.busy = true ∧ s.done = false ∧ s.err = false ∧ s.errCode = .noError := by
  have hb : s.busy = true := hc.1.mpr hp
  obtain ⟨-, hd, he⟩ := hc.of_busy hb
  obtain ⟨-, -, -, hcode, -⟩ := hc
  exact ⟨hb, hd, he, by simpa [he] using hcode⟩

theorem State.Coherent.phase_idle {s : State} (hc : s.Coherent) (hb : s.busy = false) : s.phase = .idle := by
  obtain ⟨hphase, -⟩ := hc
  simpa [hb] using hphase

theorem State.Coherent.lengths {s : State} (hc : s.Coherent) : s.rawLen ≤ s.cfg.rawCap ∧ s.strLen ≤ s.cfg.strCap := by
  obtain ⟨-, -, -, -, hlen, -⟩ := hc
  exact hlen

/-- R33 (d) to (f): what an idle block's error record keeps. -/
theorem State.Coherent.record {s : State} (hc : s.Coherent) :
    (s.err = true → s.done = true ∧ s.mode = .decode) ∧ (s.err = true ↔ s.errCode ≠ .noError) := by
  obtain ⟨-, -, herr, hcode, -⟩ := hc
  exact ⟨herr, hcode⟩

/-! ### The invariant along each update -/

section
variable {s : State} (h : s.Inv)
include h

/-- `C` and the host's side of the port are free. -/
theorem State.Inv.hostSide (c : Checksum) (inputs : List Input) (reads : List Nat) (draws losses : Nat) :
    { s with c := c, inputs := inputs, reads := reads, draws := draws, losses := losses }.Inv :=
  ⟨h.legal, h.coherent, h.rawWf, h.strWf, h.rawWithin, h.strWithin, h.kLe, h.errPosFits, h.errPosZero, h.encMode, h.decMode,
    h.closeK, h.decLen⟩

theorem State.Inv.storeStr {cells : List Host.Cell} (hin : ∀ c ∈ cells, c.1 < s.cfg.strCap) :
    { s with str := Memory.writeAll s.str cells }.Inv :=
  ⟨h.legal, h.coherent, h.rawWf, Memory.wf_writeAll _ _ h.strWf, h.rawWithin,
    Memory.within_writeAll _ _ _ h.strWithin hin, h.kLe, h.errPosFits, h.errPosZero, h.encMode, h.decMode, h.closeK, h.decLen⟩

theorem State.Inv.storeRaw {cells : List Host.Cell} (hin : ∀ c ∈ cells, c.1 < s.cfg.rawCap) :
    { s with raw := Memory.writeAll s.raw cells }.Inv :=
  ⟨h.legal, h.coherent, Memory.wf_writeAll _ _ h.rawWf, h.strWf, Memory.within_writeAll _ _ _ h.rawWithin hin, h.strWithin,
    h.kLe, h.errPosFits, h.errPosZero, h.encMode, h.decMode, h.closeK, h.decLen⟩

/-- EOPEN (R102): the number of pairs fits K_MAX because RAW_LEN fits `RAW_CAP`. -/
theorem State.Inv.openString (hp : s.phase = .encOpen) (c : Checksum) :
    { s with c := c, k := 0, phase := .encBody }.Inv := by
  obtain ⟨hb, hd, he, hcode⟩ := h.coherent.of_phase (by simp [hp])
  have hlen := h.coherent.lengths
  have hkt : s.rawLen / 2 ≤ s.cfg.kMax := by
    have := hlen.1
    unfold Config.rawCap at this
    omega
  exact ⟨h.legal, State.coherent_of_running hb (by simp) hd he hcode hlen fun _ => ⟨Nat.zero_le _, hkt⟩, h.rawWf, h.strWf,
    h.rawWithin, h.strWithin, Nat.zero_le _, h.errPosFits, h.errPosZero, fun _ => h.encMode (.inl hp), by simp, by simp,
    by simp⟩

/-- EPAIR (R103): one pair more, up to the number of pairs. -/
theorem State.Inv.nextPair (hp : s.phase = .encBody) (hk : s.k < s.rawLen / 2) (c : Checksum) :
    { s with c := c, k := s.k + 1 }.Inv := by
  obtain ⟨hb, hd, he, hcode⟩ := h.coherent.of_phase (by simp [hp])
  have hle := h.coherent.encBody_groups_le hp
  refine ⟨h.legal, State.coherent_of_running hb (by simp [hp]) hd he hcode h.coherent.lengths fun _ => ?_, h.rawWf, h.strWf,
    h.rawWithin, h.strWithin, Nat.le_trans hk hle, h.errPosFits, h.errPosZero, h.encMode, h.decMode, by simp [hp], by simp [hp]⟩
  simpa [State.kt, hp] using ⟨hk, hle⟩

/-- ETAILB, ETAILC (R104, R105). -/
theorem State.Inv.closeString (hp : s.phase = .encBody) (hk : s.k = s.rawLen / 2) : { s with phase := .encClose }.Inv := by
  obtain ⟨hb, hd, he, hcode⟩ := h.coherent.of_phase (by simp [hp])
  exact ⟨h.legal, State.coherent_of_running hb (by simp) hd he hcode h.coherent.lengths (by simp), h.rawWf, h.strWf,
    h.rawWithin, h.strWithin, h.kLe, h.errPosFits, h.errPosZero, fun _ => h.encMode (.inr (.inl hp)), by simp, fun _ => hk,
    by simp⟩

/-- The end of an operation without error (R107, R128), with the lengths it leaves. -/
theorem State.Inv.endOperation (hp : s.phase ≠ .idle) {rawLen strLen : Nat} (hraw : rawLen ≤ s.cfg.rawCap)
    (hstr : strLen ≤ s.cfg.strCap) : (endOperation { s with rawLen := rawLen, strLen := strLen }).Inv := by
  obtain ⟨-, -, he, hcode⟩ := h.coherent.of_phase hp
  exact ⟨h.legal, State.coherent_of_idle rfl rfl (by simp [he]) (by simp [he, hcode]) ⟨hraw, hstr⟩, h.rawWf, h.strWf,
    h.rawWithin, h.strWithin, h.kLe, h.errPosFits, h.errPosZero, by simp, by simp, by simp, by simp⟩

/-- DFRAME (R121): the number of groups fits K_MAX because STR_LEN fits `STR_CAP`. -/
theorem State.Inv.openDecode (hp : s.phase = .decFrame) (hl : s.strLen % 6 = 5) (c : Checksum) :
    { s with c := c, k := 0, phase := .decBody }.Inv := by
  obtain ⟨hb, hd, he, hcode⟩ := h.coherent.of_phase (by simp [hp])
  have hlen := h.coherent.lengths
  have hkt : (s.strLen - 5) / 6 ≤ s.cfg.kMax := by
    have := hlen.2
    unfold Config.strCap at this
    omega
  exact ⟨h.legal, State.coherent_of_running hb (by simp) hd he hcode hlen fun _ => ⟨Nat.zero_le _, hkt⟩, h.rawWf, h.strWf,
    h.rawWithin, h.strWithin, Nat.zero_le _, h.errPosFits, h.errPosZero, by simp, fun _ => h.decMode (.inl hp), by simp,
    fun _ => hl⟩

/-- DPAIR (R127). -/
theorem State.Inv.nextGroup (hp : s.phase = .decBody) (hk : s.k < (s.strLen - 5) / 6) (c : Checksum) :
    { s with c := c, k := s.k + 1 }.Inv := by
  obtain ⟨hb, hd, he, hcode⟩ := h.coherent.of_phase (by simp [hp])
  have hle := h.coherent.decBody_groups_le hp
  refine ⟨h.legal, State.coherent_of_running hb (by simp [hp]) hd he hcode h.coherent.lengths fun _ => ?_, h.rawWf, h.strWf,
    h.rawWithin, h.strWithin, Nat.le_trans hk hle, h.errPosFits, h.errPosZero, h.encMode, h.decMode, by simp [hp], h.decLen⟩
  simpa [State.kt, hp] using ⟨hk, hle⟩

/-- The error entry (R178), of a decode, at a position that ERR_POS holds. -/
theorem State.Inv.raiseError (hm : s.mode = .decode) (kind : ErrorKind) {pos : Nat} (hpos : pos < 2 ^ s.cfg.lenW) :
    (raiseError kind pos s).Inv := by
  have hcode : kind.errCode ≠ .noError := by cases kind <;> simp [ErrorKind.errCode]
  exact ⟨h.legal, State.coherent_of_idle rfl rfl (fun _ => ⟨rfl, hm⟩) (iff_of_true rfl hcode)
      ⟨Nat.zero_le _, h.coherent.lengths.2⟩, Memory.wf_forgetBelow _ _ h.rawWf, h.strWf,
    Memory.within_forgetBelow _ _ _ h.rawWithin, h.strWithin, h.kLe, hpos, by simp, by simp, by simp, by simp, by simp⟩

/-- The clearing of the error record (R153, R180). -/
theorem State.Inv.clearError : (clearError s).Inv := by
  obtain ⟨hphase, hdone, -, -, hlen, hk⟩ := h.coherent
  exact ⟨h.legal, ⟨hphase, hdone, by simp, by simp, hlen, hk⟩, h.rawWf, h.strWf, h.rawWithin, h.strWithin, h.kLe,
    Nat.two_pow_pos _, fun _ => rfl, h.encMode, h.decMode, h.closeK, h.decLen⟩

/-- An accepted command (R153, R154) enters the first phase of its mode. -/
theorem State.Inv.acceptCommand {mode : Mode} {phase : Phase}
    (hphase : (mode, phase) = (.encode, .encOpen) ∨ (mode, phase) = (.decode, .decFrame)) :
    (acceptCommand mode phase s).Inv := by
  have hlen := h.coherent.lengths
  rcases hphase with hphase | hphase <;> obtain ⟨rfl, rfl⟩ := Prod.mk.inj hphase <;>
    exact ⟨h.legal, State.coherent_of_running rfl (by simp) rfl rfl rfl hlen (by simp), h.rawWf, h.strWf,
      h.rawWithin, h.strWithin, h.kLe, Nat.two_pow_pos _, fun _ => rfl, by simp, by simp, by simp, by simp⟩

/-- A length register of an idle block (R157). -/
theorem State.Inv.setLengths (hb : s.busy = false) {rawLen strLen : Nat} (hraw : rawLen ≤ s.cfg.rawCap)
    (hstr : strLen ≤ s.cfg.strCap) : { s with rawLen := rawLen, strLen := strLen }.Inv := by
  have hp := h.coherent.phase_idle hb
  obtain ⟨herr, hcode⟩ := h.coherent.record
  exact ⟨h.legal, State.coherent_of_idle hb hp herr hcode ⟨hraw, hstr⟩, h.rawWf, h.strWf, h.rawWithin, h.strWithin, h.kLe,
    h.errPosFits, h.errPosZero, h.encMode, h.decMode, by simp [hp], by simp [hp]⟩

end

/-- Reset establishes the invariant on every block with a legal configuration (R32). -/
theorem State.inv_resetWith {cfg : Config} (h : cfg.Legal) : (State.resetWith cfg).Inv :=
  ⟨h, State.coherent_of_idle rfl rfl (by simp [State.resetWith]) (by simp [State.resetWith]) ⟨Nat.zero_le _, Nat.zero_le _⟩,
    rfl, rfl, rfl, rfl, Nat.zero_le _, Nat.two_pow_pos _, fun _ => rfl, by simp [State.resetWith], by simp [State.resetWith],
    by simp [State.resetWith], by simp [State.resetWith]⟩

/-- Settles O43: the hardware's configuration is legal. -/
theorem resetKeepsTheInvariant : Obligations.ResetKeepsTheInvariant := State.inv_resetWith (by decide)

theorem State.Inv.resetBlock {s : State} (h : s.Inv) : (resetBlock s).Inv :=
  (State.inv_resetWith h.legal).hostSide _ _ _ _ _

/-! ### The invariant along each meaning -/

section
variable {s t : State} (h : s.Inv)
include h

theorem execEopen_keeps_inv (ht : execEopen s = .next t) : t.Inv := by
  obtain ⟨hp, rfl⟩ := execEopen_next ht
  have hin : ∀ c ∈ [(0, delimiter)], c.1 < s.cfg.strCap := List.forall_mem_singleton.mpr (Nat.succ_pos _)
  exact (h.storeStr hin).openString hp _

theorem execEpair_keeps_inv (ht : execEpair s = .next t) : t.Inv := by
  obtain ⟨hp, hk, b0, b1, -, -, hin, rfl⟩ := execEpair_next ht
  exact (h.storeStr hin).nextPair hp hk _

theorem execEtailb_keeps_inv (ht : execEtailb s = .next t) : t.Inv := by
  obtain ⟨hp, hk, -, b0, -, hin, rfl⟩ := execEtailb_next ht
  exact (h.storeStr hin).closeString hp hk

theorem execEtailc_keeps_inv (ht : execEtailc s = .next t) : t.Inv := by
  obtain ⟨hp, hk, -, hin, rfl⟩ := execEtailc_next ht
  exact (h.storeStr hin).closeString hp hk

theorem execEclose_keeps_inv (ht : execEclose s = .next t) : t.Inv := by
  obtain ⟨hp, hin, rfl⟩ := execEclose_next ht
  exact (h.storeStr (List.forall_mem_singleton.mpr hin)).endOperation (by simp [hp]) h.coherent.lengths.1 hin

/-- An offset inside `STR` fits ERR_POS (R4, R30). -/
theorem State.Inv.offset_fits {pos : Nat} (hpos : pos ≤ s.cfg.strCap) : pos < 2 ^ s.cfg.lenW :=
  Nat.lt_of_le_of_lt hpos h.legal

theorem execDframe_keeps_inv (ht : execDframe s = .next t) : t.Inv := by
  obtain ⟨hp, hcase⟩ := execDframe_next ht
  rcases hcase with ⟨hl, -, -, rfl⟩ | ⟨f, rfl, hf⟩
  · exact h.openDecode hp hl _
  · have hpos : f.2 ≤ s.cfg.strCap := by
      rcases hf with ⟨-, rfl⟩ | ⟨-, -, hlt⟩
      · exact h.coherent.lengths.2
      · exact hlt.le
    obtain ⟨hb, hd, he, hcode⟩ := h.coherent.of_phase (by simp [hp])
    have hstart : { s with c := ckInit, k := 0 }.Inv :=
      ⟨h.legal, State.coherent_of_running hb (by simp [hp]) hd he hcode h.coherent.lengths (by simp [hp]), h.rawWf, h.strWf,
        h.rawWithin, h.strWithin, Nat.zero_le _, h.errPosFits, h.errPosZero, h.encMode, h.decMode, by simp [hp], h.decLen⟩
    exact hstart.raiseError (h.decMode (.inl hp)) _ (h.offset_fits hpos)

theorem execDpair_keeps_inv (ht : execDpair s = .next t) : t.Inv := by
  obtain ⟨hp, hk, ⟨b, -, hin, rfl⟩ | ⟨f, rfl, hf⟩⟩ := execDpair_next ht
  · have hcells : ∀ c ∈ [(2 * s.k, b.1), (2 * s.k + 1, b.2)], c.1 < s.cfg.rawCap :=
      List.forall_mem_cons.mpr ⟨Nat.lt_of_succ_lt hin, List.forall_mem_singleton.mpr hin⟩
    exact (h.storeRaw hcells).nextGroup hp hk _
  · exact h.raiseError (h.decMode (.inr hp)) _ (h.offset_fits (decodeGroup_raise hf).2.le)

theorem execDtail_keeps_inv (ht : execDtail s = .next t) : t.Inv := by
  obtain ⟨hp, hk, rfl | ⟨b, hin, rfl⟩ | ⟨f, rfl, -, hf⟩⟩ := execDtail_next ht
  · refine h.endOperation (by simp [hp]) ?_ h.coherent.lengths.2
    have := h.kLe
    unfold Config.rawCap
    omega
  · exact (h.storeRaw (List.forall_mem_singleton.mpr hin)).endOperation (by simp [hp]) hin h.coherent.lengths.2
  · exact h.raiseError (h.decMode (.inr hp)) _ (h.offset_fits hf.le)

theorem execCmdEncode_keeps_inv (ht : execCmdEncode s = .next t) : t.Inv := by
  rcases Bool.eq_false_or_eq_true s.busy with hb | hb
  · rw [execCmdEncode_busy hb] at ht
    cases ht
    exact h
  · rw [execCmdEncode_idle hb] at ht
    cases ht
    exact h.acceptCommand (.inl rfl)

theorem execCmdDecode_keeps_inv (ht : execCmdDecode s = .next t) : t.Inv := by
  rcases Bool.eq_false_or_eq_true s.busy with hb | hb
  · rw [execCmdDecode_busy hb] at ht
    cases ht
    exact h
  · rw [execCmdDecode_idle hb] at ht
    cases ht
    exact h.acceptCommand (.inr rfl)

theorem hostWriteRaw_keeps_inv {i : Nat} {v : Byte} (ht : hostWriteRaw i v s = .next t) : t.Inv := by
  obtain ⟨hi, rfl⟩ := hostWriteRaw_next ht
  split
  · exact h
  · exact h.storeRaw (cells := [(i, v)]) (List.forall_mem_singleton.mpr hi)

theorem hostWriteStr_keeps_inv {i : Nat} {v : Byte} (ht : hostWriteStr i v s = .next t) : t.Inv := by
  obtain ⟨hi, rfl⟩ := hostWriteStr_next ht
  split
  · exact h
  · exact h.storeStr (cells := [(i, v)]) (List.forall_mem_singleton.mpr hi)

theorem hostWriteReg_keeps_inv {r v : Nat} (ht : hostWriteReg r v s = .next t) : t.Inv := by
  obtain rfl | ⟨hb, w, ⟨hw, rfl⟩ | ⟨hw, rfl⟩⟩ := hostWriteReg_next ht
  · exact h
  · exact h.setLengths hb hw h.coherent.lengths.2
  · exact h.setLengths hb h.coherent.lengths.1 hw

theorem writeCtrl_keeps_inv {v : Nat} (ht : writeCtrl v s = .next t) : t.Inv := by
  obtain rfl | ⟨-, rfl | rfl⟩ := writeCtrl_next ht
  · exact h
  · exact h.acceptCommand (.inl rfl)
  · exact h.acceptCommand (.inr rfl)

theorem engineTurn_keeps_inv (ht : engineTurn s = .next t) : t.Inv := by
  obtain ⟨-, rfl⟩ | ⟨-, ht⟩ := engineTurn_next ht
  · exact h
  rcases ht with ht | ht | ht | ht | ht | ht | ht | ht
  · exact execEopen_keeps_inv h ht
  · exact execEpair_keeps_inv h ht
  · exact execEtailb_keeps_inv h ht
  · exact execEtailc_keeps_inv h ht
  · exact execEclose_keeps_inv h ht
  · exact execDframe_keeps_inv h ht
  · exact execDpair_keeps_inv h ht
  · exact execDtail_keeps_inv h ht

theorem read_keeps_inv {e : Input} (he : ∃ n, e = .readRaw n ∨ e = .readStr n ∨ e = .readReg n)
    (ht : perform e s = .next t) : t.Inv := by
  obtain ⟨-, w, rfl⟩ | ⟨v, rfl, -⟩ := perform_read_next he ht <;> exact h.hostSide _ _ _ _ _

theorem perform_keeps_inv {e : Input} (ht : perform e s = .next t) : t.Inv := by
  cases e with
  | engine => exact engineTurn_keeps_inv h ht
  | reset => cases ht; exact h.resetBlock
  | writeRaw i v => exact hostWriteRaw_keeps_inv h ht
  | readRaw i => exact read_keeps_inv h ⟨i, .inl rfl⟩ ht
  | writeStr i v => exact hostWriteStr_keeps_inv h ((writeStr_eq i v s).symm.trans ht)
  | readStr i => exact read_keeps_inv h ⟨i, .inr (.inl rfl)⟩ ht
  | writeReg r v =>
    by_cases hr : r = 0
    · exact writeCtrl_keeps_inv h ((if_pos hr).symm.trans ht)
    · exact hostWriteReg_keeps_inv h ((if_neg hr).symm.trans ht)
  | readReg r => exact read_keeps_inv h ⟨r, .inr (.inr rfl)⟩ ht

/-- A format's stores, where it is enabled. -/
theorem format_keeps_inv {p : Prop} [Decidable p] {cells : List Host.Cell}
    (ht : whenEnabled p (settle s (storeStr cells s)) = .next t) : t.Inv := by
  obtain ⟨-, ht⟩ := whenEnabled_next ht
  rcases settle_next ht with ht | ⟨f, ht, -⟩
  · obtain ⟨hin, rfl⟩ := storeStr_ok ht
    exact h.storeStr hin
  · obtain ⟨-, i, he⟩ := storeStr_error ht
    cases he

/-- An error code performed in a phase of a decode (log 16). -/
theorem errorCode_keeps_inv {p : Phase} {kind : ErrorKind} {pos : Nat} (hp : p = .decFrame ∨ p = .decBody)
    (hpos : pos < 2 ^ s.cfg.lenW) (ht : whenEnabled (s.phase = p) (.next (raiseError kind pos s)) = .next t) : t.Inv := by
  obtain ⟨hphase, ht⟩ := whenEnabled_next ht
  cases ht
  exact h.raiseError (h.decMode (hphase ▸ hp)) kind hpos

end

/-- Settles O44: by what a step can do. -/
theorem everyStepKeepsTheInvariant : Obligations.EveryStepKeepsTheInvariant := by
  intro s t h ht
  obtain ⟨-, -, ht⟩ | ⟨e, rest, -, -, ht⟩ := step_next ht
  · exact engineTurn_keeps_inv h ht
  · exact perform_keeps_inv (h.hostSide _ rest _ _ _) ht

/-- Settles O45: by the instruction; the 24 symbols are writes of a cell of `STR`. -/
theorem everyInstructionKeepsTheInvariant : Obligations.EveryInstructionKeepsTheInvariant := by
  intro i s t h hwf ht
  cases i
  case cmdNop | cmdRsvd => cases ht; exact h
  case cmdEncode => exact execCmdEncode_keeps_inv h ht
  case cmdDecode => exact execCmdDecode_keeps_inv h ht
  case eopen => exact execEopen_keeps_inv h ht
  case epair => exact execEpair_keeps_inv h ht
  case etailb => exact execEtailb_keeps_inv h ht
  case etailc => exact execEtailc_keeps_inv h ht
  case eclose => exact execEclose_keeps_inv h ht
  case dframe => exact execDframe_keeps_inv h ht
  case dpair => exact execDpair_keeps_inv h ht
  case dtail => exact execDtail_keeps_inv h ht
  case pair hi mid lo n1 n0 => exact format_keeps_inv h ht
  case byteTail hi mid lo => exact format_keeps_inv h ht
  case errNone => cases ht; exact h.clearError
  case invalidFraming pos => exact errorCode_keeps_inv h (.inl rfl) (of_decide_eq_true hwf) ht
  case invalidLength pos => exact errorCode_keeps_inv h (.inl rfl) (of_decide_eq_true hwf) ht
  case invalidCharacter pos => exact errorCode_keeps_inv h (.inr rfl) (of_decide_eq_true hwf) ht
  case checksumMismatch pos => exact errorCode_keeps_inv h (.inr rfl) (of_decide_eq_true hwf) ht
  all_goals exact hostWriteStr_keeps_inv h ht

/-! ### How a step can stop -/

/-- What may stop the pseudocode of a step operation: an error it raises, or a cell that holds no value (R52, U2). -/
def Stop.Allowed (e : Stop) : Prop :=
  match e with
  | .raise _ => True
  | .refuse r => ∃ b n, r = .cellHoldsNoValue b n
  | .fault _ => False

/-- Nothing else stops this part of a step operation. -/
def StopsAllowed {α : Type} (x : Except Stop α) : Prop := ∀ e, x = .error e → e.Allowed

/-- No fault, and no refusal but the spec's own: of a cell that holds no value (U2) and of an access that addresses nothing (U5). -/
def EndsAllowed (r : Result) : Prop :=
  (∀ f, r ≠ .fault f) ∧ ∀ x, r = .refused x →
    (∃ b n, x = .cellHoldsNoValue b n) ∨ (∃ b n, x = .noSuchCell b n) ∨ ∃ n, x = .noSuchRegister n

theorem stopsAllowed_ok {α : Type} (a : α) : StopsAllowed (.ok a : Except Stop α) := fun _ h => by cases h

theorem stopsAllowed_bind {α β : Type} {x : Except Stop α} {f : α → Except Stop β} (hx : StopsAllowed x)
    (hf : ∀ a, StopsAllowed (f a)) : StopsAllowed (x >>= f) := fun e h => by
  rcases bind_error h with h | ⟨a, -, h⟩
  · exact hx e h
  · exact hf a e h

theorem stopsAllowed_orRaise {α : Type} (r : Except Failure α) : StopsAllowed (orRaise r) := fun e h => by
  obtain ⟨f, -, rfl⟩ := orRaise_error.mp h
  trivial

theorem endsAllowed_next (t : State) : EndsAllowed (.next t) := ⟨nofun, nofun⟩

theorem endsAllowed_noSuchCell (b : Buffer) (n : Nat) : EndsAllowed (.refused (.noSuchCell b n)) :=
  ⟨nofun, fun _ h => .inr (.inl ⟨b, n, (Host.Outcome.refused.inj h).symm⟩)⟩

theorem endsAllowed_noSuchRegister (n : Nat) : EndsAllowed (.refused (.noSuchRegister n)) :=
  ⟨nofun, fun _ h => .inr (.inr ⟨n, (Host.Outcome.refused.inj h).symm⟩)⟩

theorem endsAllowed_settle {s : State} {x : Except Stop State} (h : StopsAllowed x) : EndsAllowed (settle s x) :=
  ⟨fun _ hf => h _ (settle_fault_inv hf), fun _ hr => .inl (h _ (settle_refused_inv hr))⟩

theorem endsAllowed_of_enabled {p : Prop} [Decidable p] {s : State} {x : Except Stop State} (hp : p) (h : StopsAllowed x) :
    EndsAllowed (whenEnabled p (settle s x)) := by
  rw [whenEnabled_pos hp]
  exact endsAllowed_settle h

section
variable {s : State} {p : Nat}

theorem readRaw_stopsAllowed (hp : p < s.cfg.rawCap) : StopsAllowed (readRaw p s) := fun e h => by
  obtain ⟨hle, -⟩ | ⟨-, -, rfl⟩ := readRaw_error h
  · exact absurd hp (Nat.not_lt.mpr hle)
  · exact ⟨_, _, rfl⟩

theorem readStr_stopsAllowed (hp : p < s.cfg.strCap) : StopsAllowed (readStr p s) := fun e h => by
  obtain ⟨hle, -⟩ | ⟨-, -, rfl⟩ := readStr_error h
  · exact absurd hp (Nat.not_lt.mpr hle)
  · exact ⟨_, _, rfl⟩

theorem lookupV_stopsAllowed (hp : p < s.cfg.strCap) : StopsAllowed (lookupV p s) :=
  stopsAllowed_bind (readStr_stopsAllowed hp) fun _ => stopsAllowed_orRaise _

theorem lookupD_stopsAllowed (hp : p < s.cfg.strCap) : StopsAllowed (lookupD p s) :=
  stopsAllowed_bind (readStr_stopsAllowed hp) fun _ => stopsAllowed_orRaise _

theorem lookupM_stopsAllowed (hp : p < s.cfg.strCap) : StopsAllowed (lookupM p s) :=
  stopsAllowed_bind (readStr_stopsAllowed hp) fun _ => stopsAllowed_orRaise _

theorem expectDelimiter_stopsAllowed (hp : p < s.cfg.strCap) : StopsAllowed (expectDelimiter p s) :=
  stopsAllowed_bind (readStr_stopsAllowed hp) fun ch e h => by
    split at h <;> cases h
    trivial

theorem storeStr_stopsAllowed {cells : List Host.Cell} (h : ∀ c ∈ cells, c.1 < s.cfg.strCap) :
    StopsAllowed (storeStr cells s) := storeStr_of_inside h ▸ stopsAllowed_ok _

theorem storeRaw_stopsAllowed {cells : List Host.Cell} (h : ∀ c ∈ cells, c.1 < s.cfg.rawCap) :
    StopsAllowed (storeRaw cells s) := storeRaw_of_inside h ▸ stopsAllowed_ok _

theorem decodeGroup_stopsAllowed (hk : s.k < s.cfg.kMax) : StopsAllowed (decodeGroup s) :=
  stopsAllowed_bind (lookupV_stopsAllowed (letterAt_inside hk (by decide))) fun _ =>
  stopsAllowed_bind (lookupD_stopsAllowed (letterAt_inside hk (by decide))) fun _ =>
  stopsAllowed_bind (lookupV_stopsAllowed (letterAt_inside hk (by decide))) fun _ =>
  stopsAllowed_bind (lookupD_stopsAllowed (letterAt_inside hk (by decide))) fun _ =>
  stopsAllowed_bind (lookupD_stopsAllowed (letterAt_inside hk (by decide))) fun _ =>
  stopsAllowed_bind (stopsAllowed_orRaise _) fun _ => stopsAllowed_ok _

end

section
variable {s : State} (hc : s.Coherent)
include hc

theorem execEpair_endsAllowed (hp : s.phase = .encBody) (hk : s.k < s.rawLen / 2) : EndsAllowed (execEpair s) := by
  have hkMax : s.k < s.cfg.kMax := Nat.lt_of_lt_of_le hk (hc.encBody_groups_le hp)
  have hin : 2 * s.k + 1 < s.cfg.rawCap := by unfold Config.rawCap; omega
  exact endsAllowed_of_enabled ⟨hp, hk⟩ (stopsAllowed_bind (readRaw_stopsAllowed (Nat.lt_of_succ_lt hin)) fun _ =>
    stopsAllowed_bind (readRaw_stopsAllowed hin) fun _ =>
    stopsAllowed_bind (storeStr_stopsAllowed (groupCells_inside hkMax _ _ _ _ _ _)) fun _ => stopsAllowed_ok _)

theorem execEtailb_endsAllowed (hp : s.phase = .encBody) (hk : s.k = s.rawLen / 2) (ho : s.rawLen % 2 = 1) :
    EndsAllowed (execEtailb s) := by
  have hkMax : s.k ≤ s.cfg.kMax := hk ▸ hc.encBody_groups_le hp
  have hin : 2 * s.k < s.cfg.rawCap := by unfold Config.rawCap; omega
  exact endsAllowed_of_enabled ⟨hp, hk, ho⟩ (stopsAllowed_bind (readRaw_stopsAllowed hin) fun _ =>
    stopsAllowed_bind (storeStr_stopsAllowed (tail_inside hkMax _ _ _)) fun _ => stopsAllowed_ok _)

theorem execDframe_endsAllowed (hp : s.phase = .decFrame) : EndsAllowed (execDframe s) := by
  by_cases hl : s.strLen % 6 = 5
  · obtain ⟨hin0, hin1⟩ := hc.frame_inside hl
    rw [execDframe_of_length hp hl]
    exact endsAllowed_settle (stopsAllowed_bind (expectDelimiter_stopsAllowed hin0) fun _ =>
      stopsAllowed_bind (expectDelimiter_stopsAllowed hin1) fun _ => stopsAllowed_ok _)
  · rw [execDframe_of_wrong_length hp hl]
    exact endsAllowed_next _

theorem execDpair_endsAllowed (hp : s.phase = .decBody) (hk : s.k < (s.strLen - 5) / 6) : EndsAllowed (execDpair s) := by
  have hkMax : s.k < s.cfg.kMax := Nat.lt_of_lt_of_le hk (hc.decBody_groups_le hp)
  have hin : 2 * s.k + 1 < s.cfg.rawCap := by unfold Config.rawCap; omega
  exact endsAllowed_of_enabled ⟨hp, hk⟩ (stopsAllowed_bind (decodeGroup_stopsAllowed hkMax) fun _ =>
    stopsAllowed_bind (storeRaw_stopsAllowed (List.forall_mem_cons.mpr
      ⟨Nat.lt_of_succ_lt hin, List.forall_mem_singleton.mpr hin⟩)) fun _ => stopsAllowed_ok _)

theorem execDtail_endsAllowed (hp : s.phase = .decBody) (hk : s.k = (s.strLen - 5) / 6) : EndsAllowed (execDtail s) := by
  have hkMax : s.k ≤ s.cfg.kMax := hk ▸ hc.decBody_groups_le hp
  have hin : 2 * s.k < s.cfg.rawCap := by unfold Config.rawCap; omega
  have hend : ∀ last, StopsAllowed (tailEnd s last) := fun last => by
    cases last with
    | none => exact stopsAllowed_ok _
    | some b0 =>
      exact stopsAllowed_bind (storeRaw_stopsAllowed (List.forall_mem_singleton.mpr hin)) fun _ => stopsAllowed_ok _
  exact endsAllowed_of_enabled ⟨hp, hk⟩ (stopsAllowed_bind (lookupV_stopsAllowed (tail_offset_inside hkMax (by omega))) fun _ =>
    stopsAllowed_bind (lookupM_stopsAllowed (tail_offset_inside hkMax (by omega))) fun _ =>
    stopsAllowed_bind (lookupV_stopsAllowed (tail_offset_inside hkMax (by omega))) fun _ =>
    stopsAllowed_bind (stopsAllowed_orRaise _) hend)

end

/-- An enabled step operation of a state that keeps the invariant. -/
theorem exec_endsAllowed_of_enabled {s : State} {i : Instr} (h : s.Inv) (hi : StepEnabled i s) : EndsAllowed (exec i s) := by
  have hc := h.coherent
  rcases hi with ⟨rfl, hp⟩ | ⟨rfl, hp, hk⟩ | ⟨rfl, hp, hk, ho⟩ | ⟨rfl, hp, hk, ho⟩ | ⟨rfl, hp⟩ | ⟨rfl, hp⟩ | ⟨rfl, hp, hk⟩ |
    ⟨rfl, hp, hk⟩
  · change EndsAllowed (execEopen s)
    exact execEopen_of_enabled hp ▸ endsAllowed_next _
  · exact execEpair_endsAllowed hc hp hk
  · exact execEtailb_endsAllowed hc hp hk ho
  · change EndsAllowed (execEtailc s)
    exact execEtailc_of_enabled hc hp hk ho ▸ endsAllowed_next _
  · change EndsAllowed (execEclose s)
    exact execEclose_of_enabled h.kLe hp ▸ endsAllowed_next _
  · exact execDframe_endsAllowed hc hp
  · exact execDpair_endsAllowed hc hp hk
  · exact execDtail_endsAllowed hc hp hk

theorem engineTurn_endsAllowed {s : State} (h : s.Inv) : EndsAllowed (engineTurn s) := by
  rcases Bool.eq_false_or_eq_true s.busy with hb | hb
  · obtain ⟨i, hdecode, henabled⟩ := busyStateSelectsTheOneEnabledStep s h.coherent hb
    rw [engineTurn_of_decode hb hdecode]
    exact exec_endsAllowed_of_enabled h ((henabled i).mpr rfl)
  · exact engineTurn_idle hb ▸ endsAllowed_next s

/-! A host operation stops only where it addresses nothing (R53). -/

theorem hostWriteRaw_endsAllowed (i : Nat) (v : Byte) (s : State) : EndsAllowed (hostWriteRaw i v s) := by
  unfold hostWriteRaw
  split_ifs
  exacts [endsAllowed_noSuchCell _ _, endsAllowed_next _, endsAllowed_next _]

theorem hostWriteStr_endsAllowed (i : Nat) (v : Byte) (s : State) : EndsAllowed (hostWriteStr i v s) := by
  unfold hostWriteStr
  split_ifs
  exacts [endsAllowed_noSuchCell _ _, endsAllowed_next _, endsAllowed_next _]

theorem hostReadRaw_endsAllowed (i : Nat) (s : State) : EndsAllowed (hostReadRaw i s) := by
  unfold hostReadRaw
  split_ifs
  exacts [endsAllowed_noSuchCell _ _, endsAllowed_next _]

theorem hostReadStr_endsAllowed (i : Nat) (s : State) : EndsAllowed (hostReadStr i s) := by
  unfold hostReadStr
  split_ifs
  exacts [endsAllowed_noSuchCell _ _, endsAllowed_next _]

theorem hostReadReg_endsAllowed (r : Nat) (s : State) : EndsAllowed (hostReadReg r s) := by
  unfold hostReadReg
  split_ifs
  exacts [endsAllowed_noSuchRegister _, endsAllowed_next _, endsAllowed_next _]

theorem writeReg_endsAllowed (r v : Nat) (s : State) : EndsAllowed (writeReg r v s) := by
  rcases Nat.lt_or_ge 6 r with hr | hr
  · exact writeReg_outside v s hr ▸ endsAllowed_noSuchRegister r
  rcases Bool.eq_false_or_eq_true s.busy with hb | hb
  · exact writeReg_busy v hr hb ▸ endsAllowed_next s
  by_cases h0 : r = 0
  · rw [writeReg, if_pos h0, writeCtrl_eq, execCmdEncode_idle hb, execCmdDecode_idle hb]
    split_ifs <;> exact endsAllowed_next _
  · rw [writeReg, if_neg h0, hostWriteReg_idle hr hb]
    split_ifs <;> exact endsAllowed_next _

theorem perform_endsAllowed {s : State} (h : s.Inv) (e : Input) : EndsAllowed (perform e s) :=
  match e with
  | .engine => engineTurn_endsAllowed h
  | .reset => endsAllowed_next _
  | .writeRaw i v => hostWriteRaw_endsAllowed i v s
  | .readRaw i => hostReadRaw_endsAllowed i s
  | .writeStr i v => (congrArg EndsAllowed (writeStr_eq i v s)).mpr (hostWriteStr_endsAllowed i v s)
  | .readStr i => hostReadStr_endsAllowed i s
  | .writeReg r v => writeReg_endsAllowed r v s
  | .readReg r => hostReadReg_endsAllowed r s

/-- Settles O46: the engine's turn is an enabled step operation, and a host operation stops only where it addresses nothing. -/
theorem engineStaysInsideTheBuffers : Obligations.EngineStaysInsideTheBuffers := by
  intro s h
  change EndsAllowed (step s)
  cases hi : s.inputs with
  | nil => exact step_of_nil h.coherent hi ▸ engineTurn_endsAllowed h
  | cons e rest => exact step_of_cons h.coherent hi ▸ perform_endsAllowed (h.hostSide _ rest _ _ _) e

end Sys2Proof.Machine
end

section
/-! The two functions on sequences (41_encoder.md R101, R109; 42_decoder.md R130 to R136): where the characters of an encoded string
stand, that decoding inverts encoding, what an accepted string is, and what one changed character does. -/

namespace Sys2Proof.Machine

/-! ### Pair groups -/

/-- Letter `j` of the pair group of two bytes under a checksum (R64). -/
def groupLetter (c : Checksum) (b0 b1 : Byte) (j : Nat) : Byte :=
  match j with
  | 0 => vowel (highIndex c (hiField b0))
  | 1 => dataCons (midField b0)
  | 2 => vowel (lowIndex c (loField b0))
  | 3 => dataCons (upperNibble b1)
  | _ => dataCons (lowerNibble b1)

@[simp] theorem length_pairGroup (cfg : Config) (c : Checksum) (b0 b1 : Byte) : (pairGroup cfg c b0 b1).length = 6 := by
  rcases hyphenSlot_offset_cases cfg.hyphenSlot with h | h | h <;> simp [pairGroup, h]

theorem pairGroup_letter (cfg : Config) (c : Checksum) (b0 b1 : Byte) {j : Nat} (hj : j ≤ 4) :
    (pairGroup cfg c b0 b1)[letterOffset cfg j]? = some (groupLetter c b0 b1 j) := by
  rcases hyphenSlot_offset_cases cfg.hyphenSlot with h | h | h <;>
    rcases (by omega : j = 0 ∨ j = 1 ∨ j = 2 ∨ j = 3 ∨ j = 4) with rfl | rfl | rfl | rfl | rfl <;>
    simp [pairGroup, letterOffset, groupLetter, h]

theorem pairGroup_hyphen (cfg : Config) (c : Checksum) (b0 b1 : Byte) :
    (pairGroup cfg c b0 b1)[cfg.hyphenSlot.offset]? = some hyphen := by
  rcases hyphenSlot_offset_cases cfg.hyphenSlot with h | h | h <;> simp [pairGroup, h]

/-- Every offset of a group but the hyphen's is that of a letter (R66). -/
theorem exists_letterOffset (cfg : Config) {q : Nat} (hq : q < 6) (hne : q ≠ cfg.hyphenSlot.offset) :
    ∃ j ≤ 4, q = letterOffset cfg j := by
  rcases Nat.lt_or_gt_of_ne hne with h | h
  · have := hyphenSlot_offset_cases cfg.hyphenSlot
    exact ⟨q, by omega, (if_pos h).symm⟩
  · exact ⟨q - 1, by omega, by rw [letterOffset, if_neg (by omega)]; omega⟩

theorem letterOffset_lt (cfg : Config) {j : Nat} (hj : j ≤ 4) : letterOffset cfg j < 6 := (letterOffset_bounds cfg hj).1

/-! ### The parts of an encoded string -/

@[simp] theorem encFrom_pair (cfg : Config) (c : Checksum) (b0 b1 : Byte) (rest : List Byte) :
    encFrom cfg c (b0 :: b1 :: rest) = pairGroup cfg c b0 b1 ++ encFrom cfg (ckUpd c b0 b1) rest := rfl

@[simp] theorem checksumFrom_pair (c : Checksum) (b0 b1 : Byte) (rest : List Byte) :
    checksumFrom c (b0 :: b1 :: rest) = checksumFrom (ckUpd c b0 b1) rest := rfl

theorem length_encFrom (cfg : Config) (c : Checksum) (bytes : List Byte) :
    (encFrom cfg c bytes).length = 6 * (bytes.length / 2) + 3 := by
  induction c, bytes using encFrom.induct with
  | case1 c b0 b1 rest ih =>
    rw [encFrom_pair, List.length_append, length_pairGroup, ih]
    simp only [List.length_cons]
    omega
  | case2 c b0 => simp [encFrom, byteTail]
  | case3 c => simp [encFrom, checksumTail]

theorem length_enc (cfg : Config) (bytes : List Byte) : (enc cfg bytes).length = 6 * (bytes.length / 2) + 5 := by
  simp [enc, length_encFrom]

/-- A sequence of at least two bytes more begins with a pair. -/
theorem exists_pair_of_length {bytes : List Byte} (h : 2 ≤ bytes.length) : ∃ b0 b1 rest, bytes = b0 :: b1 :: rest :=
  match bytes, h with
  | b0 :: b1 :: rest, _ => ⟨b0, b1, rest, rfl⟩

/-- From pair group `g` on, an encoding is that of the bytes from `2g` on under the checksum of those before (R95, R101). -/
theorem drop_encFrom (cfg : Config) (c : Checksum) (bytes : List Byte) {g : Nat} (hg : g ≤ bytes.length / 2) :
    (encFrom cfg c bytes).drop (6 * g) = encFrom cfg (checksumFrom c (bytes.take (2 * g))) (bytes.drop (2 * g)) := by
  induction g generalizing c bytes with
  | zero => simp [checksumFrom]
  | succ g ih =>
    obtain ⟨b0, b1, rest, rfl⟩ := exists_pair_of_length (bytes := bytes) (by omega)
    have hsix : 6 * (g + 1) = (pairGroup cfg c b0 b1).length + 6 * g := by rw [length_pairGroup]; omega
    have htwo : 2 * (g + 1) = 2 * g + 1 + 1 := by omega
    rw [encFrom_pair, hsix, List.drop_length_add_append, htwo, List.take_succ_cons, List.take_succ_cons, checksumFrom_pair,
      List.drop_succ_cons, List.drop_succ_cons]
    exact ih _ rest (by simp only [List.length_cons] at hg; omega)

theorem getElem?_enc_succ (cfg : Config) (bytes : List Byte) (a : Nat) :
    (enc cfg bytes)[a + 1]? = (encFrom cfg ckInit bytes ++ [delimiter])[a]? := by
  simp [enc]

/-- The characters of the part from group `g` on, in the whole string. -/
theorem getElem?_enc_groupStart (cfg : Config) (bytes : List Byte) {g r : Nat} (hg : g ≤ bytes.length / 2)
    (hr : r < 6 * (bytes.length / 2 - g) + 3) :
    (enc cfg bytes)[groupStart g + r]? = (encFrom cfg (checksumAt bytes g) (bytes.drop (2 * g)))[r]? := by
  have hlt : 6 * g + r < (encFrom cfg ckInit bytes).length := by rw [length_encFrom]; omega
  have hoff : groupStart g + r = 6 * g + r + 1 := by unfold groupStart; omega
  rw [hoff, getElem?_enc_succ, List.getElem?_append_left hlt, ← List.getElem?_drop, drop_encFrom _ _ _ hg]
  rfl

/-- Pair group `g` of an encoded string is that of bytes `2g` and `2g + 1` under the checksum of the pairs before. -/
theorem exists_group_of_enc (cfg : Config) (bytes : List Byte) {g : Nat} (hg : g < bytes.length / 2) :
    ∃ b0 b1 rest, bytes.drop (2 * g) = b0 :: b1 :: rest ∧
      ∀ r, r < 6 → (enc cfg bytes)[groupStart g + r]? = (pairGroup cfg (checksumAt bytes g) b0 b1)[r]? := by
  obtain ⟨b0, b1, rest, hdrop⟩ := exists_pair_of_length (bytes := bytes.drop (2 * g)) (by rw [List.length_drop]; omega)
  refine ⟨b0, b1, rest, hdrop, fun r hr => ?_⟩
  rw [getElem?_enc_groupStart cfg bytes hg.le (by omega), hdrop, encFrom_pair,
    List.getElem?_append_left (by rw [length_pairGroup]; exact hr)]

/-- The tail of an encoded string: a byte tail for an odd number of bytes, a checksum tail for an even one (R106). -/
theorem tail_of_enc (cfg : Config) (bytes : List Byte) :
    let kt := bytes.length / 2
    (bytes.length % 2 = 1 ∧ ∃ b0, bytes.drop (2 * kt) = [b0] ∧
        ∀ r, r < 3 → (enc cfg bytes)[groupStart kt + r]? = (byteTail (checksumAt bytes kt) b0)[r]?) ∨
      (bytes.length % 2 = 0 ∧ bytes.drop (2 * kt) = [] ∧
        ∀ r, r < 3 → (enc cfg bytes)[groupStart kt + r]? = (checksumTail (checksumAt bytes kt))[r]?) := by
  intro kt
  have hget : ∀ r, r < 3 → (enc cfg bytes)[groupStart kt + r]? =
      (encFrom cfg (checksumAt bytes kt) (bytes.drop (2 * kt)))[r]? := fun r hr =>
    getElem?_enc_groupStart cfg bytes le_rfl (by omega)
  rcases Nat.mod_two_eq_zero_or_one bytes.length with he | ho
  · have hnil : bytes.drop (2 * kt) = [] := List.drop_eq_nil_of_le (by omega)
    exact .inr ⟨he, hnil, fun r hr => by rw [hget r hr, hnil]; rfl⟩
  · obtain ⟨b0, hb0⟩ := List.length_eq_one_iff.mp (by rw [List.length_drop]; omega : (bytes.drop (2 * kt)).length = 1)
    exact .inl ⟨ho, b0, hb0, fun r hr => by rw [hget r hr, hb0]; rfl⟩

theorem enc_first (cfg : Config) (bytes : List Byte) : (enc cfg bytes)[0]? = some delimiter := rfl

theorem enc_last (cfg : Config) (bytes : List Byte) : (enc cfg bytes)[6 * (bytes.length / 2) + 4]? = some delimiter := by
  rw [getElem?_enc_succ, ← length_encFrom cfg ckInit bytes, List.getElem?_concat_length]

/-! ### Offsets and slot classes -/

/-- Every offset of a string of `kt` groups is an end, a letter, a hyphen or in the tail (R62). -/
theorem offset_cases (cfg : Config) {kt a : Nat} (ha : a < 6 * kt + 5) :
    a = 0 ∨ a = 6 * kt + 4 ∨ (∃ g < kt, ∃ j ≤ 4, a = letterAt cfg g j) ∨ (∃ g < kt, a = hyphenAt cfg g) ∨
      ∃ r < 3, a = groupStart kt + r := by
  by_cases h0 : a = 0
  · exact .inl h0
  by_cases hlast : a = 6 * kt + 4
  · exact .inr (.inl hlast)
  have hsplit : a = groupStart ((a - 1) / 6) + (a - 1) % 6 := by unfold groupStart; omega
  by_cases htail : a < groupStart kt
  · have hg : (a - 1) / 6 < kt := by unfold groupStart at htail; omega
    by_cases hh : (a - 1) % 6 = cfg.hyphenSlot.offset
    · exact .inr (.inr (.inr (.inl ⟨_, hg, by rw [hyphenAt, ← hh]; exact hsplit⟩)))
    · obtain ⟨j, hj, hoff⟩ := exists_letterOffset cfg (Nat.mod_lt (a - 1) (by decide)) hh
      exact .inr (.inr (.inl ⟨_, hg, j, hj, by rw [letterAt, ← hoff]; exact hsplit⟩))
  · exact .inr (.inr (.inr (.inr ⟨a - groupStart kt, by unfold groupStart at htail ⊢; omega, by omega⟩)))

theorem slotClass_first (cfg : Config) (len : Nat) : slotClass cfg len 0 = .x := by simp [slotClass]

section
variable {cfg : Config} {len kt : Nat} (hlen : len = 6 * kt + 5)
include hlen

theorem groups_of_length : (len - 5) / 6 = kt := by omega

theorem slotClass_last : slotClass cfg len (6 * kt + 4) = .x := by simp [slotClass, hlen]

theorem slotClass_tail {r : Nat} (hr : r < 3) : slotClass cfg len (groupStart kt + r) = if r = 1 then .m else .v := by
  have hends : ¬ (groupStart kt + r = 0 ∨ groupStart kt + r = len - 1) := by unfold groupStart; omega
  simp only [slotClass, groups_of_length hlen, if_neg hends, if_pos (Nat.le_add_right _ _), Nat.add_left_cancel_iff]

/-- Inside the groups the class goes by the offset in the group. -/
theorem slotClass_group {g q : Nat} (hg : g < kt) (hq : q < 6) :
    slotClass cfg len (groupStart g + q) =
      if q = cfg.hyphenSlot.offset then .h else if q = letterOffset cfg 0 ∨ q = letterOffset cfg 2 then .v else .d := by
  have hends : ¬ (groupStart g + q = 0 ∨ groupStart g + q = len - 1) := by unfold groupStart; omega
  have htail : ¬ groupStart kt ≤ groupStart g + q := by unfold groupStart; omega
  have hmod : (groupStart g + q - 1) % 6 = q := by unfold groupStart; omega
  simp only [slotClass, groups_of_length hlen, if_neg hends, if_neg htail, hmod]

theorem slotClass_letter {g j : Nat} (hg : g < kt) (hj : j ≤ 4) :
    slotClass cfg len (letterAt cfg g j) = if j = 0 ∨ j = 2 then .v else .d := by
  obtain ⟨hlt, hne⟩ := letterOffset_bounds cfg hj
  have hinj : ∀ i, letterOffset cfg j = letterOffset cfg i ↔ j = i := fun i =>
    ⟨letterOffset_inj cfg, fun h => h ▸ rfl⟩
  rw [letterAt, slotClass_group hlen hg hlt, if_neg hne]
  simp only [hinj]

theorem slotClass_hyphen {g : Nat} (hg : g < kt) : slotClass cfg len (hyphenAt cfg g) = .h := by
  have hq : cfg.hyphenSlot.offset < 6 := by have := hyphenSlot_offset_cases cfg.hyphenSlot; omega
  rw [hyphenAt, slotClass_group hlen hg hq, if_pos rfl]

end

theorem isHyphenSlot_hyphenAt (cfg : Config) {len kt g : Nat} (hlen : len = 6 * kt + 5) (hg : g < kt) :
    IsHyphenSlot cfg len (hyphenAt cfg g) := ⟨g, by rwa [groups_of_length hlen], rfl⟩

/-- Away from the hyphen slots (R63): the classes of an offset. -/
theorem slotClass_ne_h {cfg : Config} {len kt a : Nat} (hlen : len = 6 * kt + 5) (ha : a < len)
    (h : ¬ IsHyphenSlot cfg len a) : slotClass cfg len a ≠ .h := by
  rcases offset_cases cfg (hlen ▸ ha) with rfl | rfl | ⟨g, hg, j, hj, rfl⟩ | ⟨g, hg, rfl⟩ | ⟨r, hr, rfl⟩
  · simp [slotClass_first]
  · simp [slotClass_last hlen]
  · rw [slotClass_letter hlen hg hj]
    split <;> simp
  · exact absurd (isHyphenSlot_hyphenAt cfg hlen hg) h
  · rw [slotClass_tail hlen hr]
    split <;> simp

/-! ### What the encoder writes -/

theorem midx_dataCons (i : BitVec 4) : (midx (dataCons i)).isSome := by
  rw [dataCons, midx_cons]
  rfl

/-- A letter of a group is of its slot's class. -/
theorem slotWrites_groupLetter (c : Checksum) (b0 b1 : Byte) (j : Nat) :
    slotWrites (if j = 0 ∨ j = 2 then .v else .d) (groupLetter c b0 b1 j) := by
  match j with
  | 0 => simp [slotWrites, groupLetter, vidx_vowel]
  | 1 => simp [slotWrites, groupLetter, didx_dataCons]
  | 2 => simp [slotWrites, groupLetter, vidx_vowel]
  | 3 => simp [slotWrites, groupLetter, didx_dataCons]
  | j + 4 => simp [slotWrites, groupLetter, didx_dataCons]

/-- A letter of a byte tail or of a checksum tail is of its slot's class. -/
theorem slotWrites_byteTail {c : Checksum} {b0 ch : Byte} {r : Nat} (h : (byteTail c b0)[r]? = some ch) :
    slotWrites (if r = 1 then .m else .v) ch := by
  match r with
  | 0 => cases h; simp [slotWrites, vidx_vowel]
  | 1 => cases h; simp [slotWrites, midx_dataCons]
  | 2 => cases h; simp [slotWrites, vidx_vowel]
  | r + 3 => cases h

theorem slotWrites_checksumTail {c : Checksum} {ch : Byte} {r : Nat} (h : (checksumTail c)[r]? = some ch) :
    slotWrites (if r = 1 then .m else .v) ch := by
  match r with
  | 0 => cases h; simp [slotWrites, vidx_vowel]
  | 1 => cases h; simp [slotWrites, midx_cons]
  | 2 => cases h; simp [slotWrites, vidx_vowel]
  | r + 3 => cases h

/-- R63: every character the encoder writes is of its slot's class. -/
theorem slotWrites_enc {cfg : Config} {bytes : List Byte} {a : Nat} {ch : Byte} (h : (enc cfg bytes)[a]? = some ch) :
    slotWrites (slotClass cfg (enc cfg bytes).length a) ch := by
  have hlen := length_enc cfg bytes
  obtain ⟨ha, -⟩ := List.getElem?_eq_some_iff.mp h
  rcases offset_cases cfg (hlen ▸ ha) with rfl | rfl | ⟨g, hg, j, hj, rfl⟩ | ⟨g, hg, rfl⟩ | ⟨r, hr, rfl⟩
  · rw [enc_first] at h
    rw [slotClass_first]
    exact (Option.some.inj h).symm
  · rw [enc_last] at h
    rw [slotClass_last hlen]
    exact (Option.some.inj h).symm
  · obtain ⟨b0, b1, rest, -, hgroup⟩ := exists_group_of_enc cfg bytes hg
    rw [letterAt, hgroup _ (letterOffset_lt cfg hj), pairGroup_letter cfg _ _ _ hj] at h
    rw [slotClass_letter hlen hg hj, ← Option.some.inj h]
    exact slotWrites_groupLetter _ _ _ _
  · obtain ⟨b0, b1, rest, -, hgroup⟩ := exists_group_of_enc cfg bytes hg
    have hq : cfg.hyphenSlot.offset < 6 := by have := hyphenSlot_offset_cases cfg.hyphenSlot; omega
    rw [hyphenAt, hgroup _ hq, pairGroup_hyphen] at h
    rw [slotClass_hyphen hlen hg]
    exact (Option.some.inj h).symm
  · rw [slotClass_tail hlen hr]
    rcases tail_of_enc cfg bytes with ⟨-, b0, -, htail⟩ | ⟨-, -, htail⟩
    · exact slotWrites_byteTail ((htail r hr).symm.trans h)
    · exact slotWrites_checksumTail ((htail r hr).symm.trans h)

/-- R62, R63: only class H takes the hyphen, only X and M the delimiter, and every class takes symbols of the alphabet only. -/
theorem slotWrites_facts {cls : SlotClass} {ch : Byte} (h : slotWrites cls ch) :
    (ch = hyphen → cls = .h) ∧ (ch = delimiter → cls = .x ∨ cls = .m) ∧
      ((∃ i, ch = vowel i) ∨ (∃ i, ch = cons i) ∨ ch = hyphen) := by
  have hx : delimiter = cons 16 := rfl
  cases cls with
  | v =>
    obtain ⟨i, hi⟩ := Option.isSome_iff_exists.mp h
    obtain rfl := vowel_of_vidx hi
    exact ⟨fun he => absurd he (vowel_ne_hyphen i), fun he => absurd (he.trans hx) (vowel_ne_cons i 16), .inl ⟨i, rfl⟩⟩
  | d =>
    obtain ⟨i, hi⟩ := Option.isSome_iff_exists.mp h
    obtain rfl := dataCons_of_didx hi
    refine ⟨fun he => absurd he (cons_ne_hyphen _), fun he => ?_, .inr (.inl ⟨_, rfl⟩)⟩
    rw [he, didx_delimiter] at hi
    cases hi
  | m =>
    obtain ⟨i, hi⟩ := Option.isSome_iff_exists.mp h
    obtain rfl := cons_of_midx hi
    exact ⟨fun he => absurd he (cons_ne_hyphen i), fun _ => .inr rfl, .inr (.inl ⟨i, rfl⟩)⟩
  | h => exact ⟨fun _ => rfl, fun he => absurd (h.symm.trans he) (by decide), .inr (.inr h)⟩
  | x => exact ⟨fun he => absurd (h.symm.trans he) (by decide), fun _ => .inl rfl, .inr (.inl ⟨16, h⟩)⟩

/-- The delimiter stands in the middle of a checksum tail and not in that of a byte tail. -/
theorem enc_middle_eq_delimiter_iff (cfg : Config) (bytes : List Byte) :
    (enc cfg bytes)[groupStart (bytes.length / 2) + 1]? = some delimiter ↔ bytes.length % 2 = 0 := by
  rcases tail_of_enc cfg bytes with ⟨ho, b0, -, htail⟩ | ⟨he, -, htail⟩
  · rw [htail 1 (by decide)]
    refine iff_of_false (fun h => ?_) (by omega)
    have hd := didx_dataCons (midField b0)
    rw [show dataCons (midField b0) = delimiter from Option.some.inj h, didx_delimiter] at hd
    cases hd
  · rw [htail 1 (by decide)]
    exact iff_of_true rfl he

/-- Settles O54: hyphens and delimiters by the classes of their slots, the middle of the tail by the parity. -/
theorem encodedStringsAreFramed : Obligations.EncodedStringsAreFramed := by
  intro cfg bytes
  have hlen := length_enc cfg bytes
  have hlast : (enc cfg bytes).getLast? = some delimiter := by
    rw [List.getLast?_eq_getElem?, hlen]
    exact enc_last cfg bytes
  refine ⟨hlen, rfl, hlast, fun a => ⟨fun h => ?_, ?_⟩, fun a => ⟨fun h => ?_, ?_⟩, fun ch hch => ?_⟩
  · obtain ⟨ha, -⟩ := List.getElem?_eq_some_iff.mp h
    by_contra hslot
    exact slotClass_ne_h hlen ha hslot ((slotWrites_facts (slotWrites_enc h)).1 rfl)
  · rintro ⟨g, hg, rfl⟩
    rw [groups_of_length hlen] at hg
    obtain ⟨b0, b1, rest, -, hgroup⟩ := exists_group_of_enc cfg bytes hg
    have hq : cfg.hyphenSlot.offset < 6 := by have := hyphenSlot_offset_cases cfg.hyphenSlot; omega
    rw [hyphenAt, hgroup _ hq, pairGroup_hyphen]
    rfl
  · obtain ⟨ha, -⟩ := List.getElem?_eq_some_iff.mp h
    have hcls := (slotWrites_facts (slotWrites_enc h)).2.1 rfl
    rcases offset_cases cfg (hlen ▸ ha) with rfl | rfl | ⟨g, hg, j, hj, rfl⟩ | ⟨g, hg, rfl⟩ | ⟨r, hr, rfl⟩
    · exact .inl rfl
    · exact .inr (.inl rfl)
    · rw [slotClass_letter hlen hg hj] at hcls
      split at hcls <;> simp at hcls
    · rw [slotClass_hyphen hlen hg] at hcls
      simp at hcls
    · rw [slotClass_tail hlen hr] at hcls
      obtain rfl : r = 1 := by
        by_contra hr1
        simp [hr1] at hcls
      exact .inr (.inr ⟨(enc_middle_eq_delimiter_iff cfg bytes).mp h, by unfold groupStart; omega⟩)
  · rintro (rfl | rfl | ⟨he, rfl⟩)
    · exact enc_first cfg bytes
    · exact enc_last cfg bytes
    · rw [show 6 * (bytes.length / 2) + 2 = groupStart (bytes.length / 2) + 1 by unfold groupStart; omega]
      exact (enc_middle_eq_delimiter_iff cfg bytes).mpr he
  · obtain ⟨a, ha⟩ := List.mem_iff_getElem?.mp hch
    exact (slotWrites_facts (slotWrites_enc ha)).2.2

end Sys2Proof.Machine
end

section
/-! `dec` against `enc` (42_decoder.md R130 to R136): one group, one tail, the whole string. -/

namespace Sys2Proof.Machine

/-! ### One pair group -/

/-- R70: the vowels of two fields in range are those that the fields become again. -/
theorem highIndex_rawHigh {c : Checksum} {i : Fin 6} (h : rawHigh c i < 4) :
    highIndex c (BitVec.ofNat 2 (rawHigh c i)) = i := by
  have hi := i.isLt
  rw [rawHigh_eq] at h ⊢
  apply Fin.ext
  simp only [highIndex, BitVec.toNat_ofNat, Nat.mod_eq_of_lt (show _ < 2 ^ 2 from h)]
  omega

theorem lowIndex_rawLow {c : Checksum} {i : Fin 6} (h : rawLow c i < 4) :
    lowIndex c (BitVec.ofNat 2 (rawLow c i)) = i := by
  have hi := i.isLt
  have hc := c.isLt
  rw [rawLow_eq] at h ⊢
  apply Fin.ext
  simp only [lowIndex, ckOffLo, BitVec.toNat_ofNat, Nat.mod_eq_of_lt (show _ < 2 ^ 2 from h)]
  omega

/-- R127: five letters of their classes leave the field pass. -/
theorem decPair_of_letters {cfg : Config} {c : Checksum} {p : Nat} {chars : List Byte} {i0 i2 : Fin 6} {i1 i3 i4 : BitVec 4}
    (h0 : chars.getD (letterOffset cfg 0) 0 = vowel i0) (h1 : chars.getD (letterOffset cfg 1) 0 = dataCons i1)
    (h2 : chars.getD (letterOffset cfg 2) 0 = vowel i2) (h3 : chars.getD (letterOffset cfg 3) 0 = dataCons i3)
    (h4 : chars.getD (letterOffset cfg 4) 0 = dataCons i4) :
    decPair cfg c p chars =
      (assembleOf c i0 i1 i2 (p + letterOffset cfg 0) (p + letterOffset cfg 2) >>= fun b0 => .ok (b0, joinNibbles i3 i4)) := by
  simp only [decPair, h0, h1, h2, h3, h4, vowelOf, dataOf, vidx_vowel, didx_dataCons, ok_bind]

/-- A group with the letters of a byte pair is decoded to it, whatever its hyphen (R70, R71, R126). -/
theorem decPair_of_groupLetters {cfg : Config} {c : Checksum} (p : Nat) {chars : List Byte} {b0 b1 : Byte}
    (h : ∀ j ≤ 4, chars.getD (letterOffset cfg j) 0 = groupLetter c b0 b1 j) : decPair cfg c p chars = .ok (b0, b1) := by
  rw [decPair_of_letters (h 0 (by decide)) (h 1 (by decide)) (h 2 (by decide)) (h 3 (by decide)) (h 4 (by decide)),
    assembleOf_ok.mpr (assemble_indices c _ _ _ _ _), ok_bind, joinFields_fields, joinNibbles_nibbles]

theorem getD_pairGroup (cfg : Config) (c : Checksum) (b0 b1 : Byte) {j : Nat} (hj : j ≤ 4) :
    (pairGroup cfg c b0 b1).getD (letterOffset cfg j) 0 = groupLetter c b0 b1 j := by
  rw [List.getD_eq_getElem?_getD, pairGroup_letter cfg c b0 b1 hj, Option.getD_some]

theorem decPair_pairGroup (cfg : Config) (c : Checksum) (p : Nat) (b0 b1 : Byte) :
    decPair cfg c p (pairGroup cfg c b0 b1) = .ok (b0, b1) :=
  decPair_of_groupLetters p fun _ hj => getD_pairGroup cfg c b0 b1 hj

/-- R134: a group that is decoded has the letters of its byte pair. -/
theorem groupLetters_of_decPair {cfg : Config} {c : Checksum} {p : Nat} {chars : List Byte} {b : Byte × Byte}
    (h : decPair cfg c p chars = .ok b) : ∀ j ≤ 4, chars.getD (letterOffset cfg j) 0 = groupLetter c b.1 b.2 j := by
  obtain ⟨i0, h0, h⟩ := bind_ok h
  obtain ⟨i1, h1, h⟩ := bind_ok h
  obtain ⟨i2, h2, h⟩ := bind_ok h
  obtain ⟨i3, h3, h⟩ := bind_ok h
  obtain ⟨i4, h4, h⟩ := bind_ok h
  obtain ⟨b0, hb, h⟩ := bind_ok h
  cases h
  obtain ⟨hhi, hlo, rfl⟩ := assemble_ok (assembleOf_ok.mp hb)
  rw [vowelOf_ok] at h0 h2
  rw [dataOf_ok] at h1 h3 h4
  intro j hj
  match j, hj with
  | 0, _ => rw [groupLetter, hiField_joinFields, highIndex_rawHigh hhi, vowel_of_vidx h0]
  | 1, _ => rw [groupLetter, midField_joinFields, dataCons_of_didx h1]
  | 2, _ => rw [groupLetter, loField_joinFields, lowIndex_rawLow hlo, vowel_of_vidx h2]
  | 3, _ => rw [groupLetter, upperNibble_joinNibbles, dataCons_of_didx h3]
  | 4, _ =>
    change _ = dataCons (lowerNibble (joinNibbles i3 i4))
    rw [lowerNibble_joinNibbles, dataCons_of_didx h4]

/-- The same, for every character of the group but the hyphen. -/
theorem getElem?_of_decPair {cfg : Config} {c : Checksum} {p : Nat} {chars : List Byte} {b : Byte × Byte}
    (hlen : chars.length = 6) (h : decPair cfg c p chars = .ok b) {q : Nat} (hq : q < 6) (hne : q ≠ cfg.hyphenSlot.offset) :
    chars[q]? = (pairGroup cfg c b.1 b.2)[q]? := by
  obtain ⟨j, hj, rfl⟩ := exists_letterOffset cfg hq hne
  have hletter := groupLetters_of_decPair h j hj
  rw [List.getD_eq_getElem _ _ (hlen ▸ hq)] at hletter
  rw [pairGroup_letter cfg c _ _ hj, List.getElem?_eq_getElem (hlen ▸ hq), hletter]

/-- R132: a group stops at its first letter outside its class. -/
theorem decPair_of_invalid {cfg : Config} {c : Checksum} {p : Nat} {chars : List Byte} {b0 b1 : Byte} {j : Nat} (hj : j ≤ 4)
    (hpass : ∀ i < j, chars.getD (letterOffset cfg i) 0 = groupLetter c b0 b1 i)
    (hfail : ¬ slotAccepts (if j = 0 ∨ j = 2 then .v else .d) (chars.getD (letterOffset cfg j) 0)) :
    decPair cfg c p chars = .error (.invalidCharacter, p + letterOffset cfg j) := by
  have hv : ∀ {q : Nat} {ch : Byte}, ¬ slotAccepts .v ch → vowelOf q ch = .error (.invalidCharacter, q) := fun {q ch} h =>
    vowelOf_error.mpr ⟨Option.not_isSome_iff_eq_none.mp h, rfl⟩
  have hd : ∀ {q : Nat} {ch : Byte}, ¬ slotAccepts .d ch → dataOf q ch = .error (.invalidCharacter, q) := fun {q ch} h =>
    dataOf_error.mpr ⟨Option.not_isSome_iff_eq_none.mp h, rfl⟩
  have hv0 : ∀ q, 0 < j → vowelOf q (chars.getD (letterOffset cfg 0) 0) = .ok (highIndex c (hiField b0)) := fun q h =>
    vowelOf_ok.mpr (hpass 0 h ▸ vidx_vowel _)
  have hd1 : ∀ q, 1 < j → dataOf q (chars.getD (letterOffset cfg 1) 0) = .ok (midField b0) := fun q h =>
    dataOf_ok.mpr (hpass 1 h ▸ didx_dataCons _)
  have hv2 : ∀ q, 2 < j → vowelOf q (chars.getD (letterOffset cfg 2) 0) = .ok (lowIndex c (loField b0)) := fun q h =>
    vowelOf_ok.mpr (hpass 2 h ▸ vidx_vowel _)
  have hd3 : ∀ q, 3 < j → dataOf q (chars.getD (letterOffset cfg 3) 0) = .ok (upperNibble b1) := fun q h =>
    dataOf_ok.mpr (hpass 3 h ▸ didx_dataCons _)
  match j, hj with
  | 0, _ => simp only [decPair, hv hfail, error_bind]
  | 1, _ => simp only [decPair, hv0 _ (by decide), ok_bind, hd hfail, error_bind]
  | 2, _ => simp only [decPair, hv0 _ (by decide), hd1 _ (by decide), ok_bind, hv hfail, error_bind]
  | 3, _ => simp only [decPair, hv0 _ (by decide), hd1 _ (by decide), hv2 _ (by decide), ok_bind, hd hfail, error_bind]
  | 4, _ =>
    simp only [decPair, hv0 _ (by decide), hd1 _ (by decide), hv2 _ (by decide), hd3 _ (by decide), ok_bind, hd hfail,
      error_bind]

/-! ### One tail -/

/-- The letters of a last byte are decoded to it. -/
theorem decTail_byteTail (c : Checksum) (t : Nat) (b0 : Byte) :
    decTail c t (vowel (highIndex c (hiField b0))) (dataCons (midField b0)) (vowel (lowIndex c (loField b0))) =
      .ok (some b0) := by
  rw [decTail_of_data, assembleOf_ok.mpr (assemble_indices c _ _ _ _ _), joinFields_fields]
  rfl

/-- R134: a tail that is accepted is the one that the encoder writes for its bytes. -/
theorem encFrom_of_decTail {cfg : Config} {c : Checksum} {t : Nat} {a0 a1 a2 : Byte} {last : Option Byte}
    (h : decTail c t a0 a1 a2 = .ok last) : encFrom cfg c last.toList = [a0, a1, a2] := by
  obtain ⟨i0, h0, h⟩ := bind_ok h
  obtain ⟨i1, h1, h⟩ := bind_ok h
  obtain ⟨i2, h2, htail⟩ := bind_ok h
  rw [vowelOf_ok] at h0 h2
  rw [middleOf_ok] at h1
  obtain rfl := vowel_of_vidx h0
  obtain rfl := cons_of_midx h1
  obtain rfl := vowel_of_vidx h2
  by_cases hx : i1 = 16
  · rw [tailOf, if_pos hx] at htail
    split_ifs at htail with hhi hlo
    cases htail
    have e0 : tailHighIndex c = i0 := Fin.ext (not_not.mp hhi).symm
    have e2 : tailLowIndex c = i2 := Fin.ext (not_not.mp hlo).symm
    simp [encFrom, checksumTail, e0, e2, hx]
  · have hlt : i1.val < 16 := by
      have := i1.isLt
      have : i1.val ≠ 16 := fun he => hx (Fin.ext he)
      omega
    rw [tailOf_of_ne hx] at htail
    obtain ⟨b0, hb, rfl⟩ : ∃ b0, assembleOf c i0 (BitVec.ofNat 4 i1.val) i2 t (t + 2) = .ok b0 ∧ some b0 = last := by
      cases hasm : assembleOf c i0 (BitVec.ofNat 4 i1.val) i2 t (t + 2) with
      | error f => rw [hasm] at htail; cases htail
      | ok b0 => rw [hasm] at htail; exact ⟨b0, rfl, Except.ok.inj htail⟩
    obtain ⟨hhi, hlo, rfl⟩ := assemble_ok (assembleOf_ok.mp hb)
    have hmid : dataCons (BitVec.ofNat 4 i1.val) = cons i1 := by
      rw [dataCons_eq, BitVec.toNat_ofNat, Nat.mod_eq_of_lt hlt]
      exact congrArg cons (Fin.ext (Nat.mod_eq_of_lt i1.isLt))
    simp [encFrom, byteTail, hiField_joinFields, midField_joinFields, loField_joinFields, highIndex_rawHigh hhi,
      lowIndex_rawLow hlo, hmid]

/-! ### The whole string -/

theorem exists_six_of_length {g : List Byte} (h : g.length = 6) : ∃ a0 a1 a2 a3 a4 a5, g = [a0, a1, a2, a3, a4, a5] :=
  match g, h with
  | [a0, a1, a2, a3, a4, a5], _ => ⟨a0, a1, a2, a3, a4, a5, rfl⟩

/-- R130: six characters in front are decoded as a group, the rest under the checksum updated with its bytes. -/
theorem decFrom_append_group {cfg : Config} {c : Checksum} {p : Nat} {g : List Byte} (hg : g.length = 6) (rest : List Byte) :
    decFrom cfg c p (g ++ rest) = (do
      let b ← decPair cfg c p g
      let more ← decFrom cfg (ckUpd c b.1 b.2) (p + 6) rest
      .ok (b.1 :: b.2 :: more)) := by
  obtain ⟨a0, a1, a2, a3, a4, a5, rfl⟩ := exists_six_of_length hg
  simp only [List.cons_append, List.nil_append, decFrom]

theorem decFrom_tail (cfg : Config) (c : Checksum) (p : Nat) (t0 t1 t2 x : Byte) :
    decFrom cfg c p [t0, t1, t2, x] = (do
      let last ← decTail c p t0 t1 t2
      .ok last.toList) := by
  simp only [decFrom]

/-- R133, from any pair group on: the last character is the closing delimiter, which `dec` has checked already. -/
theorem decFrom_encFrom (cfg : Config) (c : Checksum) (p : Nat) (bytes : List Byte) (x : Byte) :
    decFrom cfg c p (encFrom cfg c bytes ++ [x]) = .ok bytes := by
  induction c, bytes using encFrom.induct generalizing p with
  | case1 c b0 b1 rest ih =>
    rw [encFrom_pair, List.append_assoc, decFrom_append_group (length_pairGroup ..), decPair_pairGroup, ok_bind, ih, ok_bind]
  | case2 c b0 =>
    change decFrom cfg c p [_, _, _, x] = _
    rw [decFrom_tail, decTail_byteTail, ok_bind]
    rfl
  | case3 c =>
    change decFrom cfg c p [_, _, _, x] = _
    rw [decFrom_tail, decTail_of_checksum, ok_bind]
    rfl

/-- A string in a frame of legal length is decoded group by group. -/
theorem dec_of_framed {cfg : Config} {inner : List Byte} (h : inner.length % 6 = 3) :
    dec cfg (delimiter :: (inner ++ [delimiter])) = decFrom cfg ckInit 1 (inner ++ [delimiter]) := by
  have hlen : (delimiter :: (inner ++ [delimiter])).length % 6 = 5 := by
    simp only [List.length_cons, List.length_append, List.length_nil]
    omega
  have hlast : (delimiter :: (inner ++ [delimiter])).getLast? = some delimiter := by
    rw [← List.cons_append, List.getLast?_concat]
  rw [dec, if_neg (not_not.mpr hlen), if_neg (not_not.mpr List.head?_cons), if_neg (not_not.mpr hlast), List.tail_cons]

/-- Settles O52: the frame, and inside it group by group. -/
theorem decodingInvertsEncoding : Obligations.DecodingInvertsEncoding := by
  intro cfg bytes
  refine (dec_of_framed ?_).trans (decFrom_encFrom cfg ckInit 1 bytes delimiter)
  change (encFrom cfg ckInit bytes).length % 6 = 3
  rw [length_encFrom]
  omega

/-- What `dec` has seen of a string it accepts. -/
theorem dec_ok {cfg : Config} {chars bytes : List Byte} (h : dec cfg chars = .ok bytes) :
    ∃ inner, chars = delimiter :: (inner ++ [delimiter]) ∧ inner.length % 6 = 3 ∧
      decFrom cfg ckInit 1 (inner ++ [delimiter]) = .ok bytes := by
  unfold dec at h
  split_ifs at h with hlen hhead hlast
  rw [not_not] at hlen hhead hlast
  obtain ⟨init, rfl⟩ := List.getLast?_eq_some_iff.mp hlast
  cases init with
  | nil => simp at hlen
  | cons a inner =>
    obtain rfl : a = delimiter := by simpa using hhead
    refine ⟨inner, rfl, ?_, h⟩
    simp only [List.cons_append, List.length_cons, List.length_append, List.length_nil] at hlen
    omega

/-- R134, from any pair group on: the characters but the hyphens and the last are those of the encoding. -/
theorem encFrom_of_decFrom {cfg : Config} {c : Checksum} {p : Nat} {chars bytes : List Byte}
    (h : decFrom cfg c p chars = .ok bytes) :
    chars.length = (encFrom cfg c bytes).length + 1 ∧
      ∀ a < (encFrom cfg c bytes).length, (a < 6 * (bytes.length / 2) → a % 6 ≠ cfg.hyphenSlot.offset) →
        chars[a]? = (encFrom cfg c bytes)[a]? := by
  induction c, p, chars using decFrom.induct generalizing bytes with
  | case1 c p t0 t1 t2 x =>
    rw [decFrom_tail] at h
    obtain ⟨last, hlast, h⟩ := bind_ok h
    cases h
    rw [encFrom_of_decTail hlast]
    refine ⟨rfl, fun a ha _ => ?_⟩
    exact List.getElem?_append_left (l₁ := [t0, t1, t2]) (l₂ := [x]) ha
  | case2 c p a0 a1 a2 a3 a4 a5 rest ih =>
    rw [show a0 :: a1 :: a2 :: a3 :: a4 :: a5 :: rest = [a0, a1, a2, a3, a4, a5] ++ rest from rfl] at h ⊢
    have hsix : [a0, a1, a2, a3, a4, a5].length = 6 := rfl
    rw [decFrom_append_group hsix] at h
    obtain ⟨b, hb, h⟩ := bind_ok h
    obtain ⟨more, hmore, h⟩ := bind_ok h
    cases h
    obtain ⟨hlen, hget⟩ := ih b hmore
    rw [encFrom_pair]
    refine ⟨by rw [List.length_append, List.length_append, hsix, length_pairGroup, hlen]; omega, fun a ha hslot => ?_⟩
    have hlenPair := length_pairGroup cfg c b.1 b.2
    rw [List.length_append, hlenPair] at ha
    simp only [List.length_cons] at hslot
    rcases Nat.lt_or_ge a 6 with h6 | h6
    · rw [List.getElem?_append_left (by rwa [hsix]), List.getElem?_append_left (by rwa [hlenPair])]
      exact getElem?_of_decPair hsix hb h6 (by have := hslot (by omega); omega)
    · rw [List.getElem?_append_right (by rwa [hsix]), List.getElem?_append_right (by rwa [hlenPair]), hsix, hlenPair]
      exact hget (a - 6) (by omega) fun hlt => by have := hslot (by omega); omega
  | case3 c p l h1 h2 =>
    unfold decFrom at h
    split at h
    · exact absurd rfl (h1 _ _ _ _)
    · exact absurd rfl (h2 _ _ _ _ _ _ _)
    · cases h

/-- R134: an accepted string agrees with the encoding of its bytes away from the hyphen slots. -/
theorem enc_of_dec {cfg : Config} {chars bytes : List Byte} (h : dec cfg chars = .ok bytes) :
    (enc cfg bytes).length = chars.length ∧
      ∀ a, ¬ IsHyphenSlot cfg chars.length a → (enc cfg bytes)[a]? = chars[a]? := by
  obtain ⟨inner, rfl, -, hfrom⟩ := dec_ok h
  obtain ⟨hlen, hget⟩ := encFrom_of_decFrom hfrom
  have hinner : inner.length = (encFrom cfg ckInit bytes).length := by simpa using hlen
  have htotal : (delimiter :: (inner ++ [delimiter])).length = 6 * (bytes.length / 2) + 5 := by
    simp [hinner, length_encFrom]
  have hsame : (enc cfg bytes).length = (delimiter :: (inner ++ [delimiter])).length :=
    (length_enc cfg bytes).trans htotal.symm
  refine ⟨hsame, fun a hslot => ?_⟩
  cases a with
  | zero => rfl
  | succ a =>
    rw [getElem?_enc_succ, List.getElem?_cons_succ]
    rcases Nat.lt_or_ge a inner.length with ha | ha
    · rw [List.getElem?_append_left (hinner ▸ ha), ← hget a (hinner ▸ ha)]
      intro hlt hoff
      refine hslot ?_
      rw [show a + 1 = hyphenAt cfg (a / 6) by unfold hyphenAt groupStart; omega]
      exact isHyphenSlot_hyphenAt cfg htotal (by omega)
    · rw [List.getElem?_append_right ha, List.getElem?_append_right (hinner ▸ ha), hinner]

/-- Settles O56. -/
theorem acceptedStringsAreCanonical : Obligations.AcceptedStringsAreCanonical := by
  intro cfg chars bytes h
  obtain ⟨hlen, hget⟩ := enc_of_dec h
  refine ⟨hlen, hget, fun chars' h' a ha => ?_⟩
  obtain ⟨hlen', hget'⟩ := enc_of_dec h'
  exact (hget' a (hlen'.symm.trans hlen ▸ ha)).symm.trans (hget a ha)

/-- R63: what the encoder may write in a slot, the decoder accepts there. -/
theorem slotAccepts_of_slotWrites {cls : SlotClass} {ch : Byte} (h : slotWrites cls ch) : slotAccepts cls ch := by
  cases cls with
  | h => trivial
  | v | d | m | x => exact h

/-- R63, R134: every character of an accepted string is of its slot's class. -/
theorem slotAccepts_of_dec {cfg : Config} {chars bytes : List Byte} {a : Nat} {ch : Byte} (h : dec cfg chars = .ok bytes)
    (ha : chars[a]? = some ch) : slotAccepts (slotClass cfg chars.length a) ch := by
  obtain ⟨hlen, hget⟩ := enc_of_dec h
  by_cases hslot : IsHyphenSlot cfg chars.length a
  · obtain ⟨g, hg, rfl⟩ := hslot
    rw [← hlen, groups_of_length (length_enc cfg bytes)] at hg
    rw [← hlen, slotClass_hyphen (length_enc cfg bytes) hg]
    trivial
  · rw [← hlen]
    exact slotAccepts_of_slotWrites (slotWrites_enc ((hget a hslot).trans ha))

/-- Settles O55: an accepted string is an encoded one away from the hyphen slots, so its characters are of their classes. -/
theorem charactersBelongToTheirSlots : Obligations.CharactersBelongToTheirSlots := by
  refine ⟨fun cfg bytes a c h => slotWrites_enc h, fun cfg chars bytes a c ha => ⟨fun h => slotAccepts_of_dec h ha, fun hc => ?_⟩⟩
  cases h : dec cfg chars with
  | error f => exact ⟨f, rfl⟩
  | ok bytes' => exact absurd (slotAccepts_of_dec h ha) hc

/-- Settles O58: the length is checked first, by `dec` and by DFRAME. -/
theorem wrongLengthAlwaysFails : Obligations.WrongLengthAlwaysFails :=
  ⟨fun _ _ h => if_pos h, fun s m hp hl => execDframe_of_wrong_length (s := { s with str := m }) hp hl⟩

end Sys2Proof.Machine
end

section
/-! One changed character (42_decoder.md R135): what the groups before it decode to, and what the group, tail or end that holds it
raises. -/

namespace Sys2Proof.Machine

/-- Groups that are those of an encoding are decoded, so what comes behind them is what fails. -/
theorem decFrom_error_of_drop {cfg : Config} {c : Checksum} {p : Nat} {bytes chars : List Byte} {f : Failure} {g : Nat}
    (hg : g ≤ bytes.length / 2) (hsame : ∀ a < 6 * g, chars[a]? = (encFrom cfg c bytes)[a]?)
    (h : decFrom cfg (checksumFrom c (bytes.take (2 * g))) (p + 6 * g) (chars.drop (6 * g)) = .error f) :
    decFrom cfg c p chars = .error f := by
  induction g generalizing c p bytes chars with
  | zero => exact h
  | succ g ih =>
    obtain ⟨b0, b1, rest, rfl⟩ := exists_pair_of_length (bytes := bytes) (by omega)
    have hlen := length_pairGroup cfg c b0 b1
    have hfront : chars.take 6 = pairGroup cfg c b0 b1 := by
      apply List.ext_getElem?
      intro a
      rcases Nat.lt_or_ge a 6 with ha | ha
      · rw [List.getElem?_take_of_lt ha, hsame a (by omega), encFrom_pair, List.getElem?_append_left (by omega)]
      · rw [List.getElem?_eq_none (Nat.le_trans (List.length_take_le ..) ha), List.getElem?_eq_none (hlen ▸ ha)]
    rw [← List.take_append_drop 6 chars, hfront, decFrom_append_group hlen, decPair_pairGroup, ok_bind]
    have hrest : decFrom cfg (ckUpd c b0 b1) (p + 6) (chars.drop 6) = .error f := by
      refine ih (bytes := rest) (by simp only [List.length_cons] at hg; omega) (fun a ha => ?_) ?_
      · rw [List.getElem?_drop, hsame (6 + a) (by omega), encFrom_pair, List.getElem?_append_right (by omega), hlen,
          Nat.add_sub_cancel_left]
      · rw [List.drop_drop, show p + 6 + 6 * g = p + 6 * (g + 1) by omega, show 6 + 6 * g = 6 * (g + 1) by omega]
        exact h
    rw [hrest, error_bind]

section
variable {cfg : Config} {bytes chars : List Byte} (hlen : chars.length = 6 * (bytes.length / 2) + 5)
include hlen

/-- A string of the right length between two delimiters is decoded from its first group on. -/
theorem dec_of_ends (hfirst : chars[0]? = some delimiter) (hlast : chars[6 * (bytes.length / 2) + 4]? = some delimiter) :
    dec cfg chars = decFrom cfg ckInit 1 chars.tail := by
  have hhead : chars.head? = some delimiter := by rw [List.head?_eq_getElem?, hfirst]
  have hgetLast : chars.getLast? = some delimiter := by rw [List.getLast?_eq_getElem?, hlen, ← hlast]; rfl
  rw [dec, if_neg (by omega), if_neg (not_not.mpr hhead), if_neg (not_not.mpr hgetLast)]

/-- R132: a string whose part before group `g` is that of an encoding fails as its part from group `g` on. -/
theorem dec_error_of_drop {g : Nat} {f : Failure} (hg : g ≤ bytes.length / 2)
    (hsame : ∀ a < groupStart g, chars[a]? = (enc cfg bytes)[a]?)
    (hlast : chars[6 * (bytes.length / 2) + 4]? = some delimiter)
    (h : decFrom cfg (checksumAt bytes g) (groupStart g) (chars.drop (groupStart g)) = .error f) :
    dec cfg chars = .error f := by
  have hfirst : chars[0]? = some delimiter := hsame 0 (by unfold groupStart; omega)
  rw [dec_of_ends hlen hfirst hlast]
  refine decFrom_error_of_drop hg (fun a ha => ?_) ?_
  · have hin : a < (encFrom cfg ckInit bytes).length := by rw [length_encFrom]; omega
    rw [List.getElem?_tail, hsame (a + 1) (by unfold groupStart; omega), getElem?_enc_succ, List.getElem?_append_left hin]
  · rw [List.drop_tail, show 6 * g + 1 = groupStart g by unfold groupStart; omega]
    exact h

/-- R127: a pair group that is not decoded. -/
theorem dec_error_of_group {g : Nat} {f : Failure} (hg : g < bytes.length / 2)
    (hsame : ∀ a < groupStart g, chars[a]? = (enc cfg bytes)[a]?)
    (hlast : chars[6 * (bytes.length / 2) + 4]? = some delimiter)
    (h : decPair cfg (checksumAt bytes g) (groupStart g) ((chars.drop (groupStart g)).take 6) = .error f) :
    dec cfg chars = .error f := by
  have hsix : ((chars.drop (groupStart g)).take 6).length = 6 := by
    rw [List.length_take, List.length_drop, hlen]
    unfold groupStart
    omega
  refine dec_error_of_drop hlen hg.le hsame hlast ?_
  rw [← List.take_append_drop 6 (chars.drop (groupStart g)), decFrom_append_group hsix, h, error_bind]

/-- R128: a tail that is not accepted. -/
theorem dec_error_of_tail {t0 t1 t2 : Byte} {f : Failure}
    (hsame : ∀ a < groupStart (bytes.length / 2), chars[a]? = (enc cfg bytes)[a]?)
    (hlast : chars[6 * (bytes.length / 2) + 4]? = some delimiter)
    (h0 : chars[groupStart (bytes.length / 2)]? = some t0) (h1 : chars[groupStart (bytes.length / 2) + 1]? = some t1)
    (h2 : chars[groupStart (bytes.length / 2) + 2]? = some t2)
    (h : decTail (checksumAt bytes (bytes.length / 2)) (groupStart (bytes.length / 2)) t0 t1 t2 = .error f) :
    dec cfg chars = .error f := by
  have hdrop : chars.drop (groupStart (bytes.length / 2)) = [t0, t1, t2, delimiter] := by
    apply List.ext_getElem?
    intro r
    rw [List.getElem?_drop]
    match r with
    | 0 => exact h0
    | 1 => exact h1
    | 2 => exact h2
    | 3 =>
      rw [show groupStart (bytes.length / 2) + 3 = 6 * (bytes.length / 2) + 4 by unfold groupStart; omega]
      exact hlast
    | r + 4 => rw [List.getElem?_eq_none (by unfold groupStart; omega)]; rfl
  refine dec_error_of_drop hlen le_rfl hsame hlast ?_
  rw [hdrop, decFrom_tail, h, error_bind]

end

/-! ### The failures of one group and of one tail -/

theorem letterOffset_zero (cfg : Config) : letterOffset cfg 0 = 0 := by
  have := hyphenSlot_offset_cases cfg.hyphenSlot
  exact if_pos (by omega)

theorem letterOffset_two (cfg : Config) : letterOffset cfg 2 = 2 := by
  have := hyphenSlot_offset_cases cfg.hyphenSlot
  exact if_pos (by omega)

/-- R125: the first vowel of a group out of range. -/
theorem decPair_of_high {cfg : Config} {c : Checksum} {p : Nat} {chars : List Byte} {b0 b1 : Byte} {i : Fin 6}
    (hi : chars.getD (letterOffset cfg 0) 0 = vowel i)
    (h : ∀ j ≤ 4, j ≠ 0 → chars.getD (letterOffset cfg j) 0 = groupLetter c b0 b1 j)
    (hrange : 4 ≤ (i.val + 6 - c.val % 6) % 6) : decPair cfg c p chars = .error (.checksumMismatch, p) := by
  rw [decPair_of_letters hi (h 1 (by decide) (by decide)) (h 2 (by decide) (by decide)) (h 3 (by decide) (by decide))
    (h 4 (by decide) (by decide)), assembleOf_eq, if_pos hrange, error_bind, letterOffset_zero, Nat.add_zero]

/-- R125: the last vowel of a byte out of range, the first one being as encoded. -/
theorem assembleOf_of_low {c : Checksum} {hi : BitVec 2} {mid : BitVec 4} {i : Fin 6} {p0 p2 : Nat}
    (hrange : 4 ≤ (i.val + 6 - c.val / 6) % 6) :
    assembleOf c (highIndex c hi) mid i p0 p2 = .error (.checksumMismatch, p2) := by
  have hhi : ¬ 4 ≤ ((highIndex c hi).val + 6 - c.val % 6) % 6 := by
    have := hi.isLt
    rw [← rawHigh_eq, rawHigh_highIndex]
    omega
  rw [assembleOf_eq, if_neg hhi, if_pos hrange]

/-- R125: the second vowel of a group out of range. -/
theorem decPair_of_low {cfg : Config} {c : Checksum} {p : Nat} {chars : List Byte} {b0 b1 : Byte} {i : Fin 6}
    (hi : chars.getD (letterOffset cfg 2) 0 = vowel i)
    (h : ∀ j ≤ 4, j ≠ 2 → chars.getD (letterOffset cfg j) 0 = groupLetter c b0 b1 j)
    (hrange : 4 ≤ (i.val + 6 - c.val / 6) % 6) : decPair cfg c p chars = .error (.checksumMismatch, p + 2) := by
  rw [decPair_of_letters (h 0 (by decide) (by decide)) (h 1 (by decide) (by decide)) hi (h 3 (by decide) (by decide))
    (h 4 (by decide) (by decide)), assembleOf_of_low hrange, error_bind, letterOffset_two]

/-- R132: the first of the three characters of a tail that is outside its class. -/
theorem decTail_of_invalid {c : Checksum} {t r : Nat} {ch : Nat → Byte} (hr : r < 3)
    (hpass : ∀ i < r, slotAccepts (if i = 1 then .m else .v) (ch i))
    (hfail : ¬ slotAccepts (if r = 1 then .m else .v) (ch r)) :
    decTail c t (ch 0) (ch 1) (ch 2) = .error (.invalidCharacter, t + r) := by
  have hv : ∀ {i}, i < r → i ≠ 1 → vidx (ch i) ≠ none := fun {i} hi h1 =>
    Option.isSome_iff_ne_none.mp (by have := hpass i hi; rwa [if_neg h1] at this)
  apply decTail_first_failure
  match r, hr with
  | 0, _ => rw [if_pos (Option.not_isSome_iff_eq_none.mp hfail), Nat.add_zero]
  | 1, _ => rw [if_neg (hv (by decide) (by decide)), if_pos (Option.not_isSome_iff_eq_none.mp hfail)]
  | 2, _ =>
    have hm : midx (ch 1) ≠ none := Option.isSome_iff_ne_none.mp (hpass 1 (by decide))
    rw [if_neg (hv (by decide) (by decide)), if_neg hm, if_pos (Option.not_isSome_iff_eq_none.mp hfail)]

/-- R68, R128: a vowel in a checksum tail that is not the checksum's. -/
theorem decTail_of_wrong_high {c : Checksum} {t : Nat} {i : Fin 6} (h : i ≠ tailHighIndex c) :
    decTail c t (vowel i) (cons 16) (vowel (tailLowIndex c)) = .error (.checksumMismatch, t) := by
  have hne : i.val ≠ ckOffHi c := fun he => h (Fin.ext he)
  simp only [decTail, vowelOf, middleOf, vidx_vowel, midx_cons, ok_bind, tailOf, if_true, if_pos hne]

theorem decTail_of_wrong_low {c : Checksum} {t : Nat} {i : Fin 6} (h : i ≠ tailLowIndex c) :
    decTail c t (vowel (tailHighIndex c)) (cons 16) (vowel i) = .error (.checksumMismatch, t + 2) := by
  have hne : i.val ≠ ckOffLo c := fun he => h (Fin.ext he)
  have heq : ¬ (tailHighIndex c).val ≠ ckOffHi c := not_not.mpr rfl
  simp only [decTail, vowelOf, middleOf, vidx_vowel, midx_cons, ok_bind, tailOf, if_true, if_pos hne, if_neg heq]

/-! ### One changed character -/

/-- A letter of group `g`, as the group's six characters hold it. -/
theorem getD_letter {cfg : Config} {chars : List Byte} {g j p : Nat} {x : Byte} (hj : j ≤ 4) (hp : p = letterAt cfg g j)
    (hx : chars[p]? = some x) : ((chars.drop (groupStart g)).take 6).getD (letterOffset cfg j) 0 = x := by
  rw [hp, letterAt] at hx
  rw [List.getD_eq_getElem?_getD, List.getElem?_take_of_lt (letterOffset_lt cfg hj), List.getElem?_drop, hx, Option.getD_some]

section
variable {cfg : Config} {bytes chars : List Byte} {p : Nat} (hsame : ∀ a, a ≠ p → chars[a]? = (enc cfg bytes)[a]?)
include hsame

/-- Where a pair group's letter is changed, its other letters are as encoded and so is all before the group. -/
theorem changed_letter {g j : Nat} (hg : g < bytes.length / 2) (hj : j ≤ 4) (hp : p = letterAt cfg g j) :
    (∀ a < groupStart g, chars[a]? = (enc cfg bytes)[a]?) ∧ chars[6 * (bytes.length / 2) + 4]? = some delimiter ∧
      ∃ b0 b1, ∀ i ≤ 4, i ≠ j →
        ((chars.drop (groupStart g)).take 6).getD (letterOffset cfg i) 0 = groupLetter (checksumAt bytes g) b0 b1 i := by
  have hoff := letterOffset_lt cfg hj
  obtain ⟨b0, b1, rest, -, hgroup⟩ := exists_group_of_enc cfg bytes hg
  unfold letterAt at hp
  refine ⟨fun a ha => hsame a (by omega), ?_, b0, b1, fun i hi hne => ?_⟩
  · rw [hsame _ (by unfold groupStart at hp; omega)]
    exact enc_last cfg bytes
  · refine getD_letter hi rfl ((hsame _ fun h => hne (letterOffset_inj cfg ?_)).trans ?_)
    · unfold letterAt at h
      omega
    · rw [letterAt, hgroup _ (letterOffset_lt cfg hi), pairGroup_letter cfg _ _ _ hi]

/-- Where a character of the tail is changed, all before the tail is as encoded. -/
theorem changed_tail {r : Nat} (hr : r < 3) (hp : p = groupStart (bytes.length / 2) + r) :
    (∀ a < groupStart (bytes.length / 2), chars[a]? = (enc cfg bytes)[a]?) ∧
      chars[6 * (bytes.length / 2) + 4]? = some delimiter := by
  refine ⟨fun a ha => hsame a (by omega), ?_⟩
  rw [hsame _ (by unfold groupStart at hp; omega)]
  exact enc_last cfg bytes

end

section
variable {cfg : Config} {bytes chars : List Byte} {p : Nat} (hlen : chars.length = 6 * (bytes.length / 2) + 5)
  (hsame : ∀ a, a ≠ p → chars[a]? = (enc cfg bytes)[a]?)
include hlen hsame

/-- The end that is changed is reported (R173). -/
theorem dec_of_changed_end (hdiff : chars[p]? ≠ (enc cfg bytes)[p]?) (hp : p = 0 ∨ p = chars.length - 1) :
    dec cfg chars = .error (.invalidFraming, p) := by
  rw [hlen, show 6 * (bytes.length / 2) + 5 - 1 = 6 * (bytes.length / 2) + 4 from rfl] at hp
  rw [dec, if_neg (by omega), List.head?_eq_getElem?, List.getLast?_eq_getElem?, hlen,
    show 6 * (bytes.length / 2) + 5 - 1 = 6 * (bytes.length / 2) + 4 from rfl]
  rcases hp with rfl | rfl
  · rw [enc_first] at hdiff
    rw [if_pos hdiff]
  · have hfirst := (hsame 0 (by omega)).trans (enc_first cfg bytes)
    rw [enc_last] at hdiff
    rw [if_neg (not_not.mpr hfirst), if_pos hdiff]

/-- A character outside the class of its letter slot (R174). -/
theorem dec_of_changed_class {ch : Byte} (hp : p < chars.length) (h0 : p ≠ 0) (hlast : p ≠ chars.length - 1)
    (hslot : ¬ IsHyphenSlot cfg chars.length p) (hch : chars[p]? = some ch)
    (hcls : ¬ slotAccepts (slotClass cfg chars.length p) ch) : dec cfg chars = .error (.invalidCharacter, p) := by
  rcases offset_cases cfg (hlen ▸ hp) with he | he | ⟨g, hg, j, hj, he⟩ | ⟨g, hg, he⟩ | ⟨r, hr, he⟩
  · exact absurd he h0
  · exact absurd (by omega) hlast
  · obtain ⟨hbefore, hend, b0, b1, hletters⟩ := changed_letter hsame hg hj he
    rw [he, slotClass_letter hlen hg hj] at hcls
    have hbad := getD_letter hj he hch
    rw [he, letterAt]
    refine dec_error_of_group hlen hg hbefore hend (decPair_of_invalid hj (fun i hi => hletters i (by omega) (by omega)) ?_)
    rwa [hbad]
  · exact absurd (he ▸ isHyphenSlot_hyphenAt cfg hlen hg) hslot
  · obtain ⟨hbefore, hend⟩ := changed_tail hsame hr he
    rw [he, slotClass_tail hlen hr] at hcls
    have hall : ∀ i < 3, chars[groupStart (bytes.length / 2) + i]? =
        some (chars.getD (groupStart (bytes.length / 2) + i) 0) := fun i hi => by
      rw [List.getD_eq_getElem?_getD, List.getElem?_eq_getElem (by unfold groupStart; omega), Option.getD_some]
    have hbad : chars.getD (groupStart (bytes.length / 2) + r) 0 = ch := by
      rw [List.getD_eq_getElem?_getD, ← he, hch, Option.getD_some]
    rw [he]
    refine dec_error_of_tail hlen hbefore hend (hall 0 (by decide)) (hall 1 (by decide)) (hall 2 (by decide))
      (decTail_of_invalid (ch := fun i => chars.getD (groupStart (bytes.length / 2) + i) 0) hr (fun i hi => ?_) ?_)
    · have hget := hall i (by omega)
      rw [hsame _ (by omega)] at hget
      have hwrites := slotWrites_enc hget
      rw [length_enc, slotClass_tail rfl (by omega)] at hwrites
      exact slotAccepts_of_slotWrites hwrites
    · rwa [hbad]

/-- A vowel of a pair group or of a byte tail that puts its field out of range (R175, R176). -/
theorem dec_of_changed_range {g : Nat} {i : Fin 6} (hg : g < (bytes.length + 1) / 2) (hi : chars[p]? = some (vowel i))
    (hrange : (p = 1 + 6 * g ∧ 4 ≤ (i.val + 6 - (checksumAt bytes g).val % 6) % 6) ∨
      (p = 3 + 6 * g ∧ 4 ≤ (i.val + 6 - (checksumAt bytes g).val / 6) % 6)) :
    dec cfg chars = .error (.checksumMismatch, p) := by
  rcases Nat.lt_or_ge g (bytes.length / 2) with hpair | hpair
  · rcases hrange with ⟨hp, hrange⟩ | ⟨hp, hrange⟩
    · have he : p = letterAt cfg g 0 := by rw [letterAt, letterOffset_zero]; exact hp
      obtain ⟨hbefore, hend, b0, b1, hletters⟩ := changed_letter hsame hpair (by decide) he
      have hbad := getD_letter (Nat.zero_le 4) he hi
      rw [hp]
      exact dec_error_of_group hlen hpair hbefore hend (decPair_of_high hbad hletters hrange)
    · have he : p = letterAt cfg g 2 := by rw [letterAt, letterOffset_two, groupStart]; omega
      obtain ⟨hbefore, hend, b0, b1, hletters⟩ := changed_letter hsame hpair (by decide) he
      have hbad := getD_letter (by decide) he hi
      rw [hp, show 3 + 6 * g = groupStart g + 2 by unfold groupStart; omega]
      exact dec_error_of_group hlen hpair hbefore hend (decPair_of_low hbad hletters hrange)
  · obtain rfl : g = bytes.length / 2 := by omega
    rcases tail_of_enc cfg bytes with ⟨-, b0, -, htail⟩ | ⟨he, -, -⟩
    · have hkept : ∀ r < 3, groupStart (bytes.length / 2) + r ≠ p → chars[groupStart (bytes.length / 2) + r]? =
          (byteTail (checksumAt bytes (bytes.length / 2)) b0)[r]? := fun r hr hne => (hsame _ hne).trans (htail r hr)
      have hstart : groupStart (bytes.length / 2) = 1 + 6 * (bytes.length / 2) := rfl
      rcases hrange with ⟨hp, hrange⟩ | ⟨hp, hrange⟩
      · obtain ⟨hbefore, hend⟩ := changed_tail hsame (r := 0) (by decide) (by omega)
        rw [hp] at hi ⊢
        refine dec_error_of_tail hlen hbefore hend hi (hkept 1 (by decide) (by omega)) (hkept 2 (by decide) (by omega)) ?_
        rw [decTail_of_data, assembleOf_eq, if_pos hrange]
        rfl
      · obtain ⟨hbefore, hend⟩ := changed_tail hsame (r := 2) (by decide) (by omega)
        rw [hp, show 3 + 6 * (bytes.length / 2) = groupStart (bytes.length / 2) + 2 by omega] at hi ⊢
        refine dec_error_of_tail hlen hbefore hend (hkept 0 (by decide) (by omega)) (hkept 1 (by decide) (by omega)) hi ?_
        rw [decTail_of_data, assembleOf_of_low hrange]
        rfl
    · omega

/-- Another vowel in a checksum tail (R175). -/
theorem dec_of_changed_checksum {i : Fin 6} (he : bytes.length % 2 = 0) (hdiff : chars[p]? ≠ (enc cfg bytes)[p]?)
    (hp : p = 1 + 6 * (bytes.length / 2) ∨ p = 3 + 6 * (bytes.length / 2)) (hi : chars[p]? = some (vowel i)) :
    dec cfg chars = .error (.checksumMismatch, p) := by
  rcases tail_of_enc cfg bytes with ⟨ho, -⟩ | ⟨-, -, htail⟩
  · omega
  have hkept : ∀ r < 3, groupStart (bytes.length / 2) + r ≠ p → chars[groupStart (bytes.length / 2) + r]? =
      (checksumTail (checksumAt bytes (bytes.length / 2)))[r]? := fun r hr hne => (hsame _ hne).trans (htail r hr)
  have hstart : groupStart (bytes.length / 2) = 1 + 6 * (bytes.length / 2) := rfl
  have hother : ∀ k, (enc cfg bytes)[p]? = some (vowel k) → i ≠ k := fun k hk hik => hdiff (by rw [hi, hk, hik])
  rcases hp with hp | hp
  · obtain ⟨hbefore, hend⟩ := changed_tail hsame (r := 0) (by decide) (by omega)
    have hne := hother _ (hp ▸ htail 0 (by decide))
    rw [hp] at hi ⊢
    exact dec_error_of_tail hlen hbefore hend hi (hkept 1 (by decide) (by omega)) (hkept 2 (by decide) (by omega))
      (decTail_of_wrong_high hne)
  · have hp2 : p = groupStart (bytes.length / 2) + 2 := by omega
    obtain ⟨hbefore, hend⟩ := changed_tail hsame (r := 2) (by decide) hp2
    have hne := hother _ (hp2 ▸ htail 2 (by decide))
    rw [hp2] at hi ⊢
    exact dec_error_of_tail hlen hbefore hend (hkept 0 (by decide) (by omega)) (hkept 1 (by decide) (by omega)) hi
      (decTail_of_wrong_low hne)

end

/-- Settles O57: an accepted string agrees with the encoding of its bytes off the hyphen slots, and the other clauses say what the
end, group or tail that holds the changed character raises. -/
theorem corruptionIsNotSilentlyUndone : Obligations.CorruptionIsNotSilentlyUndone := by
  intro cfg bytes chars p hlen hp hsame hdiff hslot
  have hlen' : chars.length = 6 * (bytes.length / 2) + 5 := hlen.trans (length_enc cfg bytes)
  refine ⟨fun h => hdiff ((enc_of_dec h).2 p hslot).symm, dec_of_changed_end hlen' hsame hdiff,
    fun ch h0 hlast hch hcls => dec_of_changed_class hlen' hsame hp h0 hlast hslot hch hcls,
    fun g i hg hi hrange => dec_of_changed_range hlen' hsame hg hi hrange,
    fun i he hp hi => dec_of_changed_checksum hlen' hsame he hdiff hp hi⟩

end Sys2Proof.Machine
end

section
/-! The engine's turns one after another: the engine does not look at the port, so a run of turns is the same on an empty queue, on a
queue of turns and between the polls of a call (30_encoding.md R84). -/

namespace Sys2Proof.Machine

/-! ### The engine does not look at the port -/

/-- The state with another queue of events and other values handed to the host. -/
def State.setPort (inputs : List Input) (reads : List Nat) (s : State) : State := { s with inputs := inputs, reads := reads }

theorem State.Inv.setPort {s : State} (h : s.Inv) (inputs : List Input) (reads : List Nat) : (s.setPort inputs reads).Inv :=
  h.hostSide s.c inputs reads s.draws s.losses

section
variable (inputs : List Input) (reads : List Nat) (s : State)

theorem settle_setPort (r : Except Stop State) :
    settle (s.setPort inputs reads) (State.setPort inputs reads <$> r) = mapNext (State.setPort inputs reads) (settle s r) := by
  rcases r with (f | r | r) | t <;> rfl

variable {inputs reads s} in
/-- A step operation commutes with the port when its pseudocode does. -/
theorem enabled_setPort {p : Prop} [Decidable p] {x y : Except Stop State} (h : x = State.setPort inputs reads <$> y) :
    whenEnabled p (settle (s.setPort inputs reads) x) =
      mapNext (State.setPort inputs reads) (whenEnabled p (settle s y)) := by
  rw [h, settle_setPort, whenEnabled_mapNext]

theorem storeRaw_setPort (cells : List Host.Cell) :
    storeRaw cells (s.setPort inputs reads) = State.setPort inputs reads <$> storeRaw cells s := by
  have hcap : (s.setPort inputs reads).cfg.rawCap = s.cfg.rawCap := rfl
  rw [storeRaw, storeRaw, hcap]
  split <;> rfl

theorem storeStr_setPort (cells : List Host.Cell) :
    storeStr cells (s.setPort inputs reads) = State.setPort inputs reads <$> storeStr cells s := by
  have hcap : (s.setPort inputs reads).cfg.strCap = s.cfg.strCap := rfl
  rw [storeStr, storeStr, hcap]
  split <;> rfl

theorem execEopen_setPort :
    execEopen (s.setPort inputs reads) = mapNext (State.setPort inputs reads) (execEopen s) := by
  refine enabled_setPort (p := s.phase = .encOpen) ?_
  rw [storeStr_setPort, map_bind, bind_map_left]
  rfl

theorem execEpair_setPort :
    execEpair (s.setPort inputs reads) = mapNext (State.setPort inputs reads) (execEpair s) := by
  refine enabled_setPort (p := s.phase = .encBody ∧ s.k < s.rawLen / 2) ?_
  simp only [map_bind, storeStr_setPort, bind_map_left]
  rfl

theorem execEtailb_setPort :
    execEtailb (s.setPort inputs reads) = mapNext (State.setPort inputs reads) (execEtailb s) := by
  refine enabled_setPort (p := s.phase = .encBody ∧ s.k = s.rawLen / 2 ∧ s.rawLen % 2 = 1) ?_
  simp only [map_bind, storeStr_setPort, bind_map_left]
  rfl

theorem execEtailc_setPort :
    execEtailc (s.setPort inputs reads) = mapNext (State.setPort inputs reads) (execEtailc s) := by
  refine enabled_setPort (p := s.phase = .encBody ∧ s.k = s.rawLen / 2 ∧ s.rawLen % 2 = 0) ?_
  rw [storeStr_setPort, map_bind, bind_map_left]
  rfl

theorem execEclose_setPort :
    execEclose (s.setPort inputs reads) = mapNext (State.setPort inputs reads) (execEclose s) := by
  refine enabled_setPort (p := s.phase = .encClose) ?_
  rw [storeStr_setPort, map_bind, bind_map_left]
  rfl

theorem execDframe_setPort :
    execDframe (s.setPort inputs reads) = mapNext (State.setPort inputs reads) (execDframe s) := by
  by_cases hp : s.phase = .decFrame
  · by_cases hl : s.strLen % 6 = 5
    · rw [execDframe_of_length hp hl, execDframe_of_length (s := s.setPort inputs reads) hp hl, ← settle_setPort]
      simp only [map_bind]
      rfl
    · rw [execDframe_of_wrong_length hp hl, execDframe_of_wrong_length (s := s.setPort inputs reads) hp hl]
      rfl
  · exact (whenEnabled_neg hp _).trans (congrArg (mapNext _) (whenEnabled_neg hp _)).symm

theorem execDpair_setPort :
    execDpair (s.setPort inputs reads) = mapNext (State.setPort inputs reads) (execDpair s) := by
  refine enabled_setPort (p := s.phase = .decBody ∧ s.k < (s.strLen - 5) / 6) ?_
  simp only [map_bind, storeRaw_setPort, bind_map_left]
  rfl

theorem tailEnd_setPort (last : Option Byte) :
    tailEnd (s.setPort inputs reads) last = State.setPort inputs reads <$> tailEnd s last := by
  cases last with
  | none => rfl
  | some b0 =>
    simp only [tailEnd, storeRaw_setPort, map_bind, bind_map_left]
    rfl

theorem execDtail_setPort :
    execDtail (s.setPort inputs reads) = mapNext (State.setPort inputs reads) (execDtail s) := by
  refine enabled_setPort (p := s.phase = .decBody ∧ s.k = (s.strLen - 5) / 6) ?_
  simp only [map_bind]
  exact bind_congr fun i0 => bind_congr fun i1 => bind_congr fun i2 => bind_congr fun last => tailEnd_setPort inputs reads s last

end

/-- A turn of the engine in a state that R33 admits does the same with another port. -/
theorem engineTurn_setPort {s : State} (hc : s.Coherent) (inputs : List Input) (reads : List Nat) :
    engineTurn (s.setPort inputs reads) = mapNext (State.setPort inputs reads) (engineTurn s) := by
  rcases Bool.eq_false_or_eq_true s.busy with hb | hb
  · obtain ⟨i, hdecode, henabled⟩ := busyStateSelectsTheOneEnabledStep s hc hb
    rw [engineTurn_of_decode hb hdecode, engineTurn_of_decode (s := s.setPort inputs reads) hb hdecode]
    rcases (henabled i).mpr rfl with ⟨rfl, -⟩ | ⟨rfl, -⟩ | ⟨rfl, -⟩ | ⟨rfl, -⟩ | ⟨rfl, -⟩ | ⟨rfl, -⟩ | ⟨rfl, -⟩ | ⟨rfl, -⟩
    · exact execEopen_setPort inputs reads s
    · exact execEpair_setPort inputs reads s
    · exact execEtailb_setPort inputs reads s
    · exact execEtailc_setPort inputs reads s
    · exact execEclose_setPort inputs reads s
    · exact execDframe_setPort inputs reads s
    · exact execDpair_setPort inputs reads s
    · exact execDtail_setPort inputs reads s
  · rw [engineTurn_idle hb, engineTurn_idle (s := s.setPort inputs reads) hb]
    rfl

theorem engineTurn_setPort_next {s t : State} (hc : s.Coherent) (h : engineTurn s = .next t) (inputs : List Input)
    (reads : List Nat) : engineTurn (s.setPort inputs reads) = .next (t.setPort inputs reads) := by
  rw [engineTurn_setPort hc, h]
  rfl

/-- A turn leaves the port as it is. -/
theorem engineTurn_keeps_port {s t : State} (hc : s.Coherent) (h : engineTurn s = .next t) :
    t.inputs = s.inputs ∧ t.reads = s.reads := by
  have hsame : Host.Outcome.next t = .next (t.setPort s.inputs s.reads) :=
    h.symm.trans (engineTurn_setPort_next hc h s.inputs s.reads)
  have ht : t = t.setPort s.inputs s.reads := Host.Outcome.next.inj hsame
  rw [ht]
  exact ⟨rfl, rfl⟩

/-! ### An operation that ends -/

/-- The engine's next `n` turns go on, BUSY is set before each of them, and they end the operation in `u`. -/
inductive Finishes : State → Nat → State → Prop
  | done {u : State} (hb : u.busy = false) (hd : u.done = true) : Finishes u 0 u
  | turn {s t u : State} {n : Nat} (hb : s.busy = true) (h : engineTurn s = .next t) (rest : Finishes t n u) :
      Finishes s (n + 1) u

theorem Finishes.end_idle {s u : State} {n : Nat} (h : Finishes s n u) : u.busy = false ∧ u.done = true := by
  induction h with
  | done hb hd => exact ⟨hb, hd⟩
  | turn _ _ _ ih => exact ih

/-- One turn that ends the operation. -/
theorem Finishes.last {s u : State} (hb : s.busy = true) (h : engineTurn s = .next u) (hub : u.busy = false)
    (hud : u.done = true) : Finishes s 1 u := .turn hb h (.done hub hud)

theorem Finishes.inv {s u : State} {n : Nat} (h : Finishes s n u) (hinv : s.Inv) : u.Inv := by
  induction h with
  | done => exact hinv
  | turn _ ht _ ih => exact ih (engineTurn_keeps_inv hinv ht)

theorem Finishes.keeps_inputs {s u : State} {n : Nat} (h : Finishes s n u) (hinv : s.Inv) : u.inputs = s.inputs := by
  induction h with
  | done => rfl
  | turn _ ht _ ih => exact (ih (engineTurn_keeps_inv hinv ht)).trans (engineTurn_keeps_port hinv.coherent ht).1

theorem Finishes.setPort {s u : State} {n : Nat} (h : Finishes s n u) (hinv : s.Inv) (inputs : List Input)
    (reads : List Nat) : Finishes (s.setPort inputs reads) n (u.setPort inputs reads) := by
  induction h with
  | done hb hd => exact .done hb hd
  | turn hb ht _ ih =>
    exact .turn hb (engineTurn_setPort_next hinv.coherent ht inputs reads) (ih (engineTurn_keeps_inv hinv ht))

/-! ### Runs -/

/-- A run of one step more is that step and the run from there. -/
theorem run_succ_next {s t : State} {n : Nat} :
    Sys2Proof.core.run (n + 1) s = .next t ↔ ∃ s', step s = .next s' ∧ Sys2Proof.core.run n s' = .next t := by
  have hstep : Sys2Proof.core.step s = step s := rfl
  cases h : step s with
  | next s' => simp [Host.Core.run, hstep, h]
  | fault f => simp [Host.Core.run, hstep, h]
  | refused f => simp [Host.Core.run, hstep, h]

theorem run_add {s t u : State} {m n : Nat} (h : Sys2Proof.core.run m s = .next t) (hn : Sys2Proof.core.run n t = .next u) :
    Sys2Proof.core.run (m + n) s = .next u := by
  induction m generalizing s with
  | zero =>
    cases h
    rwa [Nat.zero_add]
  | succ m ih =>
    obtain ⟨s', hs, hm⟩ := run_succ_next.mp h
    rw [Nat.succ_add]
    exact run_succ_next.mpr ⟨s', hs, ih hm⟩

/-- An idle block on an empty queue stays as it is. -/
theorem run_idle {s : State} (hc : s.Coherent) (hb : s.busy = false) (hi : s.inputs = []) (n : Nat) :
    Sys2Proof.core.run n s = .next s := by
  induction n with
  | zero => rfl
  | succ n ih => exact run_succ_next.mpr ⟨s, (step_of_nil hc hi).trans (engineTurn_idle hb), ih⟩

/-- An operation on an empty queue ends and then stays as it is. -/
theorem run_of_finishes {s u : State} {n : Nat} (h : Finishes s n u) (hinv : s.Inv) (hi : s.inputs = []) {m : Nat}
    (hm : n ≤ m) : Sys2Proof.core.run m s = .next u := by
  induction h generalizing m with
  | done hb => exact run_idle hinv.coherent hb hi m
  | turn hb ht _ ih =>
    obtain ⟨m, rfl⟩ := Nat.exists_eq_add_of_lt hm
    exact run_succ_next.mpr ⟨_, (step_of_nil hinv.coherent hi).trans ht,
      ih (engineTurn_keeps_inv hinv ht) ((engineTurn_keeps_port hinv.coherent ht).1.trans hi) (by omega)⟩

theorem step_setPort_engine {s : State} (hc : s.Coherent) (rest : List Input) (reads : List Nat) :
    step (s.setPort (.engine :: rest) reads) = engineTurn (s.setPort rest reads) :=
  step_of_cons (s := s.setPort (.engine :: rest) reads) (e := .engine) (rest := rest) hc rfl

/-- An operation whose turns wait in the queue ends with the rest of the queue. -/
theorem run_of_finishes_queue {s u : State} {n : Nat} (h : Finishes s n u) (hinv : s.Inv) (rest : List Input)
    (reads : List Nat) :
    Sys2Proof.core.run n (s.setPort (List.replicate n .engine ++ rest) reads) = .next (u.setPort rest reads) := by
  induction h with
  | done => rfl
  | @turn s t u n hb ht _ ih =>
    rw [List.replicate_succ, List.cons_append]
    exact run_succ_next.mpr ⟨t.setPort (List.replicate n .engine ++ rest) reads,
      (step_setPort_engine hinv.coherent _ reads).trans (engineTurn_setPort_next hinv.coherent ht _ reads),
      ih (engineTurn_keeps_inv hinv ht)⟩

/-! ### Polls -/

/-- Turns given to the engine between two polls: enough of them end the operation, fewer leave the rest of it. -/
theorem hostDoAll_engine_of_finishes {s u : State} {n : Nat} (h : Finishes s n u) (hinv : s.Inv) (m : Nat) :
    (n ≤ m → hostDoAll (List.replicate m .engine) s = .ok u) ∧
      (m < n → ∃ t, hostDoAll (List.replicate m .engine) s = .ok t ∧ t.Inv ∧ t.inputs = s.inputs ∧ t.busy = true ∧
        Finishes t (n - m) u) := by
  induction m generalizing s n with
  | zero =>
    refine ⟨fun hn => ?_, fun hn => ⟨s, rfl, hinv, rfl, ?_, h⟩⟩
    · cases h with
      | done => rfl
      | turn => omega
    · cases h with
      | done => omega
      | turn hb => exact hb
  | succ m ih =>
    cases h with
    | done hb hd => exact ⟨fun _ => hostDoAll_engine_idle hinv.coherent hb _, fun hn => by omega⟩
    | @turn _ t _ n hb ht hrest =>
      obtain ⟨henough, hfew⟩ := ih hrest (engineTurn_keeps_inv hinv ht)
      rw [List.replicate_succ, hostDoAll_cons (hostDo_of_perform (e := .engine) hinv.coherent ht), Nat.add_sub_add_right,
        ← (engineTurn_keeps_port hinv.coherent ht).1]
      exact ⟨fun hn => henough (by omega), fun hn => hfew (by omega)⟩

/-- R84: polling ends once the engine has had the operation's turns; with fewer the host is still polling a busy block. -/
theorem awaitDone_of_finishes {s u : State} {n : Nat} {polls : List Nat} (h : Finishes s n u) (hinv : s.Inv)
    (hb : s.busy = true) :
    (n ≤ polls.sum → ∃ reads, awaitDone polls s = .ok (u.status, u.setPort s.inputs reads)) ∧
      (polls.sum < n → ∃ t, awaitDone polls s = .error (.stillPolling t) ∧ t.busy = true ∧ t.done = false) := by
  induction polls generalizing s u n with
  | nil =>
    refine ⟨fun hn => ?_, fun _ => ⟨s, rfl, hb, (hinv.coherent.of_busy hb).2.1⟩⟩
    cases h with
    | done hidle => exact absurd (hb.symm.trans hidle) Bool.noConfusion
    | turn => simp at hn
  | cons m polls ih =>
    obtain ⟨henough, hfew⟩ := hostDoAll_engine_of_finishes h hinv m
    rw [List.sum_cons]
    rcases Nat.lt_or_ge m n with hm | hm
    · obtain ⟨t, hturns, htinv, htinputs, htb, hrest⟩ := hfew hm
      have hport := hrest.setPort htinv t.inputs (t.status :: t.reads)
      have hd : ¬ t.done = true := by simp [(htinv.coherent.of_busy htb).2.1]
      obtain ⟨ihDone, ihBusy⟩ := ih hport (htinv.setPort t.inputs (t.status :: t.reads)) htb
      rw [awaitDone_cons htinv.coherent hturns, if_neg hd]
      refine ⟨fun hn => ?_, fun hn => ihBusy (by omega)⟩
      obtain ⟨reads, hreads⟩ := ihDone (by omega)
      exact ⟨reads, htinputs ▸ hreads⟩
    · have huinv := h.inv hinv
      rw [awaitDone_cons huinv.coherent (henough hm), if_pos h.end_idle.2, ← h.keeps_inputs hinv]
      exact ⟨fun _ => ⟨u.status :: u.reads, rfl⟩, fun hn => by omega⟩

end Sys2Proof.Machine
end

section
/-! A whole ENCODE (41_encoder.md R101 to R108): the pairs that are left, the tail, the closing delimiter. -/

namespace Sys2Proof.Machine

/-! ### A sequence in a buffer -/

/-- The cells from `a` on hold a sequence. -/
def Memory.Holds (m : List Host.Cell) (a : Nat) (l : List Byte) : Prop := ∀ i < l.length, Memory.read m (a + i) = l[i]?

theorem Memory.holds_nil (m : List Host.Cell) (a : Nat) : Memory.Holds m a [] := fun _ h => absurd h (Nat.not_lt_zero _)

theorem Memory.holds_append {m : List Host.Cell} {a : Nat} {l l' : List Byte} :
    Memory.Holds m a (l ++ l') ↔ Memory.Holds m a l ∧ Memory.Holds m (a + l.length) l' := by
  constructor
  · intro h
    refine ⟨fun i hi => ?_, fun i hi => ?_⟩
    · rw [h i (by rw [List.length_append]; omega), List.getElem?_append_left hi]
    · rw [Nat.add_assoc, h (l.length + i) (by rw [List.length_append]; omega),
        List.getElem?_append_right (Nat.le_add_right _ _), Nat.add_sub_cancel_left]
  · rintro ⟨hl, hl'⟩ i hi
    rcases Nat.lt_or_ge i l.length with hlt | hge
    · rw [hl i hlt, List.getElem?_append_left hlt]
    · rw [List.length_append] at hi
      rw [List.getElem?_append_right hge, ← hl' (i - l.length) (by omega), Nat.add_assoc, Nat.add_sub_cancel' hge]

theorem Memory.holds_singleton {m : List Host.Cell} {a : Nat} {v : Byte} :
    Memory.Holds m a [v] ↔ Memory.read m a = some v := by
  refine ⟨fun h => h 0 Nat.one_pos, fun h i hi => ?_⟩
  obtain rfl : i = 0 := Nat.lt_one_iff.mp hi
  exact h

theorem Memory.holds_cons {m : List Host.Cell} {a : Nat} {v : Byte} {l : List Byte} :
    Memory.Holds m a (v :: l) ↔ Memory.read m a = some v ∧ Memory.Holds m (a + 1) l :=
  Memory.holds_append (l := [v]).trans (and_congr_left' Memory.holds_singleton)

/-- A sequence stays where the cells read as before. -/
theorem Memory.Holds.congr {m m' : List Host.Cell} {a : Nat} {l : List Byte} (h : Memory.Holds m a l)
    (hsame : ∀ b, a ≤ b → b < a + l.length → Memory.read m' b = Memory.read m b) : Memory.Holds m' a l := fun i hi =>
  (hsame _ (Nat.le_add_right _ _) (Nat.add_lt_add_left hi a)).trans (h i hi)

/-- Stores of a sequence to successive cells leave it there and every other cell as it was. -/
theorem Memory.holds_writeAll (m : List Host.Cell) (a : Nat) (l : List Byte) :
    let m' := Memory.writeAll m ((l.zipIdx a).map Prod.swap)
    Memory.Holds m' a l ∧ ∀ b, b < a ∨ a + l.length ≤ b → Memory.read m' b = Memory.read m b := by
  induction l generalizing m a with
  | nil => exact ⟨Memory.holds_nil _ _, fun _ _ => rfl⟩
  | cons v l ih =>
    obtain ⟨hrest, hframe⟩ := ih (Memory.write m a v) (a + 1)
    refine ⟨Memory.holds_cons.mpr ⟨?_, hrest⟩, fun b hb => ?_⟩
    · exact (hframe a (.inl (Nat.lt_succ_self a))).trans ((Memory.read_write m a a v).trans (if_pos rfl))
    · rw [List.length_cons] at hb
      exact (hframe b (by omega)).trans ((Memory.read_write m a b v).trans (if_neg (by omega)))

theorem State.HoldsRaw.holds {s : State} {bytes : List Byte} (h : s.HoldsRaw bytes) : Memory.Holds s.raw 0 bytes :=
  fun i hi => (congrArg (Memory.read s.raw) (Nat.zero_add i)).trans (h.2 i hi)

/-! ### One pair -/

/-- Encoding is at a pair: the bytes that are left, from byte `2K` on. -/
structure State.EncodesFrom (s : State) (rest : List Byte) : Prop where
  inv : s.Inv
  phase : s.phase = .encBody
  len : s.rawLen = 2 * s.k + rest.length
  cells : Memory.Holds s.raw (2 * s.k) rest

/-- The state after EPAIR (R103). -/
def State.encodePair (s : State) (b0 b1 : Byte) : State :=
  { s with
    str := Memory.writeAll s.str
      (groupCells s.cfg s.k s.c (hiField b0) (midField b0) (loField b0) (upperNibble b1) (lowerNibble b1))
    c := ckUpd s.c b0 b1
    k := s.k + 1 }

theorem mem_groupCells_letter (cfg : Config) (k : Nat) (c : Checksum) (b0 b1 : Byte) {j : Nat} (hj : j ≤ 4) :
    (letterAt cfg k j, groupLetter c b0 b1 j) ∈
      groupCells cfg k c (hiField b0) (midField b0) (loField b0) (upperNibble b1) (lowerNibble b1) := by
  rcases (by omega : j = 0 ∨ j = 1 ∨ j = 2 ∨ j = 3 ∨ j = 4) with rfl | rfl | rfl | rfl | rfl <;> simp [groupCells, groupLetter]

theorem mem_groupCells_hyphen (cfg : Config) (k : Nat) (c : Checksum) (hi : BitVec 2) (mid : BitVec 4) (lo : BitVec 2)
    (n1 n0 : BitVec 4) : (hyphenAt cfg k, hyphen) ∈ groupCells cfg k c hi mid lo n1 n0 := by simp [groupCells]

/-- R103: the stores of EPAIR are the pair group. -/
theorem State.encodePair_str (s : State) (b0 b1 : Byte) :
    Memory.Holds (s.encodePair b0 b1).str (groupStart s.k) (pairGroup s.cfg s.c b0 b1) ∧
      ∀ a, a < groupStart s.k ∨ groupStart (s.k + 1) ≤ a →
        Memory.read (s.encodePair b0 b1).str a = Memory.read s.str a := by
  have hd := groupCells_nodup s.cfg s.k s.c (hiField b0) (midField b0) (loField b0) (upperNibble b1) (lowerNibble b1)
  have hbounds := groupCells_bounds s.cfg s.k s.c (hiField b0) (midField b0) (loField b0) (upperNibble b1) (lowerNibble b1)
  refine ⟨fun q hq => ?_, fun a ha => Memory.read_writeAll_of_not_mem _ _ _ fun cell hm => ?_⟩
  · rw [length_pairGroup] at hq
    by_cases hne : q = s.cfg.hyphenSlot.offset
    · rw [hne, pairGroup_hyphen]
      exact Memory.read_writeAll_of_mem hd (mem_groupCells_hyphen ..)
    · obtain ⟨j, hj, rfl⟩ := exists_letterOffset s.cfg hq hne
      rw [pairGroup_letter _ _ _ _ hj]
      exact Memory.read_writeAll_of_mem hd (mem_groupCells_letter _ _ _ _ _ hj)
  · have := hbounds cell hm
    unfold groupStart at ha
    omega

theorem State.EncodesFrom.busy {s : State} {rest : List Byte} (h : s.EncodesFrom rest) : s.busy = true :=
  (h.inv.coherent.of_phase (by simp [h.phase])).1

/-- EPAIR (R103) while two bytes are left. -/
theorem State.EncodesFrom.turn {s : State} {b0 b1 : Byte} {rest : List Byte} (h : s.EncodesFrom (b0 :: b1 :: rest)) :
    engineTurn s = .next (s.encodePair b0 b1) ∧ (s.encodePair b0 b1).EncodesFrom rest := by
  have hlen := h.len
  simp only [List.length_cons] at hlen
  have hk : s.k < s.rawLen / 2 := by omega
  obtain ⟨h0, hcells⟩ := Memory.holds_cons.mp h.cells
  obtain ⟨h1, hrest⟩ := Memory.holds_cons.mp hcells
  have hturn : engineTurn s = .next (s.encodePair b0 b1) :=
    (engineTurn_of_decode h.busy (decode_sel_epair h.phase hk.ne)).trans
      (execEpair_of_enabled h.inv.coherent h.phase hk h0 h1)
  have hk' : 2 * (s.k + 1) = 2 * s.k + 1 + 1 := by omega
  have hlen' : s.rawLen = 2 * (s.k + 1) + rest.length := by omega
  have hrest' : Memory.Holds s.raw (2 * (s.k + 1)) rest := hk' ▸ hrest
  exact ⟨hturn, engineTurn_keeps_inv h.inv hturn, h.phase, hlen', hrest'⟩

/-! ### Tail and end -/

/-- The end of an ENCODE (R107, R108). -/
def State.endEncode (m : List Host.Cell) (c : Checksum) (k : Nat) (s : State) : State :=
  { s with str := m, strLen := 6 * k + 5, c := c, k := k, phase := .idle, busy := false, done := true }

/-- ETAILB or ETAILC (R104, R105): the three letters of the tail. -/
theorem State.EncodesFrom.tail_turn {s : State} {rest : List Byte} (h : s.EncodesFrom rest) (hlt : rest.length < 2) :
    ∃ u v w, encFrom s.cfg s.c rest = [u, v, w] ∧
      engineTurn s = .next { s with
        str := Memory.writeAll s.str [(groupStart s.k, u), (groupStart s.k + 1, v), (groupStart s.k + 2, w)]
        phase := .encClose } := by
  have hlen := h.len
  have hk : s.k = s.rawLen / 2 := by omega
  have hturn := engineTurn_of_decode h.busy (decode_sel_etail h.phase hk)
  match rest with
  | [] =>
    have he : s.rawLen % 2 = 0 := by rw [hlen]; simp
    rw [if_neg (by omega)] at hturn
    exact ⟨_, _, _, rfl, hturn.trans (execEtailc_of_enabled h.inv.coherent h.phase hk he)⟩
  | [b0] =>
    have ho : s.rawLen % 2 = 1 := by rw [hlen]; simp
    have h0 := Memory.holds_singleton.mp h.cells
    rw [if_pos ho] at hturn
    exact ⟨_, _, _, rfl, hturn.trans (execEtailb_of_enabled h.inv.coherent h.phase hk ho h0)⟩

/-- The tail and the closing delimiter: two turns (R104 to R107). -/
theorem State.EncodesFrom.finishes_tail {s : State} {rest : List Byte} (h : s.EncodesFrom rest) (hlt : rest.length < 2) :
    ∃ m, Finishes s 2 (s.endEncode m s.c s.k) ∧
      Memory.Holds m (groupStart s.k) (encFrom s.cfg s.c rest ++ [delimiter]) ∧
      ∀ a, a < groupStart s.k ∨ 6 * s.k + 5 ≤ a → Memory.read m a = Memory.read s.str a := by
  obtain ⟨u, v, w, henc, hturn⟩ := h.tail_turn hlt
  have hinv := engineTurn_keeps_inv h.inv hturn
  have hclose := (engineTurn_of_decode (s := { s with
      str := Memory.writeAll s.str [(groupStart s.k, u), (groupStart s.k + 1, v), (groupStart s.k + 2, w)]
      phase := .encClose }) h.busy (decode_sel_encClose rfl)).trans (execEclose_of_enabled hinv.kLe rfl)
  obtain ⟨hholds, hframe⟩ := Memory.holds_writeAll s.str (groupStart s.k) [u, v, w, delimiter]
  have hlast : 6 * s.k + 4 = groupStart s.k + 3 := by unfold groupStart; omega
  rw [hlast] at hclose
  refine ⟨_, .turn h.busy hturn (.last h.busy hclose rfl rfl), ?_, fun a ha => hframe a ?_⟩
  · rw [henc]
    exact hholds
  · unfold groupStart at ha ⊢
    simp only [List.length_cons, List.length_nil]
    omega

/-- All that is left of an ENCODE in its body (R103 to R108): a turn for every pair and two for the tail. -/
theorem State.EncodesFrom.finishes {s : State} {rest : List Byte} (h : s.EncodesFrom rest) :
    ∃ m, Finishes s (rest.length / 2 + 2) (s.endEncode m (checksumFrom s.c rest) (s.k + rest.length / 2)) ∧
      Memory.Holds m (groupStart s.k) (encFrom s.cfg s.c rest ++ [delimiter]) ∧
      ∀ a, a < groupStart s.k ∨ 6 * (s.k + rest.length / 2) + 5 ≤ a → Memory.read m a = Memory.read s.str a := by
  match rest, h with
  | [], h => exact h.finishes_tail (by simp)
  | [b0], h =>
    have hzero : [b0].length / 2 = 0 := Nat.div_eq_of_lt Nat.one_lt_two
    rw [hzero]
    exact h.finishes_tail (by simp)
  | b0 :: b1 :: rest, h =>
    obtain ⟨hturn, hnext⟩ := h.turn
    obtain ⟨hgroup, hkeep⟩ := s.encodePair_str b0 b1
    obtain ⟨m, hfin, hrest, hframe⟩ := State.EncodesFrom.finishes hnext
    have hhalf : (b0 :: b1 :: rest).length / 2 = rest.length / 2 + 1 := by simp only [List.length_cons]; omega
    have hk : s.k + (rest.length / 2 + 1) = s.k + 1 + rest.length / 2 := by omega
    have hstart : groupStart (s.k + 1) = groupStart s.k + 6 := by unfold groupStart; omega
    have hpair : ∀ a, a < groupStart (s.k + 1) ∨ 6 * (s.k + 1 + rest.length / 2) + 5 ≤ a →
        Memory.read m a = Memory.read (s.encodePair b0 b1).str a := hframe
    rw [hhalf, hk, checksumFrom_pair, encFrom_pair, List.append_assoc]
    refine ⟨m, .turn h.busy hturn hfin, Memory.holds_append.mpr ⟨hgroup.congr fun b _ hb => ?_, ?_⟩, fun a ha => ?_⟩
    · rw [length_pairGroup, ← hstart] at hb
      exact hpair b (.inl hb)
    · rw [length_pairGroup, ← hstart]
      exact hrest
    · exact (hpair a (by unfold groupStart at ha ⊢; omega)).trans (hkeep a (by unfold groupStart at ha ⊢; omega))

/-! ### The whole operation -/

/-- EOPEN (R102). -/
theorem encOpen_turn {s : State} {bytes : List Byte} (hinv : s.Inv) (hp : s.phase = .encOpen) (hraw : s.HoldsRaw bytes) :
    let t := { s with str := Memory.writeAll s.str [(0, delimiter)], c := ckInit, k := 0, phase := .encBody }
    s.busy = true ∧ engineTurn s = .next t ∧ t.EncodesFrom bytes := by
  obtain ⟨hb, -⟩ := hinv.coherent.of_phase (by simp [hp])
  have hturn := (engineTurn_of_decode hb (decode_sel_encOpen hp)).trans (execEopen_of_enabled hp)
  exact ⟨hb, hturn, engineTurn_keeps_inv hinv hturn, rfl, by simpa using hraw.1, hraw.holds⟩

/-- R108: from EOPEN on. -/
theorem encode_finishes {s : State} {bytes : List Byte} (hinv : s.Inv) (hp : s.phase = .encOpen) (hraw : s.HoldsRaw bytes) :
    ∃ m, Finishes s (bytes.length / 2 + 3) (s.endEncode m (checksumFrom 1 bytes) (bytes.length / 2)) ∧
      (∀ a, a < 6 * (bytes.length / 2) + 5 → Memory.read m a = (enc s.cfg bytes)[a]?) ∧
      ∀ a, 6 * (bytes.length / 2) + 5 ≤ a → Memory.read m a = Memory.read s.str a := by
  obtain ⟨hb, hturn, hfrom⟩ := encOpen_turn hinv hp hraw
  obtain ⟨m, hfin, hholds, hframe⟩ := hfrom.finishes
  obtain ⟨hfirst, hkeep⟩ := Memory.read_writeAll_singleton s.str 0 delimiter
  simp only [Nat.zero_add] at hfin hframe
  refine ⟨m, .turn hb hturn hfin, fun a ha => ?_, fun a ha => ?_⟩
  · cases a with
    | zero => exact (hframe 0 (.inl Nat.one_pos)).trans hfirst
    | succ a =>
      rw [getElem?_enc_succ, Nat.add_comm a 1]
      refine hholds a ?_
      rw [List.length_append, length_encFrom, List.length_singleton]
      omega
  · exact (hframe a (.inr ha)).trans (hkeep a (by omega))

/-- CMD_ENCODE to an idle block (R153). -/
theorem encode_command {s : State} {rest : List Input} (hinv : s.Inv) (hb : s.busy = false)
    (hi : s.inputs = .writeReg 0 1 :: rest) :
    step s = .next (acceptCommand .encode .encOpen { s with inputs := rest }) ∧
      (acceptCommand .encode .encOpen { s with inputs := rest }).Inv :=
  ⟨(step_writeCtrl hinv.coherent hi).trans ((writeCtrl_encode rfl _).trans (execCmdEncode_idle hb)),
    (hinv.hostSide s.c rest s.reads s.draws s.losses).acceptCommand (.inl rfl)⟩

/-- Settles O48: the command, then the operation on an empty queue. -/
theorem encodeOperationComputesEnc : Obligations.EncodeOperationComputesEnc := by
  intro s bytes hinv hb hi hraw
  obtain ⟨hstep, hstart⟩ := encode_command hinv hb hi
  obtain ⟨m, hfin, hholds, hframe⟩ := encode_finishes hstart rfl hraw
  refine ⟨_, run_add (run_succ_next.mpr ⟨_, hstep, rfl⟩) (run_of_finishes hfin hstart rfl le_rfl), rfl, hholds, hframe⟩

/-- R95, for ENCODE: `k` turns from EPAIR on are `k` pairs. -/
theorem State.EncodesFrom.run {s : State} {rest : List Byte} (h : s.EncodesFrom rest) (hi : s.inputs = []) {k : Nat}
    (hk : k ≤ rest.length / 2) :
    ∃ t, Sys2Proof.core.run k s = .next t ∧ t.phase = .encBody ∧ t.k = s.k + k ∧
      t.c = checksumFrom s.c (rest.take (2 * k)) := by
  induction k generalizing s rest with
  | zero => exact ⟨s, rfl, h.phase, rfl, rfl⟩
  | succ k ih =>
    obtain ⟨b0, b1, rest, rfl⟩ := exists_pair_of_length (bytes := rest) (by omega)
    obtain ⟨hturn, hnext⟩ := h.turn
    obtain ⟨t, hrun, hp, hkt, hct⟩ := ih hnext hi (by simp only [List.length_cons] at hk; omega)
    have hsum : s.k + 1 + k = s.k + (k + 1) := by omega
    exact ⟨t, run_succ_next.mpr ⟨_, (step_of_nil h.inv.coherent hi).trans hturn, hrun⟩, hp, hkt.trans hsum, hct⟩

end Sys2Proof.Machine
end

section
/-! A whole DECODE (42_decoder.md R121 to R132): the frame, the groups that are left, the tail, and the two ways it ends; and the
checksum that both operations go through (40_checksum.md R95). -/

namespace Sys2Proof.Machine

/-! ### One group -/

/-- Decoding is at a group: `n` groups, the tail and the closing delimiter are left, the hyphen slots apart. -/
structure State.DecodesFrom (s : State) (n : Nat) (rest : List Byte) : Prop where
  inv : s.Inv
  phase : s.phase = .decBody
  groups : (s.strLen - 5) / 6 = s.k + n
  len : rest.length = 6 * n + 4
  cells : ∀ i < rest.length, (i < 6 * n → i % 6 ≠ s.cfg.hyphenSlot.offset) →
    Memory.read s.str (groupStart s.k + i) = rest[i]?

/-- The state after a DPAIR without error (R127). -/
def State.decodePair (s : State) (b : Byte × Byte) : State :=
  { s with raw := Memory.writeAll s.raw [(2 * s.k, b.1), (2 * s.k + 1, b.2)], c := ckUpd s.c b.1 b.2, k := s.k + 1 }

theorem State.DecodesFrom.busy {s : State} {n : Nat} {rest : List Byte} (h : s.DecodesFrom n rest) : s.busy = true :=
  (h.inv.coherent.of_phase (by simp [h.phase])).1

/-- The six characters in front and what is behind them. -/
theorem State.DecodesFrom.split {s : State} {n : Nat} {chars : List Byte} (h : s.DecodesFrom (n + 1) chars) :
    ∃ g rest, chars = g ++ rest ∧ g.length = 6 := by
  have hlen := h.len
  exact ⟨chars.take 6, chars.drop 6, (List.take_append_drop 6 chars).symm, by rw [List.length_take]; omega⟩

theorem State.DecodesFrom.turn_eq {s : State} {n : Nat} {chars : List Byte} (h : s.DecodesFrom (n + 1) chars) :
    engineTurn s = execDpair s :=
  engineTurn_of_decode h.busy (decode_sel_dpair h.phase (by rw [h.groups]; omega))

section
variable {s : State} {n : Nat} {g rest : List Byte} (h : s.DecodesFrom (n + 1) (g ++ rest)) (hg : g.length = 6)
include h hg

theorem State.DecodesFrom.read_letter {j : Nat} (hj : j ≤ 4) :
    Memory.read s.str (letterAt s.cfg s.k j) = some (g.getD (letterOffset s.cfg j) 0) := by
  obtain ⟨hlt, hne⟩ := letterOffset_bounds s.cfg hj
  have hlen : letterOffset s.cfg j < g.length := hg ▸ hlt
  have hread := h.cells (letterOffset s.cfg j) (by rw [List.length_append]; omega)
    fun _ => by rwa [Nat.mod_eq_of_lt hlt]
  rw [letterAt, hread, List.getElem?_append_left hlen, List.getD_eq_getElem _ _ hlen, List.getElem?_eq_getElem hlen]

/-- R127 against R130: what DPAIR reads is what `decPair` is given. -/
theorem State.DecodesFrom.decodeGroup_eq : decodeGroup s = orRaise (decPair s.cfg s.c (groupStart s.k) g) := by
  have hk : s.k < s.cfg.kMax := by
    have hle := h.inv.coherent.decBody_groups_le h.phase
    rw [h.groups] at hle
    omega
  rw [decodeGroup_of_letters hk (h.read_letter hg (by decide)) (h.read_letter hg (by decide))
    (h.read_letter hg (by decide)) (h.read_letter hg (by decide)) (h.read_letter hg (by decide))]
  simp only [decPair, orRaise_bind, letterAt, orRaise_ok_eq]

/-- DPAIR of a group that is rejected. -/
theorem State.DecodesFrom.turn_of_failure {f : Failure} (hf : decPair s.cfg s.c (groupStart s.k) g = .error f) :
    engineTurn s = .next (raiseError f.1 f.2 s) :=
  h.turn_eq.trans (execDpair_of_raise h.phase (by rw [h.groups]; omega)
    ((h.decodeGroup_eq hg).trans (congrArg orRaise hf)))

/-- DPAIR of a group that is accepted. -/
theorem State.DecodesFrom.turn {b : Byte × Byte} (hb : decPair s.cfg s.c (groupStart s.k) g = .ok b) :
    engineTurn s = .next (s.decodePair b) ∧ (s.decodePair b).DecodesFrom n rest := by
  have hturn : engineTurn s = .next (s.decodePair b) :=
    h.turn_eq.trans (execDpair_of_group h.inv.coherent h.phase (by rw [h.groups]; omega)
      ((h.decodeGroup_eq hg).trans (congrArg orRaise hb)))
  have hgroups : (s.strLen - 5) / 6 = s.k + 1 + n := by rw [h.groups]; omega
  have hlen := h.len
  rw [List.length_append] at hlen
  refine ⟨hturn, engineTurn_keeps_inv h.inv hturn, h.phase, hgroups, by omega, fun i hi hslot => ?_⟩
  have hread := h.cells (6 + i) (by rw [List.length_append]; omega) fun hlt => by
    rw [Nat.add_mod_left]
    exact hslot (by omega)
  have hoff : groupStart s.k + (6 + i) = groupStart (s.k + 1) + i := by unfold groupStart; omega
  rw [List.getElem?_append_right (by omega), hg, Nat.add_sub_cancel_left, hoff] at hread
  exact hread

end

/-! ### The two ends -/

/-- A DECODE that ends without error (R128). -/
def State.endDecode (m : List Host.Cell) (rawLen : Nat) (c : Checksum) (k : Nat) (s : State) : State :=
  { s with raw := m, rawLen := rawLen, c := c, k := k, phase := .idle, busy := false, done := true }

/-- `u` is the state `s` with a DECODE ended by a failure, after at most `kt` groups (R178). -/
structure State.Rejects (s : State) (f : Failure) (kt : Nat) (u : State) : Prop where
  state : u = { s with raw := u.raw, rawLen := 0, c := u.c, k := u.k, phase := .idle, busy := false, done := true, err := true,
                       errCode := f.1.errCode, errPos := f.2, losses := u.losses }
  kLe : u.k ≤ kt
  lost : ∀ a, a < 2 * u.k → Memory.read u.raw a = none
  kept : ∀ a, 2 * u.k ≤ a → Memory.read u.raw a = Memory.read s.raw a

theorem State.rejects_raiseError (s : State) (f : Failure) : s.Rejects f s.k (raiseError f.1 f.2 s) :=
  ⟨rfl, le_rfl, fun _ ha => read_raiseError_raw_of_lt f.1 f.2 ha, fun _ ha => read_raiseError_raw_of_le f.1 f.2 ha⟩

theorem State.Rejects.mono {s u : State} {f : Failure} {m n : Nat} (h : s.Rejects f m u) (hmn : m ≤ n) : s.Rejects f n u :=
  ⟨h.state, h.kLe.trans hmn, h.lost, h.kept⟩

/-- R178: the string is kept. -/
theorem State.Rejects.holdsStr {s u : State} {f : Failure} {kt : Nat} {chars : List Byte} (h : s.Rejects f kt u)
    (hstr : s.HoldsStr chars) : u.HoldsStr chars := by
  rw [h.state]
  exact hstr

/-- `C`, `K` and PHASE of the state before do not matter. -/
theorem State.Rejects.of_open {s u : State} {f : Failure} {kt k : Nat} {c : Checksum} {p : Phase}
    (h : State.Rejects { s with c := c, k := k, phase := p } f kt u) : s.Rejects f kt u :=
  ⟨h.state, h.kLe, h.lost, h.kept⟩

/-- Nor does a byte pair that is forgotten again. -/
theorem State.Rejects.of_decodePair {s u : State} {f : Failure} {kt : Nat} {b : Byte × Byte}
    (h : (s.decodePair b).Rejects f kt u) (hk : s.k + 1 ≤ u.k) : s.Rejects f kt u := by
  obtain ⟨-, -, hframe⟩ := Memory.read_writeAll_pair s.raw s.k b.1 b.2
  exact ⟨h.state, h.kLe, h.lost, fun a ha => (h.kept a ha).trans (hframe a (by omega) (by omega))⟩

/-- The tail: three characters there and DTAIL selected. -/
theorem State.DecodesFrom.tail {s : State} {chars : List Byte} (h : s.DecodesFrom 0 chars) :
    ∃ t0 t1 t2 x, chars = [t0, t1, t2, x] ∧ s.k = (s.strLen - 5) / 6 ∧ engineTurn s = execDtail s ∧
      Memory.read s.str (groupStart s.k) = some t0 ∧ Memory.read s.str (groupStart s.k + 1) = some t1 ∧
      Memory.read s.str (groupStart s.k + 2) = some t2 := by
  have hk : s.k = (s.strLen - 5) / 6 := h.groups.symm
  match chars, h with
  | [t0, t1, t2, x], h =>
    refine ⟨t0, t1, t2, x, rfl, hk, engineTurn_of_decode h.busy (decode_sel_dtail h.phase hk), ?_, ?_, ?_⟩
    · exact h.cells 0 (by simp) (by simp)
    · exact h.cells 1 (by simp) (by simp)
    · exact h.cells 2 (by simp) (by simp)

/-- R128: a tail that is accepted ends the operation. -/
theorem State.DecodesFrom.finishes_tail {s : State} {chars bytes : List Byte} (h : s.DecodesFrom 0 chars)
    (hdec : decFrom s.cfg s.c (groupStart s.k) chars = .ok bytes) :
    ∃ m, Finishes s 1 (s.endDecode m (2 * s.k + bytes.length) (checksumFrom s.c bytes) s.k) ∧
      Memory.Holds m (2 * s.k) bytes ∧
      ∀ a, a < 2 * s.k ∨ 2 * s.k + bytes.length ≤ a → Memory.read m a = Memory.read s.raw a := by
  obtain ⟨t0, t1, t2, x, rfl, hk, hturn, h0, h1, h2⟩ := h.tail
  rw [decFrom_tail] at hdec
  obtain ⟨last, hlast, hbytes⟩ := bind_ok hdec
  cases hbytes
  cases last with
  | none =>
    have hexec := execDtail_of_checksum h.inv.coherent h.phase hk h0 h1 h2 hlast
    exact ⟨s.raw, .last h.busy (hturn.trans hexec) rfl rfl, Memory.holds_nil _ _, fun _ _ => rfl⟩
  | some b =>
    have hexec := execDtail_of_byte h.inv.coherent h.phase hk h0 h1 h2 hlast
    obtain ⟨hholds, hframe⟩ := Memory.holds_writeAll s.raw (2 * s.k) [b]
    exact ⟨_, .last h.busy (hturn.trans hexec) rfl rfl, hholds, hframe⟩

/-- R128, R178: a tail that is rejected ends it too. -/
theorem State.DecodesFrom.rejects_tail {s : State} {chars : List Byte} {f : Failure} (h : s.DecodesFrom 0 chars)
    (hdec : decFrom s.cfg s.c (groupStart s.k) chars = .error f) : Finishes s 1 (raiseError f.1 f.2 s) := by
  obtain ⟨t0, t1, t2, x, rfl, hk, hturn, h0, h1, h2⟩ := h.tail
  rw [decFrom_tail] at hdec
  rcases bind_error hdec with htail | ⟨last, -, hok⟩
  · exact .last h.busy (hturn.trans (execDtail_of_failure h.inv.coherent h.phase hk h0 h1 h2 htail)) rfl rfl
  · cases hok

/-- All that is left of a DECODE that is accepted (R127 to R130): a turn for every group and one for the tail. -/
theorem State.DecodesFrom.finishes {s : State} {n : Nat} {chars bytes : List Byte} (h : s.DecodesFrom n chars)
    (hdec : decFrom s.cfg s.c (groupStart s.k) chars = .ok bytes) :
    ∃ m, Finishes s (n + 1) (s.endDecode m (2 * s.k + bytes.length) (checksumFrom s.c bytes) (s.k + n)) ∧
      Memory.Holds m (2 * s.k) bytes ∧
      ∀ a, a < 2 * s.k ∨ 2 * s.k + bytes.length ≤ a → Memory.read m a = Memory.read s.raw a := by
  induction n generalizing s chars bytes with
  | zero => exact h.finishes_tail hdec
  | succ n ih =>
    obtain ⟨g, rest, rfl, hg⟩ := h.split
    rw [decFrom_append_group hg] at hdec
    obtain ⟨b, hb, hdec⟩ := bind_ok hdec
    obtain ⟨more, hmore, hdec⟩ := bind_ok hdec
    cases hdec
    obtain ⟨hturn, hnext⟩ := h.turn hg hb
    obtain ⟨h0, h1, hkeep⟩ := Memory.read_writeAll_pair s.raw s.k b.1 b.2
    have hstart : groupStart (s.k + 1) = groupStart s.k + 6 := by unfold groupStart; omega
    obtain ⟨m, hfin, hholds, hframe⟩ := ih hnext (hstart ▸ hmore)
    have htwo : 2 * (s.k + 1) = 2 * s.k + 1 + 1 := by omega
    have hlen : 2 * s.k + (b.1 :: b.2 :: more).length = 2 * (s.k + 1) + more.length := by
      simp only [List.length_cons]
      omega
    have hk : s.k + (n + 1) = s.k + 1 + n := by omega
    have hpair : ∀ a, a < 2 * (s.k + 1) ∨ 2 * (s.k + 1) + more.length ≤ a →
        Memory.read m a = Memory.read (s.decodePair b).raw a := hframe
    rw [hlen, hk, checksumFrom_pair]
    refine ⟨m, .turn h.busy hturn hfin, Memory.holds_cons.mpr ⟨?_, Memory.holds_cons.mpr ⟨?_, htwo ▸ hholds⟩⟩, fun a ha => ?_⟩
    · exact (hpair _ (by omega)).trans h0
    · exact (hpair _ (by omega)).trans h1
    · exact (hpair a (by omega)).trans (hkeep a (by omega) (by omega))

/-- All that is left of a DECODE that is rejected (R131, R178): at most as many turns. -/
theorem State.DecodesFrom.rejects {s : State} {n : Nat} {chars : List Byte} {f : Failure} (h : s.DecodesFrom n chars)
    (hdec : decFrom s.cfg s.c (groupStart s.k) chars = .error f) :
    ∃ l u, l ≤ n + 1 ∧ Finishes s l u ∧ s.k ≤ u.k ∧ s.Rejects f (s.k + n) u := by
  induction n generalizing s chars with
  | zero => exact ⟨1, _, le_rfl, h.rejects_tail hdec, le_rfl, s.rejects_raiseError f⟩
  | succ n ih =>
    obtain ⟨g, rest, rfl, hg⟩ := h.split
    rw [decFrom_append_group hg] at hdec
    rcases bind_error hdec with hpair | ⟨b, hb, hdec⟩
    · exact ⟨1, _, by omega, .last h.busy (h.turn_of_failure hg hpair) rfl rfl, le_rfl,
        (s.rejects_raiseError f).mono (Nat.le_add_right _ _)⟩
    · rcases bind_error hdec with hmore | ⟨more, -, hok⟩
      · obtain ⟨hturn, hnext⟩ := h.turn hg hb
        have hstart : groupStart (s.k + 1) = groupStart s.k + 6 := by unfold groupStart; omega
        obtain ⟨l, u, hl, hfin, hku, hrej⟩ := ih hnext (hstart ▸ hmore)
        have hk : s.k + 1 + n ≤ s.k + (n + 1) := by omega
        exact ⟨l + 1, u, by omega, .turn h.busy hturn hfin, (Nat.le_succ _).trans hku, (hrej.of_decodePair hku).mono hk⟩
      · cases hok

/-! ### The frame -/

/-- R121: behind a frame that passes, the groups are left. -/
theorem decodesFrom_of_frame {s : State} {chars : List Byte} (hinv : s.Inv) (hp : s.phase = .decFrame) (hstr : s.HoldsStr chars)
    (hl : chars.length % 6 = 5) :
    { s with c := ckInit, k := 0, phase := .decBody }.DecodesFrom ((chars.length - 5) / 6) chars.tail := by
  obtain ⟨hlen, hread⟩ := hstr
  refine ⟨hinv.openDecode hp (hlen ▸ hl) ckInit, rfl, ?_, ?_, fun i hi hslot => ?_⟩
  · rw [Nat.zero_add]
    exact congrArg (fun l => (l - 5) / 6) hlen
  · rw [List.length_tail]
    omega
  · rw [List.length_tail] at hi
    have hcell := hread (1 + i) (by omega) fun ⟨g, hg, he⟩ => by
      have hoff := hyphenSlot_offset_cases s.cfg.hyphenSlot
      unfold hyphenAt groupStart at he
      exact hslot (by omega) (by simp only; omega)
    rw [List.getElem?_tail, Nat.add_comm i 1]
    exact hcell

/-- R121 against R130: DFRAME raises what `dec` reports of length and frame, or goes on to the groups. -/
theorem decFrame_turn {s : State} {chars : List Byte} (hinv : s.Inv) (hp : s.phase = .decFrame) (hstr : s.HoldsStr chars) :
    s.busy = true ∧
      ((∃ f, dec s.cfg chars = .error f ∧ engineTurn s = .next (raiseError f.1 f.2 { s with c := ckInit, k := 0 })) ∨
        (dec s.cfg chars = decFrom s.cfg ckInit 1 chars.tail ∧
          let t := { s with c := ckInit, k := 0, phase := .decBody }
          engineTurn s = .next t ∧ t.DecodesFrom ((chars.length - 5) / 6) chars.tail)) := by
  obtain ⟨hb, -⟩ := hinv.coherent.of_phase (by simp [hp])
  have hopens := decodesFrom_of_frame hinv hp hstr
  obtain ⟨hlen, hread⟩ := hstr
  have hturn : engineTurn s = execDframe s := engineTurn_of_decode hb (decode_sel_decFrame hp)
  refine ⟨hb, ?_⟩
  by_cases hl : s.strLen % 6 = 5
  swap
  · refine .inl ⟨_, if_pos (hlen ▸ hl), hturn.trans ?_⟩
    rw [execDframe_of_wrong_length hp hl, hlen]
  have h5 := five_le_of_mod_six hl
  obtain ⟨hin0, hin1⟩ := hinv.coherent.frame_inside hl
  have h0 : Memory.read s.str 0 = chars.head? := by
    rw [List.head?_eq_getElem?]
    exact hread 0 (by omega) (not_isHyphenSlot_zero s.cfg _)
  have h1 : Memory.read s.str (s.strLen - 1) = chars.getLast? := by
    rw [List.getLast?_eq_getElem?, hlen]
    exact hread _ (by omega) (not_isHyphenSlot_of_tail s.cfg (by unfold groupStart; omega))
  rw [execDframe_of_length hp hl] at hturn
  rw [dec, if_neg (not_not.mpr (hlen ▸ hl))]
  by_cases hhead : chars.head? = some delimiter
  swap
  · obtain ⟨ch, rest, rfl⟩ := List.exists_cons_of_length_pos (l := chars) (by omega)
    have hne : ch ≠ delimiter := fun he => hhead (congrArg some he)
    rw [expectDelimiter_of_read_ne hin0 h0 hne] at hturn
    exact .inl ⟨_, if_pos hhead, hturn⟩
  rw [expectDelimiter_of_read hin0 (h0.trans hhead), ok_bind] at hturn
  rw [if_neg (not_not.mpr hhead)]
  by_cases hlast : chars.getLast? = some delimiter
  swap
  · obtain ⟨ch, hch⟩ : ∃ ch, chars.getLast? = some ch :=
      Option.isSome_iff_exists.mp (List.getLast?_isSome.mpr (List.ne_nil_of_length_pos (by omega)))
    have hne : ch ≠ delimiter := fun he => hlast (he ▸ hch)
    rw [expectDelimiter_of_read_ne hin1 (h1.trans hch) hne] at hturn
    exact .inl ⟨_, (if_pos hlast).trans (by rw [hlen]), hturn⟩
  rw [expectDelimiter_of_read hin1 (h1.trans hlast), ok_bind, settle_ok] at hturn
  exact .inr ⟨if_neg (not_not.mpr hlast), hturn, hopens (hlen ▸ hl)⟩

/-! ### The whole operation -/

/-- R129, R130: from DFRAME on, of a string that `dec` accepts. -/
theorem decode_finishes {s : State} {chars bytes : List Byte} (hinv : s.Inv) (hp : s.phase = .decFrame)
    (hstr : s.HoldsStr chars) (hdec : dec s.cfg chars = .ok bytes) :
    ∃ m, Finishes s ((chars.length - 5) / 6 + 2)
        (s.endDecode m bytes.length (checksumFrom 1 bytes) ((chars.length - 5) / 6)) ∧
      (∀ a, a < bytes.length → Memory.read m a = bytes[a]?) ∧
      ∀ a, bytes.length ≤ a → Memory.read m a = Memory.read s.raw a := by
  obtain ⟨hb, ⟨f, hf, -⟩ | ⟨hfrom, hturn, hnext⟩⟩ := decFrame_turn hinv hp hstr
  · cases hf.symm.trans hdec
  · obtain ⟨m, hfin, hholds, hframe⟩ := hnext.finishes (hfrom.symm.trans hdec)
    simp only [Nat.mul_zero, Nat.zero_add] at hfin hholds hframe
    refine ⟨m, .turn hb hturn hfin, fun a ha => ?_, fun a ha => hframe a (.inr ha)⟩
    rw [← hholds a ha, Nat.zero_add]

/-- R131, R178: from DFRAME on, of a string that `dec` rejects. -/
theorem decode_rejects {s : State} {chars : List Byte} {f : Failure} (hinv : s.Inv) (hp : s.phase = .decFrame)
    (hstr : s.HoldsStr chars) (hdec : dec s.cfg chars = .error f) :
    ∃ l u, l ≤ (chars.length - 5) / 6 + 2 ∧ Finishes s l u ∧ s.Rejects f ((chars.length - 5) / 6) u := by
  obtain ⟨hb, ⟨f', hf, hturn⟩ | ⟨hfrom, hturn, hnext⟩⟩ := decFrame_turn hinv hp hstr
  · obtain rfl : f' = f := Except.error.inj (hf.symm.trans hdec)
    have hrej := State.rejects_raiseError { s with c := ckInit, k := 0 } f'
    exact ⟨1, _, by omega, .last hb hturn rfl rfl, hrej.of_open.mono (Nat.zero_le _)⟩
  · obtain ⟨l, u, hl, hfin, -, hrej⟩ := hnext.rejects (hfrom.symm.trans hdec)
    rw [Nat.zero_add] at hrej
    exact ⟨l + 1, u, by omega, .turn hb hturn hfin, hrej.of_open⟩

/-- CMD_DECODE to an idle block (R154). -/
theorem decode_command {s : State} {rest : List Input} (hinv : s.Inv) (hb : s.busy = false)
    (hi : s.inputs = .writeReg 0 2 :: rest) :
    step s = .next (acceptCommand .decode .decFrame { s with inputs := rest }) ∧
      (acceptCommand .decode .decFrame { s with inputs := rest }).Inv :=
  ⟨(step_writeCtrl hinv.coherent hi).trans ((writeCtrl_decode rfl _).trans (execCmdDecode_idle hb)),
    (hinv.hostSide s.c rest s.reads s.draws s.losses).acceptCommand (.inr rfl)⟩

/-- Settles O49: the command, then the operation on an empty queue. -/
theorem decodeOperationComputesDec : Obligations.DecodeOperationComputesDec := by
  intro s chars bytes hinv hb hi hstr hdec
  obtain ⟨hstep, hstart⟩ := decode_command hinv hb hi
  obtain ⟨m, hfin, hholds, hframe⟩ := decode_finishes hstart rfl hstr hdec
  exact ⟨_, run_add (run_succ_next.mpr ⟨_, hstep, rfl⟩) (run_of_finishes hfin hstart rfl le_rfl), rfl, hholds, hframe⟩

/-- Settles O50: the same; turns after the failure change nothing. -/
theorem decodeOperationRecordsTheFailure : Obligations.DecodeOperationRecordsTheFailure := by
  intro s chars kind pos hinv hb hi hstr hdec
  obtain ⟨hstep, hstart⟩ := decode_command hinv hb hi
  obtain ⟨l, u, hl, hfin, hrej⟩ := decode_rejects hstart rfl hstr hdec
  exact ⟨u, run_add (run_succ_next.mpr ⟨_, hstep, rfl⟩) (run_of_finishes hfin hstart rfl hl), hrej.state, hrej.kLe,
    hrej.lost, hrej.kept⟩

/-! ### The checksum on the way -/

/-- R95, for DECODE of an encoded string: `k` turns from DPAIR on are `k` pairs. -/
theorem State.DecodesFrom.run {s : State} {n k : Nat} {bytes : List Byte} {x : Byte}
    (h : s.DecodesFrom n (encFrom s.cfg s.c bytes ++ [x])) (hi : s.inputs = []) (hk : k ≤ n) :
    ∃ t, Sys2Proof.core.run k s = .next t ∧ t.phase = .decBody ∧ t.k = s.k + k ∧
      t.c = checksumFrom s.c (bytes.take (2 * k)) := by
  induction k generalizing s n bytes with
  | zero => exact ⟨s, rfl, h.phase, rfl, rfl⟩
  | succ k ih =>
    obtain ⟨n, rfl⟩ := Nat.exists_eq_add_one_of_ne_zero (show n ≠ 0 by omega)
    have hlen := h.len
    rw [List.length_append, length_encFrom, List.length_singleton] at hlen
    obtain ⟨b0, b1, rest, rfl⟩ := exists_pair_of_length (bytes := bytes) (by omega)
    rw [encFrom_pair, List.append_assoc] at h
    obtain ⟨hturn, hnext⟩ := h.turn (length_pairGroup ..) (decPair_pairGroup ..)
    obtain ⟨t, hrun, hp, hkt, hct⟩ := ih hnext hi (by omega)
    have hsum : s.k + 1 + k = s.k + (k + 1) := by omega
    exact ⟨t, run_succ_next.mpr ⟨_, (step_of_nil h.inv.coherent hi).trans hturn, hrun⟩, hp, hkt.trans hsum, hct⟩

/-- Settles O51: the command, EOPEN or DFRAME, and `k` turns of the body. -/
theorem checksumIsMirrored : Obligations.ChecksumIsMirrored := by
  intro s bytes k hinv hb hk
  refine ⟨fun hi hraw => ?_, fun hi hstr => ?_⟩
  · obtain ⟨hstep, hstart⟩ := encode_command hinv hb hi
    obtain ⟨-, hturn, hfrom⟩ := encOpen_turn hstart rfl hraw
    obtain ⟨t, hrun, hp, hkt, hct⟩ := hfrom.run rfl hk
    have hopen := (step_of_nil hstart.coherent rfl).trans hturn
    exact ⟨t, run_add (run_succ_next.mpr ⟨_, hstep, run_succ_next.mpr ⟨_, hopen, rfl⟩⟩) hrun, hp,
      hkt.trans (Nat.zero_add k), hct⟩
  · obtain ⟨hstep, hstart⟩ := decode_command hinv hb hi
    have hdec := decodingInvertsEncoding s.cfg bytes
    obtain ⟨-, ⟨f, hf, -⟩ | ⟨-, hturn, hfrom⟩⟩ := decFrame_turn hstart rfl hstr
    · cases hf.symm.trans hdec
    · rw [length_enc] at hfrom
      obtain ⟨t, hrun, hp, hkt, hct⟩ := hfrom.run (bytes := bytes) (x := delimiter) rfl (show k ≤ _ by omega)
      have hopen := (step_of_nil hstart.coherent rfl).trans hturn
      exact ⟨t, run_add (run_succ_next.mpr ⟨_, hstep, run_succ_next.mpr ⟨_, hopen, rfl⟩⟩) hrun, hp,
        hkt.trans (Nat.zero_add k), hct⟩

end Sys2Proof.Machine
end

section
/-! Both operations after one another (42_decoder.md R133) and the two calls of the host (30_encoding.md R84). -/

namespace Sys2Proof.Machine

/-! ### The round trip -/

/-- Settles O53: the turns of the ENCODE wait in the queue, those of the DECODE come on an empty one; STR holds the encoded string
between them. -/
theorem roundTripInPlace : Obligations.RoundTripInPlace := by
  intro s bytes hinv hb hraw hi
  obtain ⟨hstep, hstart⟩ := encode_command hinv hb hi
  obtain ⟨m, hfin, hholds, -⟩ := encode_finishes hstart rfl hraw
  have hencode := run_of_finishes_queue hfin hstart [.writeReg 0 2] s.reads
  have hmid := (hfin.inv hstart).setPort [.writeReg 0 2] s.reads
  obtain ⟨hstep', hstart'⟩ := decode_command hmid rfl rfl
  have hlen := length_enc s.cfg bytes
  obtain ⟨m', hfin', hholds', -⟩ := decode_finishes (chars := enc s.cfg bytes) hstart' rfl
    ⟨hlen.symm, fun i hi _ => hholds i (hlen ▸ hi)⟩ (decodingInvertsEncoding s.cfg bytes)
  rw [hlen] at hfin'
  have hdecode := run_of_finishes (m := bytes.length / 2 + 2) hfin' hstart' rfl (by omega)
  exact ⟨_, run_add (run_add (run_succ_next.mpr ⟨_, hstep, rfl⟩) hencode)
    (run_add (run_succ_next.mpr ⟨_, hstep', rfl⟩) hdecode), rfl, rfl, rfl, rfl, hholds'⟩

/-! ### The host's writes -/

theorem cells_inside {l : List Byte} {cap : Nat} (h : l.length ≤ cap) : ∀ cell ∈ l.zipIdx, cell.2 < cap := fun cell hm => by
  have := List.snd_lt_of_mem_zipIdx hm
  omega

theorem swapped_cells_inside {l : List Byte} {cap : Nat} (h : l.length ≤ cap) :
    ∀ cell ∈ l.zipIdx.map Prod.swap, cell.1 < cap := fun cell hm => by
  obtain ⟨cell', hm', rfl⟩ := List.mem_map.mp hm
  exact cells_inside h cell' hm'

/-- The state with bytes written to RAW and their number to RAW_LEN (R84). -/
def State.loadRaw (bytes : List Byte) (s : State) : State :=
  { s with raw := Memory.writeAll s.raw (bytes.zipIdx.map Prod.swap), rawLen := bytes.length }

/-- The state with characters written to STR and their number to STR_LEN (R84). -/
def State.loadStr (chars : List Byte) (s : State) : State :=
  { s with str := Memory.writeAll s.str (chars.zipIdx.map Prod.swap), strLen := chars.length }

theorem State.loadRaw_holds (bytes : List Byte) (s : State) : (s.loadRaw bytes).HoldsRaw bytes := by
  obtain ⟨hholds, -⟩ := Memory.holds_writeAll s.raw 0 bytes
  exact ⟨rfl, fun i hi => (congrArg _ (Nat.zero_add i).symm).trans (hholds i hi)⟩

theorem State.loadStr_holds (chars : List Byte) (s : State) : (s.loadStr chars).HoldsStr chars := by
  obtain ⟨hholds, -⟩ := Memory.holds_writeAll s.str 0 chars
  exact ⟨rfl, fun i hi _ => (congrArg _ (Nat.zero_add i).symm).trans (hholds i hi)⟩

section
variable {s : State} (hinv : s.Inv) (hb : s.busy = false)
include hinv hb

theorem State.Inv.loadRaw {bytes : List Byte} (h : bytes.length ≤ s.cfg.rawCap) : (s.loadRaw bytes).Inv :=
  (hinv.storeRaw (swapped_cells_inside h)).setLengths hb h hinv.coherent.lengths.2

theorem State.Inv.loadStr {chars : List Byte} (h : chars.length ≤ s.cfg.strCap) : (s.loadStr chars).Inv :=
  (hinv.storeStr (swapped_cells_inside h)).setLengths hb hinv.coherent.lengths.1 h

/-- R84: the writes of `encode(B)` up to its command. -/
theorem hostDoAll_encodeSetup {bytes : List Byte} (h : bytes.length ≤ s.cfg.rawCap) :
    hostDoAll (encodeSetup bytes) s = .ok (acceptCommand .encode .encOpen (s.loadRaw bytes)) := by
  have hcells := (hinv.storeRaw (swapped_cells_inside h)).coherent
  have hfits : bytes.length < 2 ^ s.cfg.lenW := hinv.offset_fits (by unfold Config.rawCap at h; unfold Config.strCap; omega)
  have hlen : perform (.writeReg 2 bytes.length)
      { s with raw := Memory.writeAll s.raw (bytes.zipIdx.map Prod.swap) } = .next (s.loadRaw bytes) := by
    refine (hostWriteReg_rawLen (s := { s with raw := Memory.writeAll s.raw (bytes.zipIdx.map Prod.swap) }) hb
      hfits).trans ?_
    rw [if_pos h]
    rfl
  have hcmd : perform (.writeReg 0 1) (s.loadRaw bytes) = .next (acceptCommand .encode .encOpen (s.loadRaw bytes)) :=
    (writeCtrl_encode (v := 1) rfl _).trans (execCmdEncode_idle (s := s.loadRaw bytes) hb)
  rw [encodeSetup, hostDoAll_append, hostDoAll_writeRaw hinv.coherent hb _ (cells_inside h), ok_bind,
    hostDoAll_cons (hostDo_of_perform hcells hlen), hostDoAll_cons (hostDo_of_perform (hinv.loadRaw hb h).coherent hcmd),
    hostDoAll_nil]

/-- R84: the writes of `decode(S)` up to its command. -/
theorem hostDoAll_decodeSetup {chars : List Byte} (h : chars.length ≤ s.cfg.strCap) :
    hostDoAll (decodeSetup chars) s = .ok (acceptCommand .decode .decFrame (s.loadStr chars)) := by
  have hcells := (hinv.storeStr (swapped_cells_inside h)).coherent
  have hlen : perform (.writeReg 3 chars.length)
      { s with str := Memory.writeAll s.str (chars.zipIdx.map Prod.swap) } = .next (s.loadStr chars) := by
    refine (hostWriteReg_strLen (s := { s with str := Memory.writeAll s.str (chars.zipIdx.map Prod.swap) }) hb
      (hinv.offset_fits h)).trans ?_
    rw [if_pos h]
    rfl
  have hcmd : perform (.writeReg 0 2) (s.loadStr chars) = .next (acceptCommand .decode .decFrame (s.loadStr chars)) :=
    (writeCtrl_decode (v := 2) rfl _).trans (execCmdDecode_idle (s := s.loadStr chars) hb)
  rw [decodeSetup, hostDoAll_append, hostDoAll_writeStr hinv.coherent hb _ (cells_inside h), ok_bind,
    hostDoAll_cons (hostDo_of_perform hcells hlen), hostDoAll_cons (hostDo_of_perform (hinv.loadStr hb h).coherent hcmd),
    hostDoAll_nil]

end

/-! ### The host's reads -/

/-- Reads of successive cells, each of which hands its byte over, hand the sequence over. -/
theorem hostReadAll_of_cells {readCell : Nat → Input} {l : List Byte} {s : State}
    (h : ∀ (i : Nat) (v : Byte) (rs : List Nat), l[i]? = some v →
      hostRead (readCell i) { s with reads := rs } = .ok (v.toNat, { s with reads := v.toNat :: rs })) :
    ∃ rs, hostReadAll ((List.range l.length).map readCell) s = .ok (l.map BitVec.toNat, { s with reads := rs }) := by
  refine ⟨_, hostReadAll_of_answers (List.forall₂_iff_get.mpr ⟨by simp, fun i h₁ h₂ rs => ?_⟩)⟩
  have hi : i < l.length := by simpa using h₂
  simpa using h i l[i] rs (List.getElem?_eq_getElem hi)

section
variable {s : State} (hinv : s.Inv) (hb : s.busy = false)
include hinv hb

/-- R84: the length is read and then as many cells of STR. -/
theorem readBack_str {chars : List Byte} (hlen : s.strLen = chars.length)
    (h : ∀ a, a < chars.length → Memory.read s.str a = chars[a]?) :
    ∃ rs, readBack 3 .readStr s = .ok (chars.map BitVec.toNat, s.setPort s.inputs rs) := by
  have hcap := hinv.coherent.lengths.2
  have hview : s.regView 3 = chars.length := hlen
  obtain ⟨rs, hrs⟩ := hostReadAll_of_cells (readCell := .readStr) (l := chars) (s := answer chars.length s)
    fun i v rs hv => by
      obtain ⟨hi, -⟩ := List.getElem?_eq_some_iff.mp hv
      exact hostRead_str (s := { s with reads := rs }) hinv.coherent hb (show i < s.cfg.strCap by omega) ((h i hi).trans hv)
  refine ⟨rs, ?_⟩
  rw [readBack, hostRead_reg hinv.coherent hb (by decide), hview, ok_bind]
  exact hrs

/-- R84: the length is read and then as many cells of RAW. -/
theorem readBack_raw {bytes : List Byte} (hlen : s.rawLen = bytes.length)
    (h : ∀ a, a < bytes.length → Memory.read s.raw a = bytes[a]?) :
    ∃ rs, readBack 2 .readRaw s = .ok (bytes.map BitVec.toNat, s.setPort s.inputs rs) := by
  have hcap := hinv.coherent.lengths.1
  have hview : s.regView 2 = bytes.length := hlen
  obtain ⟨rs, hrs⟩ := hostReadAll_of_cells (readCell := .readRaw) (l := bytes) (s := answer bytes.length s)
    fun i v rs hv => by
      obtain ⟨hi, -⟩ := List.getElem?_eq_some_iff.mp hv
      exact hostRead_raw (s := { s with reads := rs }) hinv.coherent hb (show i < s.cfg.rawCap by omega) ((h i hi).trans hv)
  refine ⟨rs, ?_⟩
  rw [readBack, hostRead_reg hinv.coherent hb (by decide), hview, ok_bind]
  exact hrs

end

/-! ### The two calls -/

/-- R84: after the polling, `encode(B)` reads STR back. -/
theorem encodeCall_of_string {s u v : State} {bytes chars : List Byte} {polls : List Nat} {status : Nat}
    (hsetup : hostDoAll (encodeSetup bytes) s = .ok u) (hawait : awaitDone polls u = .ok (status, v)) (hinv : v.Inv)
    (hb : v.busy = false) (hlen : v.strLen = chars.length)
    (h : ∀ a, a < chars.length → Memory.read v.str a = chars[a]?) :
    ∃ rs, encodeCall bytes polls s = .ok (chars.map BitVec.toNat, v.setPort v.inputs rs) := by
  obtain ⟨rs, hread⟩ := readBack_str hinv hb hlen h
  refine ⟨rs, ?_⟩
  rw [encodeCall, hsetup, ok_bind, hawait, ok_bind]
  exact hread

/-- Settles O59: the writes start the ENCODE, the polls give it its turns, and STR is read back. -/
theorem encodeCallAnswersEnc : Obligations.EncodeCallAnswersEnc := by
  intro s bytes polls hinv hb hcap
  have hsetup := hostDoAll_encodeSetup hinv hb hcap
  have hstart : (acceptCommand .encode .encOpen (s.loadRaw bytes)).Inv := (hinv.loadRaw hb hcap).acceptCommand (.inl rfl)
  have hraw := s.loadRaw_holds bytes
  have hlen := length_enc s.cfg bytes
  obtain ⟨m, hfin, hholds, -⟩ := encode_finishes hstart rfl hraw
  obtain ⟨hdone, hbusy⟩ := awaitDone_of_finishes (polls := polls) hfin hstart rfl
  refine ⟨fun hn => ?_, fun hn => ?_⟩
  · obtain ⟨reads, hawait⟩ := hdone hn
    obtain ⟨rs, hcall⟩ := encodeCall_of_string (chars := enc s.cfg bytes) hsetup hawait ((hfin.inv hstart).setPort _ _) rfl
      hlen.symm fun a ha => hholds a (hlen ▸ ha)
    exact ⟨_, hcall, rfl, rfl, rfl, hraw, rfl⟩
  · obtain ⟨t, hawait, htb, htd⟩ := hbusy hn
    refine ⟨t, ?_, htb, htd⟩
    rw [encodeCall, hsetup, ok_bind, hawait, error_bind]

/-- What `decode(S)` answers for what `dec(S)` is (R84). -/
def callAnswer : Except Failure (List Byte) → Except (Nat × Nat) (List Nat)
  | .ok bytes => .ok (bytes.map BitVec.toNat)
  | .error f => .error (f.1.errCode.code, f.2)

section
variable {s u v : State} {chars : List Byte} {polls : List Nat} (hsetup : hostDoAll (decodeSetup chars) s = .ok u)
  (hawait : awaitDone polls u = .ok (v.status, v)) (hinv : v.Inv) (hb : v.busy = false)
include hsetup hawait hinv hb

/-- R84: after the polling, an error is read from its two registers. -/
theorem decodeCall_of_failure {f : Failure} (he : v.err = true) (hcode : v.errCode = f.1.errCode) (hpos : v.errPos = f.2) :
    ∃ rs, decodeCall chars polls s = .ok (callAnswer (.error f), v.setPort v.inputs rs) := by
  have hcodeView : v.regView 4 = f.1.errCode.code := congrArg ErrCode.code hcode
  have hposView : (answer f.1.errCode.code v).regView 5 = f.2 := hpos
  refine ⟨f.2 :: f.1.errCode.code :: v.reads, ?_⟩
  simp only [decodeCall, hsetup, hawait, ok_bind, statusErr_status, he, if_true,
    hostRead_reg hinv.coherent hb (r := 4) (by decide), hcodeView,
    hostRead_reg (s := answer f.1.errCode.code v) hinv.coherent hb (r := 5) (by decide), hposView]
  rfl

/-- R84: after the polling, without an error, the bytes are read from RAW. -/
theorem decodeCall_of_bytes {bytes : List Byte} (he : v.err = false) (hlen : v.rawLen = bytes.length)
    (h : ∀ a, a < bytes.length → Memory.read v.raw a = bytes[a]?) :
    ∃ rs, decodeCall chars polls s = .ok (callAnswer (.ok bytes), v.setPort v.inputs rs) := by
  obtain ⟨rs, hread⟩ := readBack_raw hinv hb hlen h
  refine ⟨rs, ?_⟩
  simp only [decodeCall, hsetup, hawait, ok_bind, statusErr_status, he, Bool.false_eq_true, if_false, hread]
  rfl

end

/-- R84: the call answers `dec(S)` once the engine has had the turns of the operation, and polls a busy block before that. -/
theorem decodeCall_cases {s : State} {chars : List Byte} (polls : List Nat) (hinv : s.Inv) (hb : s.busy = false)
    (hcap : chars.length ≤ s.cfg.strCap) :
    ∃ l ≤ (chars.length - 5) / 6 + 2,
      (l ≤ polls.sum → ∃ t, decodeCall chars polls s = .ok (callAnswer (dec s.cfg chars), t) ∧
        t.done = true ∧ t.busy = false ∧ t.HoldsStr chars ∧ t.inputs = s.inputs) ∧
      (polls.sum < l → ∃ t, decodeCall chars polls s = .error (.stillPolling t) ∧ t.busy = true ∧ t.done = false) := by
  have hsetup := hostDoAll_decodeSetup hinv hb hcap
  have hstart : (acceptCommand .decode .decFrame (s.loadStr chars)).Inv := (hinv.loadStr hb hcap).acceptCommand (.inr rfl)
  have hstr := s.loadStr_holds chars
  have hpolling : ∀ {l u}, Finishes (acceptCommand .decode .decFrame (s.loadStr chars)) l u → polls.sum < l →
      ∃ t, decodeCall chars polls s = .error (.stillPolling t) ∧ t.busy = true ∧ t.done = false := fun hfin hn => by
    obtain ⟨t, hawait, htb, htd⟩ := (awaitDone_of_finishes hfin hstart rfl).2 hn
    refine ⟨t, ?_, htb, htd⟩
    rw [decodeCall, hsetup, ok_bind, hawait, error_bind]
  cases hdec : dec s.cfg chars with
  | ok bytes =>
    obtain ⟨m, hfin, hholds, -⟩ := decode_finishes hstart rfl hstr hdec
    refine ⟨_, le_rfl, fun hn => ?_, hpolling hfin⟩
    obtain ⟨reads, hawait⟩ := (awaitDone_of_finishes hfin hstart rfl).1 hn
    have hend := (hfin.inv hstart).setPort s.inputs reads
    obtain ⟨rs, hcall⟩ := decodeCall_of_bytes hsetup hawait hend rfl rfl rfl hholds
    exact ⟨_, hcall, rfl, rfl, hstr, rfl⟩
  | error f =>
    obtain ⟨l, u, hl, hfin, hrej⟩ := decode_rejects hstart rfl hstr hdec
    refine ⟨l, hl, fun hn => ?_, hpolling hfin⟩
    obtain ⟨reads, hawait⟩ := (awaitDone_of_finishes hfin hstart rfl).1 hn
    obtain ⟨hub, hud⟩ := hfin.end_idle
    have hend := (hfin.inv hstart).setPort s.inputs reads
    obtain ⟨rs, hcall⟩ := decodeCall_of_failure (f := f) hsetup hawait hend hub
      (congrArg State.err hrej.state) (congrArg State.errCode hrej.state) (congrArg State.errPos hrej.state)
    exact ⟨_, hcall, hud, hub, hrej.holdsStr hstr, rfl⟩

/-- Settles O60: an answer when the engine had the turns, a busy block otherwise, and never anything else. -/
theorem decodeCallAnswersDec : Obligations.DecodeCallAnswersDec := by
  intro s chars polls hinv hb hcap
  obtain ⟨l, hl, hdone, hbusy⟩ := decodeCall_cases polls hinv hb hcap
  refine ⟨fun hn => ?_, fun r t h => ?_, fun e h => ?_⟩
  · obtain ⟨t, hcall, -⟩ := hdone (hl.trans hn)
    exact ⟨_, t, hcall⟩
  · rcases Nat.lt_or_ge polls.sum l with hlt | hge
    · obtain ⟨t', hcall, -⟩ := hbusy hlt
      cases hcall.symm.trans h
    · obtain ⟨t', hcall, hleaves⟩ := hdone hge
      cases hcall.symm.trans h
      exact ⟨rfl, hleaves⟩
  · rcases Nat.lt_or_ge polls.sum l with hlt | hge
    · obtain ⟨t, hcall, ht⟩ := hbusy hlt
      cases hcall.symm.trans h
      exact ⟨t, rfl, ht⟩
    · obtain ⟨t, hcall, -⟩ := hdone hge
      cases hcall.symm.trans h

end Sys2Proof.Machine
end
